-- ==== Sys2Proof/Word.lean ====
section
/-! DEFINITION. The widths of the machine's values (00_scope.md R10, R11): plain bit vectors, bit 0 the least
significant. -/

namespace Sys2Proof

/-- One byte of memory or of an encoding (20_memory.md R52). -/
abbrev Byte := BitVec 8

/-- A 64-bit address, general register or `rip` (10_state.md R28, R29). -/
abbrev Word := BitVec 64

/-- A 64-bit MMX register (10_state.md R24). -/
abbrev Mmx := BitVec 64

/-- The 512-bit container of a vector register, of which bits `MAXVL-1:0` exist (10_state.md R20, R22). -/
abbrev Zmm := BitVec 512

end Sys2Proof
end

