-- ==== Sys2Proof/Config.lean ====
section
/-! DEFINITION. The parameters the spec leaves to an implementation (00_scope.md R9), as plain data. A state carries
one `Config`, no step changes it, and a statement about every state is a statement about every choice of them. -/

namespace Sys2Proof

/-- `EXC_PRIORITY` (00_scope.md R9, 60_exceptions.md R204). -/
inductive ExcPriority where
  /-- the order of R204, the first condition that holds -/
  | inOrder
  /-- any condition of R204's steps 4 to 7 that holds may be reported; `pick` is which of them, an open number that
  nothing constrains (assumption log 16) -/
  | anyOf (pick : Nat)
deriving DecidableEq, Repr

/-- The parameters of the model (00_scope.md R9, R17). `MAXVL` and `MODE` are computed, from `FEATURES` and from the
control state; the read oracle stands in the state (20_memory.md R57). -/
structure Config where
  /-- `FEATURES`: the six CPUID flags of 00_scope.md R2 -/
  mmx : Bool
  sse2 : Bool
  avx : Bool
  avx2 : Bool
  avx512f : Bool
  avx512vl : Bool
  /-- `VA_BITS`: 48 or 57 on real parts (20_memory.md R69) -/
  vaBits : Nat
  /-- `KW`, the width of an opmask register, at least 16 (00_scope.md R9, 10_state.md R26) -/
  kw : Nat
  /-- `FAULT_SUPPRESSION` (20_memory.md R79) -/
  faultSuppression : Bool
  /-- `EXC_PRIORITY` (60_exceptions.md R204) -/
  excPriority : ExcPriority
  /-- the family, model and stepping signature that RESET leaves in RDX (10_state.md R45) -/
  signature : BitVec 32
deriving DecidableEq, Repr

/-- The reference values: every feature present (00_scope.md R9), `VA_BITS = 48`, no fault suppression and R204's order
(95_test_vectors.md, conventions), `KW = 64`. DESIGN CHOICE, unsafe, assumption log 7 (the signature: log 2). -/
def Config.reference : Config where
  mmx := true
  sse2 := true
  avx := true
  avx2 := true
  avx512f := true
  avx512vl := true
  vaBits := 48
  kw := 64
  faultSuppression := false
  excPriority := .inOrder
  signature := 0

end Sys2Proof
end

