-- ==== Sys2Proof/Syntax.lean ====
section
/-! DEFINITION. The instructions of the hardware: one constructor for each row of spec/opcode_table.json
(30_encoding.md R115). An instruction keeps every bit its encoding has, the ignored ones too, because its length
(30_encoding.md R117) moves `rip` and enters RIP-relative addresses. -/

namespace Sys2Proof

/-- The six segment overrides (30_encoding.md R84). -/
inductive SegOvr where
  | es | cs | ss | ds | fs | gs
deriving DecidableEq, Repr

/-- The legacy prefix bytes (30_encoding.md R84). -/
inductive Pfx where
  | lock
  | repne
  | rep
  | seg (o : SegOvr)
  | opSize
  | addrSize
deriving DecidableEq, Repr

/-- The four groups of which an encoding has at most one prefix each (30_encoding.md R84). -/
inductive PfxGroup where
  | lockRep | segment | opSize | addrSize
deriving DecidableEq, Repr

/-- A REX byte `0100WRXB` (30_encoding.md R87). -/
structure Rex where
  w : Bool
  r : Bool
  x : Bool
  b : Bool
deriving DecidableEq, Repr

/-- What stands before the opcode part: the legacy prefixes in their order, and the REX byte (30_encoding.md R83). -/
structure Head where
  pfx : List Pfx
  rex : Option Rex
deriving DecidableEq, Repr

/-- The displacement after ModRM and SIB (20_memory.md R65, R68). -/
inductive Disp where
  | none
  | d8 (v : BitVec 8)
  | d32 (v : BitVec 32)
deriving DecidableEq, Repr

/-- A memory operand's ModRM, SIB and displacement fields (20_memory.md R64 to R67). -/
inductive Addr where
  /-- no SIB byte: `rm` names the base register -/
  | base (rm : BitVec 3) (disp : Disp)
  /-- `mod = 00`, `rm = 101`: relative to the next instruction -/
  | ripRel (disp : BitVec 32)
  /-- SIB byte with a base register -/
  | sib (scale : BitVec 2) (index base : BitVec 3) (disp : Disp)
  /-- SIB byte, `mod = 00`, `base = 101`: no base register -/
  | sibNoBase (scale : BitVec 2) (index : BitVec 3) (disp : BitVec 32)
deriving DecidableEq, Repr

/-- The operand ModRM:r/m: a register (`mod = 3`) or a memory operand (20_memory.md R64). -/
inductive Rm where
  | reg (rm : BitVec 3)
  | mem (a : Addr)
deriving DecidableEq, Repr

/-- The two operands of the ModRM byte (30_encoding.md R90 to R92). -/
structure ModRm where
  reg : BitVec 3
  rm : Rm
deriving DecidableEq, Repr

/-- The two spellings of a VEX prefix (30_encoding.md R95, R96): the 2-byte one implies `X = 0`, `B = 0`, `W = 0`. -/
inductive VexForm where
  | two
  | three (x b w : Bool)
deriving DecidableEq, Repr

/-- The VEX fields an instruction may choose (30_encoding.md R95, R96, R100), not complemented: `vvvv` is the register
number of the first source. -/
structure Vex where
  r : Bool
  vvvv : BitVec 4
  form : VexForm
deriving DecidableEq, Repr

/-- The EVEX fields an instruction may choose (30_encoding.md R104, R105), not complemented: `rHi` is R', `v` is
`V' ++ vvvv`, `bc` is EVEX.b. -/
structure Evex where
  r : Bool
  x : Bool
  b : Bool
  rHi : Bool
  v : BitVec 5
  z : Bool
  bc : Bool
  aaa : BitVec 3
deriving DecidableEq, Repr

/-- The ten forms, in the order of the table (00_scope.md R2, 30_encoding.md R115). -/
inductive Instr where
  /-- `NP 0F DF /r` PANDN mm, mm/m64 (R130) -/
  | pandnMm (h : Head) (o : ModRm)
  /-- `66 0F DF /r` PANDN xmm1, xmm2/m128 (R131) -/
  | pandnXmm (h : Head) (o : ModRm)
  /-- `VEX.128.66.0F.WIG DF /r` VPANDN xmm1, xmm2, xmm3/m128 (R140) -/
  | vpandn128 (h : Head) (v : Vex) (o : ModRm)
  /-- `VEX.256.66.0F.WIG DF /r` VPANDN ymm1, ymm2, ymm3/m256 (R141) -/
  | vpandn256 (h : Head) (v : Vex) (o : ModRm)
  /-- `EVEX.128.66.0F.W0 DF /r` VPANDND xmm1 (R150) -/
  | vpandnd128 (h : Head) (e : Evex) (o : ModRm)
  /-- `EVEX.256.66.0F.W0 DF /r` VPANDND ymm1 (R151) -/
  | vpandnd256 (h : Head) (e : Evex) (o : ModRm)
  /-- `EVEX.512.66.0F.W0 DF /r` VPANDND zmm1 (R152) -/
  | vpandnd512 (h : Head) (e : Evex) (o : ModRm)
  /-- `EVEX.128.66.0F.W1 DF /r` VPANDNQ xmm1 (R153) -/
  | vpandnq128 (h : Head) (e : Evex) (o : ModRm)
  /-- `EVEX.256.66.0F.W1 DF /r` VPANDNQ ymm1 (R154) -/
  | vpandnq256 (h : Head) (e : Evex) (o : ModRm)
  /-- `EVEX.512.66.0F.W1 DF /r` VPANDNQ zmm1 (R155) -/
  | vpandnq512 (h : Head) (e : Evex) (o : ModRm)
deriving DecidableEq, Repr

/-- Why the decoder refuses a byte string (30_encoding.md R118, R119; 93_implementation_defined.md U3, U7, U8). A
refusal says nothing about the chip, so each is safe. -/
inductive Reject where
  /-- R118 step 6: the opcode bytes are none of the ten forms' -/
  | otherOpcode
  /-- R84: two prefixes of one group -/
  | repeatedPfx
  /-- R86: F2H or F3H before `0F DF` -/
  | repBeforeLeg
  /-- R87: a REX byte that is not the last byte before the opcode part -/
  | rexNotLast
  /-- R97, R118, R119: a VEX or EVEX string with another map, `pp` or opcode -/
  | notPandn
  /-- R119: EVEX `P0[3:2]` not 00 or `P1[2] = 0` -/
  | reservedEvex
  /-- the bytes end before the encoding does; in a step, which offers 15 bytes, an encoding over 15 bytes (R117, U8) -/
  | incomplete
  /-- R117, R119: a complete encoding longer than 15 bytes -/
  | tooLong
deriving DecidableEq, Repr

end Sys2Proof
end

