-- ==== Sys2Proof/Decode.lean ====
section
/-! DEFINITION. The decoder of 30_encoding.md R118 (64-bit mode), the length of an encoding (R117), the encoder written
from the same layouts (R80 to R114), and the table's window (R125). -/

namespace Sys2Proof

/-! ## Prefix bytes (R84, R87) -/

/-- The byte of a segment override (R84). -/
def SegOvr.byte : SegOvr → Byte
  | .es => 0x26#8
  | .cs => 0x2E#8
  | .ss => 0x36#8
  | .ds => 0x3E#8
  | .fs => 0x64#8
  | .gs => 0x65#8

/-- The byte of a legacy prefix (R84). -/
def Pfx.byte : Pfx → Byte
  | .lock => 0xF0#8
  | .repne => 0xF2#8
  | .rep => 0xF3#8
  | .seg o => o.byte
  | .opSize => 0x66#8
  | .addrSize => 0x67#8

/-- Every legacy prefix (R84). -/
def Pfx.all : List Pfx :=
  [.lock, .repne, .rep, .seg .es, .seg .cs, .seg .ss, .seg .ds, .seg .fs, .seg .gs, .opSize, .addrSize]

/-- The legacy prefix a byte is, if any (R84). -/
def Pfx.ofByte (b : Byte) : Option Pfx :=
  Pfx.all.find? (fun p => p.byte == b)

/-- The group of a prefix (R84: F0/F2/F3; segment; 66; 67). -/
def Pfx.group : Pfx → PfxGroup
  | .lock => .lockRep
  | .repne => .lockRep
  | .rep => .lockRep
  | .seg _ => .segment
  | .opSize => .opSize
  | .addrSize => .addrSize

/-- At most one prefix of each group (R84). -/
def onePerGroup (ps : List Pfx) : Bool :=
  decide ((ps.map Pfx.group).Nodup)

/-- The REX byte `0100WRXB` (R87). -/
def Rex.byte (x : Rex) : Byte :=
  4#4 ++ BitVec.ofBool x.w ++ BitVec.ofBool x.r ++ BitVec.ofBool x.x ++ BitVec.ofBool x.b

/-- The REX fields of a byte 40H to 4FH (R87). -/
def Rex.ofByte (b : Byte) : Option Rex :=
  if b.extractLsb' 4 4 = 4#4 then some ⟨b.getLsbD 3, b.getLsbD 2, b.getLsbD 1, b.getLsbD 0⟩ else none

/-! ## Fields of an instruction that give its length (R117) -/

/-- Bytes before the opcode part: the prefixes and the REX byte (R117). -/
def Head.len (h : Head) : Nat :=
  h.pfx.length + (if h.rex.isSome then 1 else 0)

/-- Bytes of a displacement (20_memory.md R65). -/
def Disp.len : Disp → Nat
  | .none => 0
  | .d8 _ => 1
  | .d32 _ => 4

/-- Bytes after ModRM that a memory operand takes (20_memory.md R65, R67). -/
def Addr.len : Addr → Nat
  | .base _ d => d.len
  | .ripRel _ => 4
  | .sib _ _ _ d => 1 + d.len
  | .sibNoBase _ _ _ => 5

/-- Bytes of ModRM, SIB and displacement (R117). -/
def ModRm.len (o : ModRm) : Nat :=
  match o.rm with
  | .reg _ => 1
  | .mem a => 1 + a.len

/-- Length of a LEG encoding: `0F DF` is the opcode part (R117). -/
def legLen (h : Head) (o : ModRm) : Nat := h.len + 2 + o.len

/-- Length of a VEX encoding: `C5 P DF` or `C4 P0 P1 DF` is the opcode part (R117). -/
def vexLen (h : Head) (v : Vex) (o : ModRm) : Nat :=
  h.len + (match v.form with | .two => 3 | .three _ _ _ => 4) + o.len

/-- Length of an EVEX encoding: `62 P0 P1 P2 DF` is the opcode part (R117). -/
def evexLen (h : Head) (o : ModRm) : Nat := h.len + 5 + o.len

/-- The length `len` of an instruction's encoding (R117). -/
def Instr.len : Instr → Nat
  | .pandnMm h o => legLen h o
  | .pandnXmm h o => legLen h o
  | .vpandn128 h v o => vexLen h v o
  | .vpandn256 h v o => vexLen h v o
  | .vpandnd128 h _ o => evexLen h o
  | .vpandnd256 h _ o => evexLen h o
  | .vpandnd512 h _ o => evexLen h o
  | .vpandnq128 h _ o => evexLen h o
  | .vpandnq256 h _ o => evexLen h o
  | .vpandnq512 h _ o => evexLen h o

/-! ## The decoder -/

/-- What the decoder answers: an instruction and the bytes after it; the exception #UD of R119 for the encoding
`L'L = 11`, which is no row's, with the number of bytes up to and with its opcode byte; or a refusal by name. -/
inductive Decoded where
  | instr (i : Instr) (rest : List Byte)
  | ud (len : Nat)
  | refuse (r : Reject)
deriving DecidableEq, Repr

/-- Read the legacy prefixes at the front (R118 step 1). -/
def takePfx : List Byte → List Pfx × List Byte
  | [] => ([], [])
  | b :: bs =>
    match Pfx.ofByte b with
    | none => ([], b :: bs)
    | some p => (p :: (takePfx bs).1, (takePfx bs).2)

/-- Read one REX byte if it is next (R118 step 2). -/
def takeRex : List Byte → Option Rex × List Byte
  | [] => (none, [])
  | b :: bs =>
    match Rex.ofByte b with
    | none => (none, b :: bs)
    | some x => (some x, bs)

/-- Read four bytes, the least significant first (20_memory.md R54). -/
def take32 : List Byte → Option (BitVec 32 × List Byte)
  | b0 :: b1 :: b2 :: b3 :: bs => some (b3 ++ b2 ++ b1 ++ b0, bs)
  | _ => none

/-- Read the displacement that `mod` 00, 01 or 10 calls for (20_memory.md R65). -/
def takeDisp (md : BitVec 2) (bs : List Byte) : Option (Disp × List Byte) :=
  if md = 0#2 then some (.none, bs)
  else if md = 1#2 then
    match bs with
    | [] => none
    | b :: bs => some (.d8 b, bs)
  else (take32 bs).map fun p => (.d32 p.1, p.2)

/-- Read the SIB byte and the displacement (20_memory.md R67, 30_encoding.md R93). -/
def takeSib (md : BitVec 2) : List Byte → Option (Addr × List Byte)
  | [] => none
  | sb :: bs =>
    if md = 0#2 ∧ sb.extractLsb' 0 3 = 5#3 then
      (take32 bs).map fun p => (.sibNoBase (sb.extractLsb' 6 2) (sb.extractLsb' 3 3) p.1, p.2)
    else
      (takeDisp md bs).map fun p =>
        (.sib (sb.extractLsb' 6 2) (sb.extractLsb' 3 3) (sb.extractLsb' 0 3) p.1, p.2)

/-- Read a memory operand with `mod` 00, 01 or 10 (20_memory.md R65 to R67). -/
def takeAddr (md : BitVec 2) (rm : BitVec 3) (bs : List Byte) : Option (Addr × List Byte) :=
  if rm = 4#3 then takeSib md bs
  else if md = 0#2 ∧ rm = 5#3 then (take32 bs).map fun p => (.ripRel p.1, p.2)
  else (takeDisp md bs).map fun p => (.base rm p.1, p.2)

/-- Read ModRM, SIB and displacement (30_encoding.md R90 to R93). -/
def takeModRm : List Byte → Option (ModRm × List Byte)
  | [] => none
  | m :: bs =>
    if m.extractLsb' 6 2 = 3#2 then some (⟨m.extractLsb' 3 3, .reg (m.extractLsb' 0 3)⟩, bs)
    else (takeAddr (m.extractLsb' 6 2) (m.extractLsb' 0 3) bs).map fun p =>
      (⟨m.extractLsb' 3 3, .mem p.1⟩, p.2)

/-- An instruction of at most 15 bytes (R117). -/
def fit (i : Instr) (rest : List Byte) : Decoded :=
  if i.len ≤ 15 then .instr i rest else .refuse .tooLong

/-- The instruction `row o` made of the operands that follow, if they are all there. -/
def withOperands (row : ModRm → Instr) (bs : List Byte) : Decoded :=
  match takeModRm bs with
  | none => .refuse .incomplete
  | some p => fit (row p.1) p.2

/-- The LEG forms after 0FH (R85, R86, R118 step 3). -/
def decodeLeg (h : Head) : List Byte → Decoded
  | [] => .refuse .incomplete
  | op :: bs =>
    if op ≠ 0xDF#8 then .refuse .otherOpcode
    else if h.pfx.contains .repne || h.pfx.contains .rep then .refuse .repBeforeLeg
    else if h.pfx.contains .opSize then withOperands (.pandnXmm h) bs
    else withOperands (.pandnMm h) bs

/-- The VEX row that L selects (R97). -/
def vexRow (l : Bool) (h : Head) (v : Vex) : ModRm → Instr :=
  if l then .vpandn256 h v else .vpandn128 h v

/-- The 2-byte VEX prefix after C5H (R96, R118 step 4): `R̄v̄v̄v̄v̄Lpp`. -/
def decodeVex2 (h : Head) : List Byte → Decoded
  | p :: op :: bs =>
    if p.extractLsb' 0 2 ≠ 1#2 ∨ op ≠ 0xDF#8 then .refuse .notPandn
    else withOperands (vexRow (p.getLsbD 2) h ⟨!p.getLsbD 7, ~~~(p.extractLsb' 3 4), .two⟩) bs
  | _ => .refuse .incomplete

/-- The 3-byte VEX prefix after C4H (R95, R118 step 4): `R̄X̄B̄mmmmm Wv̄v̄v̄v̄Lpp`. -/
def decodeVex3 (h : Head) : List Byte → Decoded
  | p0 :: p1 :: op :: bs =>
    if p0.extractLsb' 0 5 ≠ 1#5 ∨ p1.extractLsb' 0 2 ≠ 1#2 ∨ op ≠ 0xDF#8 then .refuse .notPandn
    else withOperands (vexRow (p1.getLsbD 2) h
      ⟨!p0.getLsbD 7, ~~~(p1.extractLsb' 3 4), .three (!p0.getLsbD 6) (!p0.getLsbD 5) (p1.getLsbD 7)⟩) bs
  | _ => .refuse .incomplete

/-- The EVEX row that W and L'L (00, 01, 10) select (R107, R108). -/
def evexRow (w : Bool) (ll : BitVec 2) (h : Head) (e : Evex) : ModRm → Instr :=
  if w then
    if ll = 0#2 then .vpandnq128 h e else if ll = 1#2 then .vpandnq256 h e else .vpandnq512 h e
  else
    if ll = 0#2 then .vpandnd128 h e else if ll = 1#2 then .vpandnd256 h e else .vpandnd512 h e

/-- The fields of the payload bytes `R̄X̄B̄R̄'00mm Wv̄v̄v̄v̄1pp zL'LbV̄'aaa` (R104, R105). -/
def evexFields (p0 p1 p2 : Byte) : Evex :=
  ⟨!p0.getLsbD 7, !p0.getLsbD 6, !p0.getLsbD 5, !p0.getLsbD 4,
    ~~~(p2.extractLsb' 3 1 ++ p1.extractLsb' 3 4), p2.getLsbD 7, p2.getLsbD 4, p2.extractLsb' 0 3⟩

/-- The EVEX prefix after 62H (R103 to R108, R118 step 5, R119). -/
def decodeEvex (h : Head) : List Byte → Decoded
  | p0 :: p1 :: p2 :: op :: bs =>
    if p0.extractLsb' 2 2 ≠ 0#2 ∨ p1.getLsbD 2 = false then .refuse .reservedEvex
    else if p0.extractLsb' 0 2 ≠ 1#2 ∨ p1.extractLsb' 0 2 ≠ 1#2 ∨ op ≠ 0xDF#8 then .refuse .notPandn
    else if p2.extractLsb' 5 2 = 3#2 then .ud (h.len + 5)
    else withOperands (evexRow (p1.getLsbD 7) (p2.extractLsb' 5 2) h (evexFields p0 p1 p2)) bs
  | _ => .refuse .incomplete

/-- The opcode part and what follows it (R118 steps 3 to 6). -/
def decodeBody (h : Head) : List Byte → Decoded
  | [] => .refuse .incomplete
  | b :: bs =>
    if b = 0x0F#8 then decodeLeg h bs
    else if b = 0xC5#8 then decodeVex2 h bs
    else if b = 0xC4#8 then decodeVex3 h bs
    else if b = 0x62#8 then decodeEvex h bs
    else if (Pfx.ofByte b).isSome || (Rex.ofByte b).isSome then .refuse .rexNotLast
    else .refuse .otherOpcode

/-- The decoder of R118 over the bytes at `rip` in 64-bit mode: total on any bytes. Where bytes fall under a #UD rule (R101,
R112, R119) and a refusal rule (R84, R87) at once (66 66, F0 F2 or 48 66 before C4H, C5H or 62H; F0 F0 before 0F DF), the
prefix groups and the place of REX are tested first and the bytes are refused: the spec leaves the order open, DESIGN CHOICE,
safe, assumption log 37. -/
def decode (bs : List Byte) : Decoded :=
  if onePerGroup (takePfx bs).1 then
    decodeBody ⟨(takePfx bs).1, (takeRex (takePfx bs).2).1⟩ (takeRex (takePfx bs).2).2
  else .refuse .repeatedPfx

/-! ## The encoder -/

/-- The prefixes and the REX byte (R83). -/
def Head.bytes (h : Head) : List Byte :=
  h.pfx.map Pfx.byte ++ (match h.rex with | none => [] | some x => [x.byte])

/-- Four bytes, the least significant first (20_memory.md R54). -/
def bytes32 (v : BitVec 32) : List Byte :=
  [v.extractLsb' 0 8, v.extractLsb' 8 8, v.extractLsb' 16 8, v.extractLsb' 24 8]

/-- The bytes of a displacement (20_memory.md R65). -/
def Disp.bytes : Disp → List Byte
  | .none => []
  | .d8 v => [v]
  | .d32 v => bytes32 v

/-- The `mod` field that a displacement size takes (20_memory.md R65). -/
def Disp.md : Disp → BitVec 2
  | .none => 0#2
  | .d8 _ => 1#2
  | .d32 _ => 2#2

/-- A ModRM or SIB byte from its 2-bit and two 3-bit fields (R90, R93). -/
def byte233 (a : BitVec 2) (b c : BitVec 3) : Byte := a ++ b ++ c

/-- The `mod` field of a memory operand (20_memory.md R65, R67). -/
def Addr.md : Addr → BitVec 2
  | .base _ d => d.md
  | .ripRel _ => 0#2
  | .sib _ _ _ d => d.md
  | .sibNoBase _ _ _ => 0#2

/-- The `rm` field of a memory operand (20_memory.md R65, R67). -/
def Addr.rm : Addr → BitVec 3
  | .base rm _ => rm
  | .ripRel _ => 5#3
  | .sib _ _ _ _ => 4#3
  | .sibNoBase _ _ _ => 4#3

/-- The bytes of a memory operand after ModRM (20_memory.md R65, R67). -/
def Addr.bytes : Addr → List Byte
  | .base _ d => d.bytes
  | .ripRel d => bytes32 d
  | .sib sc ix bs d => byte233 sc ix bs :: d.bytes
  | .sibNoBase sc ix d => byte233 sc ix 5#3 :: bytes32 d

/-- ModRM, SIB and displacement (R90 to R93). -/
def ModRm.bytes (o : ModRm) : List Byte :=
  match o.rm with
  | .reg rm => [byte233 3#2 o.reg rm]
  | .mem a => byte233 a.md o.reg a.rm :: a.bytes

/-- A LEG encoding (R83). -/
def encodeLeg (h : Head) (o : ModRm) : List Byte :=
  h.bytes ++ [0x0F#8, 0xDF#8] ++ o.bytes

/-- A VEX encoding with vector-length bit `l` (R94 to R97). -/
def encodeVex (l : Bool) (h : Head) (v : Vex) (o : ModRm) : List Byte :=
  h.bytes ++
  (match v.form with
    | .two => [0xC5#8, BitVec.ofBool (!v.r) ++ ~~~v.vvvv ++ BitVec.ofBool l ++ 1#2]
    | .three x b w =>
      [0xC4#8, BitVec.ofBool (!v.r) ++ BitVec.ofBool (!x) ++ BitVec.ofBool (!b) ++ 1#5,
        BitVec.ofBool w ++ ~~~v.vvvv ++ BitVec.ofBool l ++ 1#2]) ++
  [0xDF#8] ++ o.bytes

/-- An EVEX encoding with W and L'L (R103 to R108). -/
def encodeEvex (w : Bool) (ll : BitVec 2) (h : Head) (e : Evex) (o : ModRm) : List Byte :=
  h.bytes ++
  [0x62#8,
    BitVec.ofBool (!e.r) ++ BitVec.ofBool (!e.x) ++ BitVec.ofBool (!e.b) ++ BitVec.ofBool (!e.rHi) ++ 0#2 ++ 1#2,
    BitVec.ofBool w ++ ~~~(e.v.extractLsb' 0 4) ++ 1#1 ++ 1#2,
    BitVec.ofBool e.z ++ ll ++ BitVec.ofBool e.bc ++ ~~~(e.v.extractLsb' 4 1) ++ e.aaa,
    0xDF#8] ++ o.bytes

/-- The bytes of an instruction at increasing addresses (R80). -/
def encode : Instr → List Byte
  | .pandnMm h o => encodeLeg h o
  | .pandnXmm h o => encodeLeg h o
  | .vpandn128 h v o => encodeVex false h v o
  | .vpandn256 h v o => encodeVex true h v o
  | .vpandnd128 h e o => encodeEvex false 0#2 h e o
  | .vpandnd256 h e o => encodeEvex false 1#2 h e o
  | .vpandnd512 h e o => encodeEvex false 2#2 h e o
  | .vpandnq128 h e o => encodeEvex true 0#2 h e o
  | .vpandnq256 h e o => encodeEvex true 1#2 h e o
  | .vpandnq512 h e o => encodeEvex true 2#2 h e o

/-! ## The opcode table's window (R125) -/

/-- The 15 bytes of an instruction whose table window is the number `w` of `nbits` bits: R125 reads a window as one
big-endian number, so the first byte is the most significant of the `nbits / 8`; the bytes after the window are 0
(assumption log 11). -/
def tableBytes (nbits w : Nat) : List Byte :=
  ((List.range (nbits / 8)).map (fun j => BitVec.ofNat 8 (w >>> (8 * (nbits / 8 - 1 - j)))) ++
    List.replicate 15 0#8).take 15

/-- The instruction the decoder reads from a table word (R125). -/
def decodeTableWord (nbits w : Nat) : Option Instr :=
  match decode (tableBytes nbits w) with
  | .instr i _ => some i
  | .ud _ => none
  | .refuse _ => none

end Sys2Proof
end

