-- ==== Sys2Proof/WellFormed.lean ====
section
/-! DEFINITION. Which terms of `Instr` stand for an encoding that the decoder of 30_encoding.md R118 accepts. The
encodings that raise #UD (LOCK, a forbidden prefix before VEX or EVEX, the reserved EVEX combinations of R119) are
encodings all the same: they are well-formed, and their meaning is the exception. -/

namespace Sys2Proof

/-- A base register without displacement is not `rm = 101`, and `rm = 100` calls for a SIB byte (20_memory.md R65);
`base = 101` without displacement is the form without base register (R67). -/
def Addr.wf : Addr → Bool
  | .base rm d => rm != 4#3 && !(rm == 5#3 && d == .none)
  | .ripRel _ => true
  | .sib _ _ bs d => !(bs == 5#3 && d == .none)
  | .sibNoBase _ _ _ => true

/-- A memory operand's fields are those of its form (20_memory.md R65, R67). -/
def ModRm.wf (o : ModRm) : Bool :=
  match o.rm with
  | .reg _ => true
  | .mem a => a.wf

/-- At most one prefix of each group (30_encoding.md R84). -/
def Head.wf (h : Head) : Bool := onePerGroup h.pfx

/-- A LEG form has neither F2H nor F3H (30_encoding.md R86) and has 66H exactly when it is the XMM form (R85). -/
def legWf (xmm : Bool) (h : Head) (o : ModRm) : Bool :=
  h.wf && !h.pfx.contains .repne && !h.pfx.contains .rep && (h.pfx.contains .opSize == xmm) && o.wf

/-- The well-formed instructions: the encoding's fields agree and it is at most 15 bytes long (30_encoding.md R117). -/
def Instr.wf (i : Instr) : Bool :=
  decide (i.len ≤ 15) &&
  match i with
  | .pandnMm h o => legWf false h o
  | .pandnXmm h o => legWf true h o
  | .vpandn128 h _ o => h.wf && o.wf
  | .vpandn256 h _ o => h.wf && o.wf
  | .vpandnd128 h _ o => h.wf && o.wf
  | .vpandnd256 h _ o => h.wf && o.wf
  | .vpandnd512 h _ o => h.wf && o.wf
  | .vpandnq128 h _ o => h.wf && o.wf
  | .vpandnq256 h _ o => h.wf && o.wf
  | .vpandnq512 h _ o => h.wf && o.wf

end Sys2Proof
end

