-- ==== Sys2Proof/Machine/State.lean ====
section
/-! DEFINITION. The state of the logical processor (10_state.md), the reasons a step can stop, and the state after
reset (10_state.md R45). Plain data: no field is a function. -/

namespace Sys2Proof.Machine

open Sys2Proof

/-- The processor's mode (10_state.md R38, 20_memory.md R71), computed from the control state. -/
inductive Mode where
  | real | virtual8086 | protectedMode | compatibility | m64
deriving DecidableEq, Repr

/-- Memory as (address, byte) pairs: addresses strictly rising, no byte 00H listed, every address below 2^64
(20_memory.md R52). What an unlisted address reads as is `unlistedByte`. -/
abbrev Memory := List Host.Cell

/-- What an address that no entry lists reads as: 00H. The spec gives memory no reset contents (20_memory.md R57, R63).
DESIGN CHOICE, unsafe, assumption log 6. -/
def unlistedByte : Byte := 0#8

/-- The canonical form of a memory: strictly rising addresses in the 64-bit space, no entry equal to `unlistedByte`. -/
abbrev Memory.wf (m : Memory) : Prop :=
  m.Pairwise (fun a b => a.1 < b.1) ∧ ∀ c ∈ m, c.1 < 2 ^ 64 ∧ c.2 ≠ unlistedByte

/-- Bytes that the read oracle answers with a page fault (20_memory.md R57, R72), with the cause bits of
60_exceptions.md R202. `userOnly` entries stop reads at CPL 3 only (10_state.md R39). -/
structure Unreadable where
  base : Nat
  size : Nat
  /-- error-code bit 0: a protection violation (1), or the page is not present (0) -/
  present : Bool
  /-- error-code bit 3 -/
  reserved : Bool
  /-- error-code bit 5 -/
  protectionKey : Bool
  userOnly : Bool
deriving DecidableEq, Repr

/-- A device region (20_memory.md R60). -/
structure Region where
  base : Nat
  size : Nat
deriving DecidableEq, Repr

/-- The read oracle's answer to the one read of an execution (20_memory.md R57), under no law: the bytes it answers that are
not those of memory (the first entry for an address counts), the bytes it answers with an exception, and which of an operand's
faulting bytes a page fault reports, an open number that nothing constrains (60_exceptions.md R202, assumption log 22). -/
structure Answer where
  bytes : List Host.Cell
  unreadable : List Unreadable
  faultPick : Nat
deriving DecidableEq, Repr

/-- What lies outside the processor: the oracle's answer to the execution at hand, its answers to the executions after it
(20_memory.md R57, R73; when they are used up the last one stays: assumption log 8), and the device regions (R60). -/
structure Platform where
  now : Answer
  later : List Answer
  device : List Region
deriving DecidableEq, Repr

/-- The x87 state that the MMX registers alias (10_state.md R25, R41; 60_exceptions.md R191). -/
structure X87 where
  /-- bits 79:64 (sign and exponent) of the physical registers R0 to R7 -/
  hi : Vector (BitVec 16) 8
  /-- the tag word -/
  tag : BitVec 16
  /-- the status word: ES is bit 7, TOP bits 13:11 -/
  fsw : BitVec 16
  /-- the last-instruction pointers -/
  fip : Word
  fdp : Word
deriving DecidableEq, Repr

/-- The control state that decides exceptions (10_state.md R35 to R39, R42). -/
structure Control where
  cr0 : BitVec 64
  cr2 : BitVec 64
  cr3 : BitVec 64
  cr4 : BitVec 64
  xcr0 : BitVec 64
  /-- IA32_EFER -/
  efer : BitVec 64
  cpl : BitVec 2
deriving DecidableEq, Repr

/-- A segment register with its cached descriptor (10_state.md R38, R40, R45). -/
structure Segment where
  selector : BitVec 16
  base : Word
  limit : BitVec 32
  rights : BitVec 8
  l : Bool
  d : Bool
deriving DecidableEq, Repr

/-- The six segment registers (10_state.md R40): the bases of FS and GS are the MSRs IA32_FS_BASE and IA32_GS_BASE. -/
structure Segments where
  cs : Segment
  ds : Segment
  es : Segment
  fs : Segment
  gs : Segment
  ss : Segment
deriving DecidableEq, Repr

/-- Everything the spec gives the machine (10_state.md R17, R20 to R42), and the parameters of 00_scope.md R9. -/
structure State where
  /-- ZMM0 to ZMM31 (R20, R21): a 512-bit container each, bits `MAXVL-1:0` exist (R22) -/
  zmm : Vector Zmm 32
  /-- MM0 to MM7 (R24): bits 63:0 of the x87 physical registers (R25) -/
  mm : Vector Mmx 8
  /-- k0 to k7 (R26): the bits of a register as a number, below `2 ^ KW` (00_scope.md R9); `readK` reads it at its width -/
  k : Vector Nat 8
  /-- the general registers by number (R28) -/
  gpr : Vector Word 16
  /-- the linear address of the instruction (R29) -/
  rip : Word
  /-- R32, R34 -/
  rflags : BitVec 64
  /-- R33 -/
  mxcsr : BitVec 32
  x87 : X87
  ctl : Control
  seg : Segments
  mem : Memory
  plat : Platform
  cfg : Config
deriving DecidableEq, Repr

/-- The exceptions of 60_exceptions.md R191. Each is a precise fault and the terminal outcome of the run (R206, R208): the
state is that before the instruction. Every constructor is safe where the condition of its rule holds on the chip, and
unsafe only if the conditions, which the spec supplies from general knowledge (R192, D12), are not the chip's. -/
inductive Fault where
  /-- #UD, vector 6: raised by every form (R193 to R197) and by the encoding `L'L = 11` (30_encoding.md R119). Safe. -/
  | ud
  /-- #NM, vector 7: raised by every form while CR0.TS = 1 (R198). Safe. -/
  | nm
  /-- #SS(0), vector 12: a non-canonical operand address through SS (R200). Safe. -/
  | ss0
  /-- #GP(0), vector 13: a non-canonical operand address (R200), or a misaligned legacy-SSE operand (R201). Safe. -/
  | gp0
  /-- #PF(ec), vector 14, with bits 5:0 of the error code and the address that delivery puts into CR2 (R202). Safe. -/
  | pf (ec : BitVec 6) (cr2 : Word)
  /-- #MF, vector 16: the MMX form with FSW.ES = 1 (R199). Safe. -/
  | mf
  /-- #AC(0), vector 17: the MMX form's misaligned operand under alignment checking (R203). Safe. -/
  | ac0
deriving DecidableEq, Repr

/-- Why the model has no step. A refusal claims nothing about the chip (30_encoding.md R118), so each is safe. -/
inductive Refusal where
  /-- the dispatch: an instruction without a meaning (none here). Safe. -/
  | notModelled (mnemonic : String)
  /-- the step: the bytes at `rip` are none of the ten forms (30_encoding.md R118, R119, D7). Safe. -/
  | bytes (r : Reject)
  /-- the step, and a memory operand: the mode is not 64-bit mode (20_memory.md R71, 00_scope.md R9, D2). Safe. -/
  | modeNot64
  /-- the step: a byte of the instruction, or the address after it, is not canonical or past 2^64 (10_state.md R31, D19, U17).
  Safe. -/
  | placedNonCanonical
  /-- a memory operand in a device region (20_memory.md R60, D8). Safe. -/
  | deviceOperand
deriving DecidableEq, Repr

/-- A segment register after RESET (10_state.md R45): the limit is FFFFH; the access rights 93H are PRESUMED and L = D = 0
DEDUCED (assumption log 4). -/
def resetSegment (selector : BitVec 16) (base : Word) : Segment where
  selector := selector
  base := base
  limit := 0xFFFF#32
  rights := 0x93#8
  l := false
  d := false

/-- The machine right after RESET: the table of 10_state.md R45 (assumption log 1), real-address mode; RDX holds the
signature parameter (log 2), RAX the value of a passed self test (log 3); the x87 pointers are 0 (log 5), memory lists
nothing (log 6), the oracle answers with memory and no exception (log 8), the parameters are the reference ones (log 7). -/
def State.reset : State where
  zmm := Vector.replicate 32 0#512
  mm := Vector.replicate 8 0#64
  k := Vector.replicate 8 0
  gpr := (Vector.replicate 16 0#64).set 2 (Config.reference.signature.setWidth 64)
  rip := 0xFFF0#64
  rflags := 2#64
  mxcsr := 0x1F80#32
  x87 := ⟨Vector.replicate 8 0#16, 0x5555#16, 0#16, 0#64, 0#64⟩
  ctl := ⟨0x60000010#64, 0#64, 0#64, 0#64, 1#64, 0#64, 0#2⟩
  seg := ⟨resetSegment 0xF000#16 0xFFFF0000#64, resetSegment 0#16 0#64, resetSegment 0#16 0#64,
    resetSegment 0#16 0#64, resetSegment 0#16 0#64, resetSegment 0#16 0#64⟩
  mem := []
  plat := ⟨⟨[], [], 0⟩, [], []⟩
  cfg := Config.reference

end Sys2Proof.Machine
end

