-- ==== Sys2Proof/Machine/Flags.lean ====
section
/-! DEFINITION. The status and control bits the ten forms test, and the mode they give (10_state.md R34 to R41). No form
writes a flag (R32) and none computes one (43_family_laws_and_absent_classes.md R171), so there is no flag computation. -/

namespace Sys2Proof.Machine

open Sys2Proof

/-- RFLAGS.AC, bit 18 (10_state.md R34). -/
def State.flagAC (s : State) : Bool := s.rflags.getLsbD 18

/-- RFLAGS.VM, bit 17 (10_state.md R34). -/
def State.flagVM (s : State) : Bool := s.rflags.getLsbD 17

/-- CR0.PE, bit 0 (10_state.md R35). -/
def State.cr0PE (s : State) : Bool := s.ctl.cr0.getLsbD 0

/-- CR0.EM, bit 2 (10_state.md R35). -/
def State.cr0EM (s : State) : Bool := s.ctl.cr0.getLsbD 2

/-- CR0.TS, bit 3 (10_state.md R35). -/
def State.cr0TS (s : State) : Bool := s.ctl.cr0.getLsbD 3

/-- CR0.AM, bit 18 (10_state.md R35). -/
def State.cr0AM (s : State) : Bool := s.ctl.cr0.getLsbD 18

/-- CR4.OSFXSR, bit 9 (10_state.md R36). -/
def State.osfxsr (s : State) : Bool := s.ctl.cr4.getLsbD 9

/-- CR4.OSXSAVE, bit 18 (10_state.md R36). -/
def State.osxsave (s : State) : Bool := s.ctl.cr4.getLsbD 18

/-- `XCR0[2:1] = 11B` (10_state.md R37). -/
def State.xcr0Avx (s : State) : Bool := s.ctl.xcr0.extractLsb' 1 2 == 3#2

/-- `XCR0[7:5] = 111B` (10_state.md R37). -/
def State.xcr0Avx512 (s : State) : Bool := s.ctl.xcr0.extractLsb' 5 3 == 7#3

/-- FSW.ES, bit 7 of the x87 status word (10_state.md R41). -/
def State.fswES (s : State) : Bool := s.x87.fsw.getLsbD 7

/-- IA32_EFER.LMA, bit 10 (10_state.md R38). -/
def State.lma (s : State) : Bool := s.ctl.efer.getLsbD 10

/-- CPL = 3 (10_state.md R39). -/
def State.user (s : State) : Bool := s.ctl.cpl == 3#2

/-- The mode (10_state.md R34, R35, R38): LMA and CS.L select 64-bit mode, LMA alone compatibility mode; without LMA,
PE = 0 is real-address mode and VM = 1 virtual-8086 mode (DEDUCED, assumption log 9). -/
def State.mode (s : State) : Mode :=
  if s.lma then (if s.seg.cs.l then .m64 else .compatibility)
  else if s.cr0PE = false then .real
  else if s.flagVM then .virtual8086
  else .protectedMode

/-- Alignment checking is on (20_memory.md R61, 60_exceptions.md R203). -/
def State.alignCheck (s : State) : Bool := s.cr0AM && s.flagAC && s.user

end Sys2Proof.Machine
end

