-- ==== Sys2Proof/Machine/Ops.lean ====
section
/-! DEFINITION. The named operations over registers and memory, the one function every form computes
(43_family_laws_and_absent_classes.md R170), taking an exception (60_exceptions.md R206, R208), and what outside agents
do to the machine: INIT, the launch and the placing of a program. -/

namespace Sys2Proof.Machine

open Sys2Proof

/-! ## The operation on bits -/

/-- `ANDN(a, b) = (~a) & b` (43_family_laws_and_absent_classes.md R170): the first source is complemented. -/
def andn {w : Nat} (a b : BitVec w) : BitVec w := ~~~a &&& b

/-- Element `j` of a vector with elements of `es` bits (00_scope.md R10, 42_vpandnd_vpandnq_evex.md R156). -/
def elem (es j : Nat) {w : Nat} (v : BitVec w) : BitVec es := v.extractLsb' (es * j) es

/-- The vector of `w` bits whose elements 0 .. `n-1` are `f 0 .. f (n-1)`, the rest 0 (R156). -/
def packElems (es w : Nat) (f : Nat → BitVec es) : Nat → BitVec w
  | 0 => 0#w
  | n + 1 => packElems es w f n ||| (((f n).setWidth w) <<< (es * n))

/-- A vector all of whose elements are `e`: a broadcast operand (43_family_laws_and_absent_classes.md R173, R177). -/
def broadcast (es w : Nat) (e : BitVec es) : BitVec w := packElems es w (fun _ => e) (w / es)

/-- The result of `EVEX_ANDN(es, w)` (R156, R174): a computed element where the mask selects it, else the old element
(merging, `z = false`) or 0 (zeroing). -/
def maskedAndn (es w : Nat) (mask : Nat → Bool) (z : Bool) (old a b : BitVec w) : BitVec w :=
  packElems es w (fun j =>
    if mask j then andn (elem es j a) (elem es j b) else if z then 0#es else elem es j old) (w / es)

/-! ## Registers -/

/-- Read vector register `n` whole (00_scope.md R12, `ZMM[n]`). -/
def State.readZmm (s : State) (n : BitVec 5) : Zmm := s.zmm[n.toNat]

/-- Write vector register `n` whole. -/
def State.writeZmm (s : State) (n : BitVec 5) (v : Zmm) : State := { s with zmm := s.zmm.set n.toNat v }

/-- Bits `w-1:0` of vector register `n` (10_state.md R21: XMM, YMM and ZMM names are slices of one register). -/
def State.vec (s : State) (w : Nat) (n : BitVec 5) : BitVec w := (s.readZmm n).setWidth w

/-- Write bits `w-1:0` of vector register `n` and zero those above (41_vpandn_vex.md R140, 42_vpandnd_vpandnq_evex.md
R156, R158). -/
def State.writeVecZeroing (s : State) {w : Nat} (n : BitVec 5) (v : BitVec w) : State :=
  s.writeZmm n (v.setWidth 512)

/-- Write bits 127:0 of vector register `n` and keep those above (40_pandn_legacy.md R131). -/
def State.writeXmmKeeping (s : State) (n : BitVec 5) (v : BitVec 128) : State :=
  s.writeZmm n ((s.readZmm n).extractLsb' 128 384 ++ v)

/-- Read MMX register `n` (10_state.md R24). -/
def State.readMm (s : State) (n : BitVec 3) : Mmx := s.mm[n.toNat]

/-- Write MMX register `n`: the 64 bits only. -/
def State.writeMm (s : State) (n : BitVec 3) (v : Mmx) : State := { s with mm := s.mm.set n.toNat v }

/-- What an MMX instruction that writes register `n` does to the x87 state (10_state.md R25): every tag valid, TOP = 0,
bits 79:64 of the aliased register all ones (assumption log 12). -/
def State.mmxAlias (s : State) (n : BitVec 3) : State :=
  { s with x87 := { s.x87 with
      hi := s.x87.hi.set n.toNat 0xFFFF#16
      tag := 0#16
      fsw := s.x87.fsw &&& 0xC7FF#16 } }

/-- Read opmask register `n`, `KW` bits wide (10_state.md R26, 00_scope.md R9). -/
def State.readK (s : State) (n : BitVec 3) : BitVec s.cfg.kw := BitVec.ofNat s.cfg.kw s.k[n.toNat]

/-- Read general register `n` (10_state.md R28). -/
def State.readGpr (s : State) (n : BitVec 4) : Word := s.gpr[n.toNat]

/-- `rip <- rip + len` (10_state.md R30). -/
def State.advance (s : State) (len : Nat) : State := { s with rip := s.rip + BitVec.ofNat 64 len }

/-! ## Memory -/

/-- The byte at an address (20_memory.md R57). -/
def Memory.read : Memory → Nat → Byte
  | [], _ => unlistedByte
  | c :: m, a => if c.1 = a then c.2 else Memory.read m a

/-- The entries below `a`, then `b` at `a` unless it is what an unlisted address reads as, then the entries above. -/
def Memory.write : Memory → Nat → Byte → Memory
  | [], a, b => if b = unlistedByte then [] else [(a, b)]
  | c :: m, a, b =>
    if c.1 < a then c :: Memory.write m a b
    else if c.1 = a then (if b = unlistedByte then m else (a, b) :: m)
    else (if b = unlistedByte then c :: m else (a, b) :: c :: m)

/-- The byte of memory at a linear address: what a fetch reads (20_memory.md R76: the program's bytes do not change). -/
def State.byteAt (s : State) (la : Word) : Byte := s.mem.read la.toNat

/-- The byte that the read oracle answers at a linear address: its own, or memory's (20_memory.md R57). -/
def State.dataAt (s : State) (la : Word) : Byte :=
  match s.plat.now.bytes.find? (fun c => c.1 == la.toNat) with
  | none => s.byteAt la
  | some c => c.2

/-- The `n` bytes from `la` up that the oracle answers, as one number, the byte at `la + k` its bits `8k+7:8k` (20_memory.md
R53, R58); addresses wrap modulo 2^64. -/
def State.readLE (s : State) (la : Word) : Nat → Nat
  | 0 => 0
  | n + 1 => (s.dataAt la).toNat + 256 * s.readLE (la + 1) n

/-- The oracle's next answer is the one for the execution after this one (20_memory.md R73). -/
def State.nextAnswer (s : State) : State :=
  { s with plat := { s.plat with now := s.plat.later.headD s.plat.now, later := s.plat.later.tail } }

/-- Store bytes from `la` up, as an agent outside the machine does (no instruction stores:
43_family_laws_and_absent_classes.md R178). -/
def State.placeBytes (s : State) (la : Word) : List Byte → State
  | [] => s
  | b :: bs => State.placeBytes { s with mem := s.mem.write la.toNat b } (la + 1) bs

/-- `rip` and the 14 bytes after it, in increasing address order (20_memory.md R54; an encoding has at most 15 bytes,
30_encoding.md R117). Fetch raises nothing (60_exceptions.md R211, D21; assumption log 19). -/
def State.fetch (s : State) : List Byte :=
  (List.range 15).map fun j => s.byteAt (s.rip + BitVec.ofNat 64 j)

/-- Bits 63 down to `va-1` are all equal (20_memory.md R69). -/
def canonical (va : Nat) (a : Word) : Bool :=
  a.toNat >>> (va - 1) == 0 || a.toNat >>> (va - 1) == 2 ^ (65 - va) - 1

/-- Every byte of an encoding of `len` bytes at `rip`, and the address after its last byte, is canonical, and that address
does not wrap past 2^64 (10_state.md R31, D19, U17). -/
def State.placed (s : State) (len : Nat) : Bool :=
  decide (s.rip.toNat + len < 2 ^ 64) &&
  (List.range (len + 1)).all fun j => canonical s.cfg.vaBits (s.rip + BitVec.ofNat 64 j)

/-! ## Parameters -/

/-- `MAXVL` (00_scope.md R9, D1): 512 with AVX512F, else 256 with AVX, else 128. -/
def maxvl (c : Config) : Nat := if c.avx512f then 512 else if c.avx then 256 else 128

/-- `FEATURES` from the CPUID words that report it (00_scope.md R4): leaf 01H EDX and ECX, leaf 07H subleaf 0 EBX. -/
def featuresFromCpuid (c : Config) (edx1 ecx1 ebx7 : BitVec 32) : Config :=
  { c with
    mmx := edx1.getLsbD 23
    sse2 := edx1.getLsbD 26
    avx := ecx1.getLsbD 28
    avx2 := ebx7.getLsbD 5
    avx512f := ebx7.getLsbD 16
    avx512vl := ebx7.getLsbD 31 }

/-! ## Taking an exception -/

/-- The vector number of an exception (60_exceptions.md R191). -/
def Fault.vector : Fault → Nat
  | .ud => 6
  | .nm => 7
  | .ss0 => 12
  | .gp0 => 13
  | .pf _ _ => 14
  | .mf => 16
  | .ac0 => 17

/-- The error code of an exception, if it has one (60_exceptions.md R191). -/
def Fault.errorCode : Fault → Option (BitVec 6)
  | .ud => none
  | .nm => none
  | .ss0 => some 0#6
  | .gp0 => some 0#6
  | .pf ec _ => some ec
  | .mf => none
  | .ac0 => some 0#6

/-- Raise an exception (00_scope.md R12, 60_exceptions.md R206, R208): the run ends with `fault`, the state is that before
the instruction, nothing is written and `rip` still addresses the instruction. The spec specifies no entry, frame or
handler address and no return from an exception (R208, R209), so there is none here. -/
def raise (f : Fault) : Host.Outcome State Fault Refusal := .fault f

/-- The outcome with its next state, if it is one, put through `f`. -/
def mapNext (f : State → State) : Host.Outcome State Fault Refusal → Host.Outcome State Fault Refusal
  | .next t => .next (f t)
  | .fault x => .fault x
  | .refused r => .refused r

/-- What getting a source operand answers: its value, an exception, or a refusal. -/
inductive Got (α : Type) where
  | value (v : α)
  | fault (f : Fault)
  | refused (r : Refusal)
deriving DecidableEq, Repr

/-- The common course of every form (60_exceptions.md R204, R206): the exceptions that need no operand, then those of the
operand, then the one update `k` of the state. -/
def complete {α : Type} (pre : Option Fault) (src : Got α) (k : α → State) : Host.Outcome State Fault Refusal :=
  match pre with
  | some f => raise f
  | none =>
    match src with
    | .value v => .next (k v)
    | .fault f => raise f
    | .refused r => .refused r

/-! ## From outside the machine -/

/-- The state after INIT (10_state.md R45, second column): the vector, opmask, MMX and x87 state, MXCSR and XCR0 are
unchanged; CR0 is the reset value with CD and NW (bits 30 and 29, PRESUMED, assumption log 25) kept; RAX is 0; memory and
the platform, which R45 does not name, are unchanged (log 25). The segments' access rights 93H (PRESUMED) and L = D = 0
(DEDUCED) are the model's choice, as after RESET: R45 gives selector, base and limit only (log 4). -/
def State.afterInit (s : State) : State :=
  { s with
    gpr := (Vector.replicate 16 0#64).set 2 (s.cfg.signature.setWidth 64)
    rip := State.reset.rip
    rflags := State.reset.rflags
    ctl := { State.reset.ctl with
      cr0 := 0x10#64 ||| (s.ctl.cr0 &&& 0x60000000#64)
      xcr0 := s.ctl.xcr0 }
    seg := State.reset.seg }

/-- The launch state of 70_reset_and_hazards.md R232: what system software has done before a program of this spec runs:
CR0.EM = 0, TS = 0; CR4.OSFXSR = OSXSAVE = 1; XCR0 bits 0, 1, 2, 5, 6, 7; CR0.PE = 1 and RFLAGS.VM = 0; paging on,
IA32_EFER.LME = LMA = 1 and CS.L = 1; FSW.ES = 0 (assumption log 10: that PG is CR0 bit 31 and LME IA32_EFER bit 8 is
PRESUMED). -/
def State.launch (s : State) : State :=
  { s with
    rflags := s.rflags &&& ~~~0x20000#64
    x87 := { s.x87 with fsw := s.x87.fsw &&& 0xFF7F#16 }
    ctl := { s.ctl with
      cr0 := (s.ctl.cr0 &&& ~~~0xC#64) ||| 0x80000001#64
      cr4 := s.ctl.cr4 ||| 0x40200#64
      xcr0 := s.ctl.xcr0 ||| 0xE7#64
      efer := s.ctl.efer ||| 0x500#64 }
    seg := { s.seg with cs := { s.seg.cs with l := true } } }

end Sys2Proof.Machine
end

