-- ==== Sys2Proof/Machine/Exceptions.lean ====
section
/-! DEFINITION. The exceptions that are decided before any address is formed (60_exceptions.md R204 steps 1 to 3) and the
choice among those of an operand (steps 4 to 7). The conditions are general knowledge of the spec's author (R192, D12). -/

namespace Sys2Proof.Machine

open Sys2Proof

/-- Which set of conditions a form follows (60_exceptions.md R192). -/
inductive Cls where
  | mmx | sse | vex | evex
deriving DecidableEq, Repr

/-- #UD from control state (60_exceptions.md R193). -/
def ctlUd (c : Cls) (s : State) : Bool :=
  match c with
  | .mmx => s.cr0EM
  | .sse => s.cr0EM || !s.osfxsr
  | .vex => !s.osxsave || !s.xcr0Avx
  | .evex => !s.osxsave || !s.xcr0Avx || !s.xcr0Avx512

/-- #UD from prefixes (60_exceptions.md R194): LOCK on any form; 66H, F2H, F3H or REX before a VEX or EVEX prefix. -/
def pfxUd (c : Cls) (h : Head) : Bool :=
  h.pfx.contains .lock ||
  match c with
  | .mmx => false
  | .sse => false
  | .vex => h.pfx.contains .opSize || h.pfx.contains .repne || h.pfx.contains .rep || h.rex.isSome
  | .evex => h.pfx.contains .opSize || h.pfx.contains .repne || h.pfx.contains .rep || h.rex.isSome

/-- #UD from the mode (60_exceptions.md R197): VEX and EVEX in real-address and virtual-8086 mode. -/
def modeUd (c : Cls) (s : State) : Bool :=
  match c with
  | .mmx => false
  | .sse => false
  | .vex => s.mode == .real || s.mode == .virtual8086
  | .evex => s.mode == .real || s.mode == .virtual8086

/-- #UD from EVEX field values (60_exceptions.md R196, 42_vpandnd_vpandnq_evex.md R156): `z = 1` with `aaa = 000`, and
`b = 1` with a register operand (90_conflicts.md C7). -/
def reservedEvex (e : Evex) (o : ModRm) : Bool :=
  (e.z && e.aaa == 0#3) || (e.bc && match o.rm with | .reg _ => true | .mem _ => false)

/-- The exceptions of steps 1 to 3 (60_exceptions.md R204). `feat`: every CPUID flag of the form is present (R195); `vl`:
its vector length, which must not exceed MAXVL (10_state.md R22); `res`: its fields are a reserved combination (R196). -/
def preFault (c : Cls) (feat : Bool) (vl : Nat) (res : Bool) (h : Head) (s : State) : Option Fault :=
  if ctlUd c s || pfxUd c h || !feat || decide (maxvl s.cfg < vl) || res || modeUd c s then some .ud
  else if s.cr0TS then some .nm
  else if c == .mmx && s.fswES then some .mf
  else none

/-- The exception reported when those in the list hold, in R204's order (60_exceptions.md R204, 00_scope.md R9). -/
def reported (p : ExcPriority) (fs : List Fault) : Option Fault :=
  match p with
  | .inOrder => fs.head?
  | .anyOf pick => fs[pick % fs.length]?

end Sys2Proof.Machine
end

