-- ==== Sys2Proof/Machine/Operands.lean ====
section
/-! DEFINITION. Every operand form: register numbers (30_encoding.md R88 to R110), the memory operand's address
(20_memory.md R64 to R70) and the one memory read of an execution (R50, R56, R58, R79). -/

namespace Sys2Proof.Machine

open Sys2Proof

/-! ## Prefix fields -/

/-- The segment override the encoding carries (30_encoding.md R84). -/
def segOverride (h : Head) : Option SegOvr :=
  h.pfx.findSome? fun p => match p with | .seg o => some o | _ => none

/-- The address-size prefix 67H is present (20_memory.md R70). -/
def addr32 (h : Head) : Bool := h.pfx.contains .addrSize

/-- REX.R, 0 when there is no REX byte (30_encoding.md R88). -/
def rexR (h : Head) : Bool := match h.rex with | none => false | some x => x.r

/-- REX.X, 0 when there is no REX byte (20_memory.md R67). -/
def rexX (h : Head) : Bool := match h.rex with | none => false | some x => x.x

/-- REX.B, 0 when there is no REX byte (30_encoding.md R88). -/
def rexB (h : Head) : Bool := match h.rex with | none => false | some x => x.b

/-- X of a VEX prefix; the 2-byte form implies 0 (30_encoding.md R96). -/
def vexX (v : Vex) : Bool := match v.form with | .two => false | .three x _ _ => x

/-- B of a VEX prefix; the 2-byte form implies 0 (30_encoding.md R96). -/
def vexB (v : Vex) : Bool := match v.form with | .two => false | .three _ b _ => b

/-! ## Register numbers -/

/-- A 4-bit register number: an extension bit and a 3-bit field (30_encoding.md R88, R100). -/
def num4 (hi : Bool) (n : BitVec 3) : BitVec 4 := BitVec.ofBool hi ++ n

/-- A 5-bit register number: two extension bits and a 3-bit field (30_encoding.md R105). -/
def num5 (hi4 hi3 : Bool) (n : BitVec 3) : BitVec 5 := BitVec.ofBool hi4 ++ BitVec.ofBool hi3 ++ n

/-- Operand 1 of PANDN xmm: `REX.R ++ reg` (30_encoding.md R88). -/
def sseDst (h : Head) (o : ModRm) : BitVec 5 := num5 false (rexR h) o.reg

/-- Operand 1 of a VEX form: `R ++ reg` (30_encoding.md R100). -/
def vexDst (v : Vex) (o : ModRm) : BitVec 5 := num5 false v.r o.reg

/-- Operand 2 of a VEX form: `vvvv` (30_encoding.md R100). -/
def vexSrc1 (v : Vex) : BitVec 5 := v.vvvv.setWidth 5

/-- Operand 1 of an EVEX form: `R' ++ R ++ reg` (30_encoding.md R105). -/
def evexDst (e : Evex) (o : ModRm) : BitVec 5 := num5 e.rHi e.r o.reg

/-! ## The memory operand's address -/

/-- A 1-byte displacement is sign-extended and multiplied by `n8`, a 4-byte one sign-extended only (20_memory.md R68). -/
def dispValue (n8 : Nat) : Disp → Word
  | .none => 0#64
  | .d8 v => v.signExtend 64 * BitVec.ofNat 64 n8
  | .d32 v => v.signExtend 64

/-- The index term: none when the index number is 4, else the register times 1, 2, 4 or 8 (20_memory.md R67). -/
def indexTerm (s : State) (x : Bool) (scale : BitVec 2) (index : BitVec 3) : Word :=
  if num4 x index = 4#4 then 0#64 else s.readGpr (num4 x index) <<< scale.toNat

/-- The sum of base, index and displacement modulo 2^64 (20_memory.md R65 to R67). `x`, `b`: the encoding's X and B;
`next`: the address after the encoding. -/
def addrSum (s : State) (x b : Bool) (n8 : Nat) (next : Word) : Addr → Word
  | .base rm d => s.readGpr (num4 b rm) + dispValue n8 d
  | .ripRel d => next + d.signExtend 64
  | .sib sc ix bs d => s.readGpr (num4 b bs) + indexTerm s x sc ix + dispValue n8 d
  | .sibNoBase sc ix d => indexTerm s x sc ix + d.signExtend 64

/-- The effective address: under 67H the registers' low 32 bits, the sum modulo 2^32, zero-extended; taking the low 32 bits
of the 64-bit sum is the same (20_memory.md R70; DEDUCED, assumption log 24). -/
def effAddr (s : State) (h : Head) (x b : Bool) (n8 : Nat) (next : Word) (a : Addr) : Word :=
  if addr32 h then ((addrSum s x b n8 next a).setWidth 32).setWidth 64 else addrSum s x b n8 next a

/-- The default segment is SS: base RBP without SIB, base RSP or RBP with SIB (20_memory.md R65, R67). -/
def defaultSS (b : Bool) : Addr → Bool
  | .base rm _ => num4 b rm == 5#4
  | .ripRel _ => false
  | .sib _ _ bs _ => num4 b bs == 4#4 || num4 b bs == 5#4
  | .sibNoBase _ _ _ => false

/-- The segment base added in 64-bit mode: FS or GS under its override, else 0 (20_memory.md R69). -/
def segBase (s : State) (h : Head) : Word :=
  match segOverride h with
  | some .fs => s.seg.fs.base
  | some .gs => s.seg.gs.base
  | some .es => 0#64
  | some .cs => 0#64
  | some .ss => 0#64
  | some .ds => 0#64
  | none => 0#64

/-- The segment used is SS: the default segment is SS and there is no FS or GS override (20_memory.md R69). -/
def usesSS (h : Head) (b : Bool) (a : Addr) : Bool :=
  defaultSS b a &&
  match segOverride h with
  | some .fs => false
  | some .gs => false
  | some .es => true
  | some .cs => true
  | some .ss => true
  | some .ds => true
  | none => true

/-- The linear address `segbase + EA` modulo 2^64 (20_memory.md R69). -/
def linAddr (s : State) (h : Head) (x b : Bool) (n8 : Nat) (next : Word) (a : Addr) : Word :=
  segBase s h + effAddr s h x b n8 next a

/-! ## The memory read -/

/-- One memory read: where, how many bytes, through SS or not, under which alignment rules (20_memory.md R61), and which of
its bytes must be readable (R79). -/
structure Access where
  la : Word
  bytes : Nat
  ss : Bool
  /-- the legacy-SSE form's 16-byte rule (60_exceptions.md R201) -/
  align16 : Bool
  /-- the MMX form's alignment check (60_exceptions.md R203) -/
  checkAC : Bool
  need : Nat → Bool

/-- The offsets of the bytes that must be readable. -/
def Access.needed (q : Access) : List Nat := (List.range q.bytes).filter q.need

/-- The address of byte `j` of the operand. -/
def Access.byteAddr (q : Access) (j : Nat) : Word := q.la + BitVec.ofNat 64 j

/-- A cause of a page fault applies to a read at address `a` (20_memory.md R72, 10_state.md R39). -/
def Unreadable.covers (u : Unreadable) (user : Bool) (a : Nat) : Bool :=
  decide (u.base ≤ a) && decide (a < u.base + u.size) && (!u.userOnly || user)

/-- Error-code bits 5:0 of a page fault on an operand read (60_exceptions.md R202): P, W/R = 0, U/S, RSVD, I/D = 0, PK. -/
def Unreadable.code (u : Unreadable) (user : Bool) : BitVec 6 :=
  BitVec.ofBool u.protectionKey ++ 0#1 ++ BitVec.ofBool u.reserved ++ BitVec.ofBool user ++ 0#1 ++
    BitVec.ofBool u.present

/-- The read oracle's exception for the byte at an address, if it answers one (20_memory.md R57, R72). -/
def State.pageFaultAt (s : State) (a : Word) : Option Fault :=
  match s.plat.now.unreadable.find? (fun u => u.covers s.user a.toNat) with
  | none => none
  | some u => some (.pf (u.code s.user) a)

/-- #SS(0) or #GP(0) for a non-canonical byte (60_exceptions.md R200, 20_memory.md R69). -/
def addrFault (s : State) (q : Access) : Option Fault :=
  if q.needed.all fun j => canonical s.cfg.vaBits (q.byteAddr j) then none
  else some (if q.ss then .ss0 else .gp0)

/-- #GP(0) for a misaligned legacy-SSE operand (60_exceptions.md R201). -/
def alignFault (q : Access) : Option Fault :=
  if q.align16 && q.la.toNat % 16 != 0 then some .gp0 else none

/-- The page faults of the bytes that the oracle does not let be read, the lowest byte first (60_exceptions.md R202). -/
def pageFaults (s : State) (q : Access) : List Fault :=
  q.needed.filterMap fun j => s.pageFaultAt (q.byteAddr j)

/-- #PF(ec) of a byte that the oracle does not let be read (60_exceptions.md R202); of which, when several are, the oracle's
free number says (assumption log 22). -/
def pageFault (s : State) (q : Access) : Option Fault :=
  (pageFaults s q)[s.plat.now.faultPick % (pageFaults s q).length]?

/-- #AC(0) for a misaligned MMX operand under alignment checking (60_exceptions.md R203). -/
def acFault (s : State) (q : Access) : Option Fault :=
  if q.checkAC && s.alignCheck && q.la.toNat % 8 != 0 then some .ac0 else none

/-- The exceptions of the operand that hold, in the order of steps 4 to 7 (60_exceptions.md R204). -/
def operandFaults (s : State) (q : Access) : List Fault :=
  (addrFault s q).toList ++ (alignFault q).toList ++ (pageFault s q).toList ++ (acFault s q).toList

/-- A byte of the operand lies in a device region (20_memory.md R60), whatever the mask: fault suppression lifts readability
and faults only (R79). -/
def touchesDevice (s : State) (q : Access) : Bool :=
  (List.range q.bytes).any fun j => s.plat.device.any fun r =>
    decide (r.base ≤ (q.byteAddr j).toNat) && decide ((q.byteAddr j).toNat < r.base + r.size)

/-- `MemRead` (20_memory.md R58): the checks of R204, then the `w` bits at the address. Outside 64-bit mode the address
rules are not specified and the model refuses (R71); an operand in a device region is refused (R60), after every
exception (assumption log 21). -/
def memRead (s : State) (q : Access) (w : Nat) : Got (BitVec w) :=
  if s.mode ≠ .m64 then .refused .modeNot64
  else match reported s.cfg.excPriority (operandFaults s q) with
    | some f => .fault f
    | none =>
      if touchesDevice s q then .refused .deviceOperand
      else .value (BitVec.ofNat w (s.readLE q.la (w / 8)))

/-! ## The last operand of each format -/

/-- The read of PANDN mm's memory operand: 8 bytes, alignment-checked (40_pandn_legacy.md R130). -/
def mmxAccess (h : Head) (o : ModRm) (a : Addr) (s : State) : Access :=
  ⟨linAddr s h (rexX h) (rexB h) 1 (s.rip + BitVec.ofNat 64 (legLen h o)) a, 8, usesSS h (rexB h) a,
    false, true, fun _ => true⟩

/-- The read of PANDN xmm's memory operand: 16 bytes, aligned (40_pandn_legacy.md R131). -/
def sseAccess (h : Head) (o : ModRm) (a : Addr) (s : State) : Access :=
  ⟨linAddr s h (rexX h) (rexB h) 1 (s.rip + BitVec.ofNat 64 (legLen h o)) a, 16, usesSS h (rexB h) a,
    true, false, fun _ => true⟩

/-- The read of a VEX form's memory operand: `w / 8` bytes at any address (41_vpandn_vex.md R140, R141). -/
def vexAccess (w : Nat) (h : Head) (v : Vex) (o : ModRm) (a : Addr) (s : State) : Access :=
  ⟨linAddr s h (vexX v) (vexB v) 1 (s.rip + BitVec.ofNat 64 (vexLen h v o)) a, w / 8, usesSS h (vexB v) a,
    false, false, fun _ => true⟩

/-- Mask bit `j` of an EVEX form: all ones when `aaa = 000` (30_encoding.md R110), else bit `j` of k`aaa`. -/
def maskBit (s : State) (e : Evex) (j : Nat) : Bool :=
  e.aaa == 0#3 || (s.readK e.aaa).getLsbD j

/-- The bytes of a full operand that must be readable (20_memory.md R79): all of them, or with fault suppression those of
the elements whose mask bit is 1. -/
def needFull (s : State) (e : Evex) (es : Nat) (j : Nat) : Bool :=
  !s.cfg.faultSuppression || maskBit s e (8 * j / es)

/-- A broadcast element must be readable (20_memory.md R79): always, or with fault suppression when a mask bit is 1. -/
def needBcast (s : State) (e : Evex) (es w : Nat) : Bool :=
  !s.cfg.faultSuppression || (List.range (w / es)).any (maskBit s e)

/-- The read of an EVEX form's memory operand (42_vpandnd_vpandnq_evex.md R156): one element of `es` bits when EVEX.b = 1
(30_encoding.md R106), else `w / 8` bytes, at any address. A 1-byte displacement is scaled by the number of bytes read
(20_memory.md R68). -/
def evexAccess (es w : Nat) (h : Head) (e : Evex) (o : ModRm) (a : Addr) (s : State) : Access :=
  if e.bc then
    ⟨linAddr s h e.x e.b (es / 8) (s.rip + BitVec.ofNat 64 (evexLen h o)) a, es / 8, usesSS h e.b a,
      false, false, fun _ => needBcast s e es w⟩
  else
    ⟨linAddr s h e.x e.b (w / 8) (s.rip + BitVec.ofNat 64 (evexLen h o)) a, w / 8, usesSS h e.b a,
      false, false, needFull s e es⟩

/-- Operand 2 of PANDN mm: MMX register `rm` (REX.B does not extend it, 30_encoding.md R89), or 8 bytes of memory. -/
def mmxSrc (h : Head) (o : ModRm) (s : State) : Got (BitVec 64) :=
  match o.rm with
  | .reg rm => .value (s.readMm rm)
  | .mem a => memRead s (mmxAccess h o a s) 64

/-- Operand 2 of PANDN xmm: vector register `REX.B ++ rm` (30_encoding.md R88), or 16 bytes of memory. -/
def sseSrc (h : Head) (o : ModRm) (s : State) : Got (BitVec 128) :=
  match o.rm with
  | .reg rm => .value (s.vec 128 (num5 false (rexB h) rm))
  | .mem a => memRead s (sseAccess h o a s) 128

/-- Operand 3 of a VEX form of `w` bits: vector register `B ++ rm` (30_encoding.md R100), or `w / 8` bytes of memory. -/
def vexSrc2 (w : Nat) (h : Head) (v : Vex) (o : ModRm) (s : State) : Got (BitVec w) :=
  match o.rm with
  | .reg rm => .value (s.vec w (num5 false (vexB v) rm))
  | .mem a => memRead s (vexAccess w h v o a s) w

/-- The value got, put through `f`; an exception or a refusal stays. -/
def Got.map {α β : Type} (f : α → β) : Got α → Got β
  | .value v => .value (f v)
  | .fault x => .fault x
  | .refused r => .refused r

/-- Operand 3 of an EVEX form with elements of `es` bits and `w` bits in all (42_vpandnd_vpandnq_evex.md R156): vector
register `X ++ B ++ rm` (30_encoding.md R105), one memory element broadcast to every element, or a full memory operand. -/
def evexSrc2 (es w : Nat) (h : Head) (e : Evex) (o : ModRm) (s : State) : Got (BitVec w) :=
  match o.rm with
  | .reg rm => .value (s.vec w (num5 e.x e.b rm))
  | .mem a =>
    if e.bc then (memRead s (evexAccess es w h e o a s) es).map (broadcast es w)
    else memRead s (evexAccess es w h e o a s) w

end Sys2Proof.Machine
end

