-- ==== Sys2Proof/Machine/Evex.lean ====
section
/-! DEFINITION. The EVEX forms VPANDND and VPANDNQ (42_vpandnd_vpandnq_evex.md R150 to R156). -/

namespace Sys2Proof.Machine

open Sys2Proof

/-- `EVEX_ANDN(es, w)` (42_vpandnd_vpandnq_evex.md R156). -/
def evexAndn (es w : Nat) (feat : Bool) (h : Head) (e : Evex) (o : ModRm) (s : State) :
    Host.Outcome State Fault Refusal :=
  complete (preFault .evex feat w (reservedEvex e o) h s) (evexSrc2 es w h e o s) fun src2 =>
    (s.writeVecZeroing (evexDst e o)
      (maskedAndn es w (maskBit s e) e.z (s.vec w (evexDst e o)) (s.vec w e.v) src2)).advance (evexLen h o)

/-- VPANDND xmm1 with writemask and broadcast (42_vpandnd_vpandnq_evex.md R150). -/
def execVpandnd128 (h : Head) (e : Evex) (o : ModRm) (s : State) : Host.Outcome State Fault Refusal :=
  evexAndn 32 128 (s.cfg.avx512vl && s.cfg.avx512f) h e o s

/-- VPANDND ymm1 with writemask and broadcast (42_vpandnd_vpandnq_evex.md R151). -/
def execVpandnd256 (h : Head) (e : Evex) (o : ModRm) (s : State) : Host.Outcome State Fault Refusal :=
  evexAndn 32 256 (s.cfg.avx512vl && s.cfg.avx512f) h e o s

/-- VPANDND zmm1 with writemask and broadcast (42_vpandnd_vpandnq_evex.md R152). -/
def execVpandnd512 (h : Head) (e : Evex) (o : ModRm) (s : State) : Host.Outcome State Fault Refusal :=
  evexAndn 32 512 s.cfg.avx512f h e o s

/-- VPANDNQ xmm1 with writemask and broadcast (42_vpandnd_vpandnq_evex.md R153). -/
def execVpandnq128 (h : Head) (e : Evex) (o : ModRm) (s : State) : Host.Outcome State Fault Refusal :=
  evexAndn 64 128 (s.cfg.avx512vl && s.cfg.avx512f) h e o s

/-- VPANDNQ ymm1 with writemask and broadcast (42_vpandnd_vpandnq_evex.md R154). -/
def execVpandnq256 (h : Head) (e : Evex) (o : ModRm) (s : State) : Host.Outcome State Fault Refusal :=
  evexAndn 64 256 (s.cfg.avx512vl && s.cfg.avx512f) h e o s

/-- VPANDNQ zmm1 with writemask and broadcast (42_vpandnd_vpandnq_evex.md R155). -/
def execVpandnq512 (h : Head) (e : Evex) (o : ModRm) (s : State) : Host.Outcome State Fault Refusal :=
  evexAndn 64 512 s.cfg.avx512f h e o s

end Sys2Proof.Machine
end

