-- ==== Sys2Proof/Machine/Legacy.lean ====
section
/-! DEFINITION. The legacy forms PANDN mm and PANDN xmm (40_pandn_legacy.md R130, R131). -/

namespace Sys2Proof.Machine

open Sys2Proof

/-- PANDN mm, mm/m64 (40_pandn_legacy.md R130), with the x87 side effects of 10_state.md R25. -/
def execPandnMm (h : Head) (o : ModRm) (s : State) : Host.Outcome State Fault Refusal :=
  complete (preFault .mmx s.cfg.mmx 64 false h s) (mmxSrc h o s) fun src =>
    ((s.writeMm o.reg (andn (s.readMm o.reg) src)).mmxAlias o.reg).advance (legLen h o)

/-- PANDN xmm1, xmm2/m128 (40_pandn_legacy.md R131): the bits above 127 are kept. -/
def execPandnXmm (h : Head) (o : ModRm) (s : State) : Host.Outcome State Fault Refusal :=
  complete (preFault .sse s.cfg.sse2 128 false h s) (sseSrc h o s) fun src =>
    (s.writeXmmKeeping (sseDst h o) (andn (s.vec 128 (sseDst h o)) src)).advance (legLen h o)

end Sys2Proof.Machine
end

