-- ==== Sys2Proof/Machine/Vex.lean ====
section
/-! DEFINITION. The VEX forms VPANDN xmm and VPANDN ymm (41_vpandn_vex.md R140, R141). -/

namespace Sys2Proof.Machine

open Sys2Proof

/-- The operation both VEX forms share: `w` bits computed, the bits above zeroed (41_vpandn_vex.md R140). -/
def vexAndn (w : Nat) (feat : Bool) (h : Head) (v : Vex) (o : ModRm) (s : State) : Host.Outcome State Fault Refusal :=
  complete (preFault .vex feat w false h s) (vexSrc2 w h v o s) fun src2 =>
    (s.writeVecZeroing (vexDst v o) (andn (s.vec w (vexSrc1 v)) src2)).advance (vexLen h v o)

/-- VPANDN xmm1, xmm2, xmm3/m128 (41_vpandn_vex.md R140). -/
def execVpandn128 (h : Head) (v : Vex) (o : ModRm) (s : State) : Host.Outcome State Fault Refusal :=
  vexAndn 128 s.cfg.avx h v o s

/-- VPANDN ymm1, ymm2, ymm3/m256 (41_vpandn_vex.md R141). -/
def execVpandn256 (h : Head) (v : Vex) (o : ModRm) (s : State) : Host.Outcome State Fault Refusal :=
  vexAndn 256 s.cfg.avx2 h v o s

end Sys2Proof.Machine
end

