-- ==== Sys2Proof/Machine/Dispatch.lean ====
section
/-! DEFINITION. The meaning of an instruction: one direct call for each constructor of `Instr`. -/

namespace Sys2Proof.Machine

open Sys2Proof

def exec (i : Instr) (s : State) : Host.Outcome State Fault Refusal :=
  match i with
  | .pandnMm h o => Sys2Proof.Machine.execPandnMm h o s
  | .pandnXmm h o => Sys2Proof.Machine.execPandnXmm h o s
  | .vpandn128 h v o => Sys2Proof.Machine.execVpandn128 h v o s
  | .vpandn256 h v o => Sys2Proof.Machine.execVpandn256 h v o s
  | .vpandnd128 h e o => Sys2Proof.Machine.execVpandnd128 h e o s
  | .vpandnd256 h e o => Sys2Proof.Machine.execVpandnd256 h e o s
  | .vpandnd512 h e o => Sys2Proof.Machine.execVpandnd512 h e o s
  | .vpandnq128 h e o => Sys2Proof.Machine.execVpandnq128 h e o s
  | .vpandnq256 h e o => Sys2Proof.Machine.execVpandnq256 h e o s
  | .vpandnq512 h e o => Sys2Proof.Machine.execVpandnq512 h e o s

end Sys2Proof.Machine
end

