-- ==== Sys2Proof/Machine/Step.lean ====
section
/-! DEFINITION. One step: fetch at `rip`, decode, run (00_scope.md R16). -/

namespace Sys2Proof.Machine

open Sys2Proof

/-- What a step does with a decoded byte string: an instruction runs if it is placed canonically (10_state.md R31), after
which the oracle's next answer is due (20_memory.md R57, R73), the
reserved `L'L = 11` raises #UD (30_encoding.md R119), other bytes are refused (R118). -/
def runDecoded (d : Decoded) (s : State) : Host.Outcome State Fault Refusal :=
  match d with
  | .instr i _ => if s.placed i.len then mapNext State.nextAnswer (exec i s) else .refused .placedNonCanonical
  | .ud n => if s.placed n then raise .ud else .refused .placedNonCanonical
  | .refuse r => .refused (.bytes r)

/-- One step of the logical processor (00_scope.md R16), specified in 64-bit mode only (20_memory.md R71, D2). -/
def step (s : State) : Host.Outcome State Fault Refusal :=
  if s.mode = .m64 then runDecoded (decode s.fetch) s else .refused .modeNot64

/-- The launch state (70_reset_and_hazards.md R232) with the table word's instruction at `rip` (assumption log 10). -/
def State.withFetchWord (s : State) (nbits w : Nat) : State :=
  s.launch.placeBytes s.rip (tableBytes nbits w)

end Sys2Proof.Machine
end

