-- ==== Sys2Proof/Machine/Intrinsics.lean ====
section
/-! DEFINITION. The C/C++ intrinsics that the source lists as equivalents (43_family_laws_and_absent_classes.md R180), as
functions of their arguments: `a` (`m1`) is the complemented source, `b` (`m2`) the other, `s` supplies the elements whose
mask bit is 0 in the `_mask_` variants, which are 0 in the `_maskz_` ones. A C identifier's leading underscores are
dropped. -/

namespace Sys2Proof.Machine.Intrinsics

open Sys2Proof.Machine

/-- `_mm_andnot_si64` (PANDN mm). -/
def mm_andnot_si64 (m1 m2 : BitVec 64) : BitVec 64 := andn m1 m2

/-- `_mm_andnot_si128` (PANDN xmm, VPANDN xmm). -/
def mm_andnot_si128 (a b : BitVec 128) : BitVec 128 := andn a b

/-- `_mm256_andnot_si256` (VPANDN ymm). -/
def mm256_andnot_si256 (a b : BitVec 256) : BitVec 256 := andn a b

/-- `_mm512_andnot_epi32` (VPANDND zmm). -/
def mm512_andnot_epi32 (a b : BitVec 512) : BitVec 512 := andn a b

/-- `_mm512_mask_andnot_epi32` (VPANDND zmm, merging). -/
def mm512_mask_andnot_epi32 (s : BitVec 512) (k : BitVec 16) (a b : BitVec 512) : BitVec 512 :=
  maskedAndn 32 512 k.getLsbD false s a b

/-- `_mm512_maskz_andnot_epi32` (VPANDND zmm, zeroing). -/
def mm512_maskz_andnot_epi32 (k : BitVec 16) (a b : BitVec 512) : BitVec 512 :=
  maskedAndn 32 512 k.getLsbD true 0#512 a b

/-- `_mm256_mask_andnot_epi32` (VPANDND ymm, merging). -/
def mm256_mask_andnot_epi32 (s : BitVec 256) (k : BitVec 8) (a b : BitVec 256) : BitVec 256 :=
  maskedAndn 32 256 k.getLsbD false s a b

/-- `_mm256_maskz_andnot_epi32` (VPANDND ymm, zeroing). -/
def mm256_maskz_andnot_epi32 (k : BitVec 8) (a b : BitVec 256) : BitVec 256 :=
  maskedAndn 32 256 k.getLsbD true 0#256 a b

/-- `_mm_mask_andnot_epi32` (VPANDND xmm, merging). -/
def mm_mask_andnot_epi32 (s : BitVec 128) (k : BitVec 8) (a b : BitVec 128) : BitVec 128 :=
  maskedAndn 32 128 k.getLsbD false s a b

/-- `_mm_maskz_andnot_epi32` (VPANDND xmm, zeroing). -/
def mm_maskz_andnot_epi32 (k : BitVec 8) (a b : BitVec 128) : BitVec 128 :=
  maskedAndn 32 128 k.getLsbD true 0#128 a b

/-- `_mm512_andnot_epi64` (VPANDNQ zmm). -/
def mm512_andnot_epi64 (a b : BitVec 512) : BitVec 512 := andn a b

/-- `_mm512_mask_andnot_epi64` (VPANDNQ zmm, merging). -/
def mm512_mask_andnot_epi64 (s : BitVec 512) (k : BitVec 8) (a b : BitVec 512) : BitVec 512 :=
  maskedAndn 64 512 k.getLsbD false s a b

/-- `_mm512_maskz_andnot_epi64` (VPANDNQ zmm, zeroing). -/
def mm512_maskz_andnot_epi64 (k : BitVec 8) (a b : BitVec 512) : BitVec 512 :=
  maskedAndn 64 512 k.getLsbD true 0#512 a b

/-- `_mm256_mask_andnot_epi64` (VPANDNQ ymm, merging). -/
def mm256_mask_andnot_epi64 (s : BitVec 256) (k : BitVec 8) (a b : BitVec 256) : BitVec 256 :=
  maskedAndn 64 256 k.getLsbD false s a b

/-- `_mm256_maskz_andnot_epi64` (VPANDNQ ymm, zeroing). -/
def mm256_maskz_andnot_epi64 (k : BitVec 8) (a b : BitVec 256) : BitVec 256 :=
  maskedAndn 64 256 k.getLsbD true 0#256 a b

/-- `_mm_mask_andnot_epi64` (VPANDNQ xmm, merging). -/
def mm_mask_andnot_epi64 (s : BitVec 128) (k : BitVec 8) (a b : BitVec 128) : BitVec 128 :=
  maskedAndn 64 128 k.getLsbD false s a b

/-- `_mm_maskz_andnot_epi64` (VPANDNQ xmm, zeroing). -/
def mm_maskz_andnot_epi64 (k : BitVec 8) (a b : BitVec 128) : BitVec 128 :=
  maskedAndn 64 128 k.getLsbD true 0#128 a b

end Sys2Proof.Machine.Intrinsics
end

