-- ==== Sys2Proof/Safety.lean ====
section
/-! DEFINITION. The words the claims use: what an instruction's fields name, the premise under which it raises nothing
(60_exceptions.md R212), the bits of its second source, the run of a program (00_scope.md R19), and the source's loop
read literally (42_vpandnd_vpandnq_evex.md R157). -/

namespace Sys2Proof.Safety

open Sys2Proof
open Sys2Proof.Machine

/-! ## What an instruction names -/

/-- The prefixes and REX byte of an instruction. -/
def head : Instr → Head
  | .pandnMm h _ => h
  | .pandnXmm h _ => h
  | .vpandn128 h _ _ => h
  | .vpandn256 h _ _ => h
  | .vpandnd128 h _ _ => h
  | .vpandnd256 h _ _ => h
  | .vpandnd512 h _ _ => h
  | .vpandnq128 h _ _ => h
  | .vpandnq256 h _ _ => h
  | .vpandnq512 h _ _ => h

/-- The ModRM operands of an instruction. -/
def operands : Instr → ModRm
  | .pandnMm _ o => o
  | .pandnXmm _ o => o
  | .vpandn128 _ _ o => o
  | .vpandn256 _ _ o => o
  | .vpandnd128 _ _ o => o
  | .vpandnd256 _ _ o => o
  | .vpandnd512 _ _ o => o
  | .vpandnq128 _ _ o => o
  | .vpandnq256 _ _ o => o
  | .vpandnq512 _ _ o => o

/-- The set of exception conditions of an instruction (60_exceptions.md R192). -/
def cls : Instr → Cls
  | .pandnMm _ _ => .mmx
  | .pandnXmm _ _ => .sse
  | .vpandn128 _ _ _ => .vex
  | .vpandn256 _ _ _ => .vex
  | .vpandnd128 _ _ _ => .evex
  | .vpandnd256 _ _ _ => .evex
  | .vpandnd512 _ _ _ => .evex
  | .vpandnq128 _ _ _ => .evex
  | .vpandnq256 _ _ _ => .evex
  | .vpandnq512 _ _ _ => .evex

/-- The EVEX fields of the six EVEX forms. -/
def evex? : Instr → Option Evex
  | .pandnMm _ _ => none
  | .pandnXmm _ _ => none
  | .vpandn128 _ _ _ => none
  | .vpandn256 _ _ _ => none
  | .vpandnd128 _ e _ => some e
  | .vpandnd256 _ e _ => some e
  | .vpandnd512 _ e _ => some e
  | .vpandnq128 _ e _ => some e
  | .vpandnq256 _ e _ => some e
  | .vpandnq512 _ e _ => some e

/-- The width in bits of the operation: 64 for the MMX form, else the vector length (opcode_table.json, `width`). -/
def width : Instr → Nat
  | .pandnMm _ _ => 64
  | .pandnXmm _ _ => 128
  | .vpandn128 _ _ _ => 128
  | .vpandn256 _ _ _ => 256
  | .vpandnd128 _ _ _ => 128
  | .vpandnd256 _ _ _ => 256
  | .vpandnd512 _ _ _ => 512
  | .vpandnq128 _ _ _ => 128
  | .vpandnq256 _ _ _ => 256
  | .vpandnq512 _ _ _ => 512

/-- The element size of the EVEX forms (opcode_table.json, `element`); the whole width for the others. -/
def elemSize : Instr → Nat
  | .pandnMm _ _ => 64
  | .pandnXmm _ _ => 128
  | .vpandn128 _ _ _ => 128
  | .vpandn256 _ _ _ => 256
  | .vpandnd128 _ _ _ => 32
  | .vpandnd256 _ _ _ => 32
  | .vpandnd512 _ _ _ => 32
  | .vpandnq128 _ _ _ => 64
  | .vpandnq256 _ _ _ => 64
  | .vpandnq512 _ _ _ => 64

/-- Every CPUID flag of the form is in FEATURES (00_scope.md R2). -/
def featuresPresent (c : Config) : Instr → Bool
  | .pandnMm _ _ => c.mmx
  | .pandnXmm _ _ => c.sse2
  | .vpandn128 _ _ _ => c.avx
  | .vpandn256 _ _ _ => c.avx2
  | .vpandnd128 _ _ _ => c.avx512vl && c.avx512f
  | .vpandnd256 _ _ _ => c.avx512vl && c.avx512f
  | .vpandnd512 _ _ _ => c.avx512f
  | .vpandnq128 _ _ _ => c.avx512vl && c.avx512f
  | .vpandnq256 _ _ _ => c.avx512vl && c.avx512f
  | .vpandnq512 _ _ _ => c.avx512f

/-- The vector register a vector form writes (30_encoding.md R88, R100, R105); for the MMX form the number is not used. -/
def dst : Instr → BitVec 5
  | .pandnMm _ o => o.reg.setWidth 5
  | .pandnXmm h o => sseDst h o
  | .vpandn128 _ v o => vexDst v o
  | .vpandn256 _ v o => vexDst v o
  | .vpandnd128 _ e o => evexDst e o
  | .vpandnd256 _ e o => evexDst e o
  | .vpandnd512 _ e o => evexDst e o
  | .vpandnq128 _ e o => evexDst e o
  | .vpandnq256 _ e o => evexDst e o
  | .vpandnq512 _ e o => evexDst e o

/-- The vector register that is the first source, the complemented one (00_scope.md R13). -/
def src1 : Instr → BitVec 5
  | .pandnMm _ o => o.reg.setWidth 5
  | .pandnXmm h o => sseDst h o
  | .vpandn128 _ v _ => vexSrc1 v
  | .vpandn256 _ v _ => vexSrc1 v
  | .vpandnd128 _ e _ => e.v
  | .vpandnd256 _ e _ => e.v
  | .vpandnd512 _ e _ => e.v
  | .vpandnq128 _ e _ => e.v
  | .vpandnq256 _ e _ => e.v
  | .vpandnq512 _ e _ => e.v

/-- The vector register that ModRM.rm names when `mod = 3` (30_encoding.md R88, R100, R105). -/
def rmVec (rm : BitVec 3) : Instr → BitVec 5
  | .pandnMm _ _ => rm.setWidth 5
  | .pandnXmm h _ => num5 false (rexB h) rm
  | .vpandn128 _ v _ => num5 false (vexB v) rm
  | .vpandn256 _ v _ => num5 false (vexB v) rm
  | .vpandnd128 _ e _ => num5 e.x e.b rm
  | .vpandnd256 _ e _ => num5 e.x e.b rm
  | .vpandnd512 _ e _ => num5 e.x e.b rm
  | .vpandnq128 _ e _ => num5 e.x e.b rm
  | .vpandnq256 _ e _ => num5 e.x e.b rm
  | .vpandnq512 _ e _ => num5 e.x e.b rm

/-- The bit that extends the index register's number (30_encoding.md R88, R100, R105). -/
def extX : Instr → Bool
  | .pandnMm h _ => rexX h
  | .pandnXmm h _ => rexX h
  | .vpandn128 _ v _ => vexX v
  | .vpandn256 _ v _ => vexX v
  | .vpandnd128 _ e _ => e.x
  | .vpandnd256 _ e _ => e.x
  | .vpandnd512 _ e _ => e.x
  | .vpandnq128 _ e _ => e.x
  | .vpandnq256 _ e _ => e.x
  | .vpandnq512 _ e _ => e.x

/-- The bit that extends the base register's number (30_encoding.md R88, R100, R105). -/
def extB : Instr → Bool
  | .pandnMm h _ => rexB h
  | .pandnXmm h _ => rexB h
  | .vpandn128 _ v _ => vexB v
  | .vpandn256 _ v _ => vexB v
  | .vpandnd128 _ e _ => e.b
  | .vpandnd256 _ e _ => e.b
  | .vpandnd512 _ e _ => e.b
  | .vpandnq128 _ e _ => e.b
  | .vpandnq256 _ e _ => e.b
  | .vpandnq512 _ e _ => e.b

/-- The memory operand `a`'s read, as the meaning of the instruction makes it (20_memory.md R50). -/
def accessOf (a : Addr) (s : State) : Instr → Access
  | .pandnMm h o => mmxAccess h o a s
  | .pandnXmm h o => sseAccess h o a s
  | .vpandn128 h v o => vexAccess 128 h v o a s
  | .vpandn256 h v o => vexAccess 256 h v o a s
  | .vpandnd128 h e o => evexAccess 32 128 h e o a s
  | .vpandnd256 h e o => evexAccess 32 256 h e o a s
  | .vpandnd512 h e o => evexAccess 32 512 h e o a s
  | .vpandnq128 h e o => evexAccess 64 128 h e o a s
  | .vpandnq256 h e o => evexAccess 64 256 h e o a s
  | .vpandnq512 h e o => evexAccess 64 512 h e o a s

/-- The memory read of the instruction, if its last operand is in memory. -/
def access (i : Instr) (s : State) : Option Access :=
  match (operands i).rm with
  | .reg _ => none
  | .mem a => some (accessOf a s i)

/-! ## The second source, bit by bit -/

/-- EVEX.b of an EVEX form: a memory operand is one element (30_encoding.md R106). -/
def bcast (i : Instr) : Bool :=
  match evex? i with
  | none => false
  | some e => e.bc

/-- Bit `j` of the second source of a vector form: the register's; or the memory operand's, which is bit `j % 8` of the
byte at offset `j / 8` (20_memory.md R53); under broadcast, of the one element (42_vpandnd_vpandnq_evex.md R156). -/
def src2Bit (i : Instr) (s : State) (j : Nat) : Bool :=
  match (operands i).rm with
  | .reg rm => (s.readZmm (rmVec rm i)).getLsbD j
  | .mem a =>
    if bcast i then
      (s.dataAt ((accessOf a s i).byteAddr (j % elemSize i / 8))).getLsbD (j % 8)
    else (s.dataAt ((accessOf a s i).byteAddr (j / 8))).getLsbD (j % 8)

/-- Bit `j` of the second source of the MMX form: MMX register `rm`, or the memory operand's. -/
def mmxSrcBit (h : Head) (o : ModRm) (s : State) (j : Nat) : Bool :=
  match o.rm with
  | .reg rm => (s.readMm rm).getLsbD j
  | .mem a => (s.dataAt ((mmxAccess h o a s).byteAddr (j / 8))).getLsbD (j % 8)

/-! ## The premise "no exception" (R212) -/

/-- R212 item 1: no LOCK prefix; no 66H, F2H, F3H or REX before VEX or EVEX (R194); not `z = 1` with `aaa = 000`, nor
`b = 1` with a register operand (R196). -/
def legal (i : Instr) : Bool :=
  !(head i).pfx.contains .lock &&
  (match cls i with
    | .mmx => true
    | .sse => true
    | .vex => !(head i).pfx.contains .opSize && !(head i).pfx.contains .repne && !(head i).pfx.contains .rep &&
        (head i).rex.isNone
    | .evex => !(head i).pfx.contains .opSize && !(head i).pfx.contains .repne && !(head i).pfx.contains .rep &&
        (head i).rex.isNone) &&
  (match evex? i with
    | none => true
    | some e => (!e.z || e.aaa != 0#3) && (!e.bc || match (operands i).rm with | .reg _ => false | .mem _ => true))

/-- The control state does not raise #UD for a form of the class (R193), nor does the mode (R197). -/
def enabled (i : Instr) (s : State) : Bool :=
  match cls i with
  | .mmx => !s.cr0EM
  | .sse => !s.cr0EM && s.osfxsr
  | .vex => s.osxsave && s.xcr0Avx && s.mode != .real && s.mode != .virtual8086
  | .evex => s.osxsave && s.xcr0Avx && s.xcr0Avx512 && s.mode != .real && s.mode != .virtual8086

/-- No condition of R193 to R197 holds (R204 step 1); the vector length is at most MAXVL (10_state.md R22). -/
def noUd (i : Instr) (s : State) : Bool :=
  legal i && featuresPresent s.cfg i && decide (width i ≤ maxvl s.cfg) && enabled i s

/-- R212 item 4, for the bytes that must be readable (20_memory.md R79): canonical, aligned for the legacy-SSE form,
answered with bytes by the oracle, and not stopped by the alignment check of the MMX form. -/
def operandOk (c : Cls) (q : Access) (s : State) : Bool :=
  q.needed.all (fun j => canonical s.cfg.vaBits (q.byteAddr j)) &&
  (c != .sse || q.la.toNat % 16 == 0) &&
  q.needed.all (fun j => (s.pageFaultAt (q.byteAddr j)).isNone) &&
  !(c == .mmx && s.cr0AM && s.flagAC && s.user && q.la.toNat % 8 != 0)

/-- The premise under which the instruction raises no exception (R212; its item 5 is void here, since every register holds
a value, assumption log 1). -/
def noExc (i : Instr) (s : State) : Bool :=
  noUd i s && !s.cr0TS && !(cls i == .mmx && s.fswES) &&
  match access i s with
  | none => true
  | some q => operandOk (cls i) q s

/-- The model runs the instruction: no exception, and a memory operand only in 64-bit mode (20_memory.md R71) and outside
the device regions (20_memory.md R60). -/
def runs (i : Instr) (s : State) : Bool :=
  noExc i s &&
  match access i s with
  | none => true
  | some q => s.mode == .m64 && !touchesDevice s q

/-! ## What two states share -/

/-- The old destination is an input: the XMM form's first source; under merging with a writemask (10_state.md R23). -/
def readsOld : Instr → Bool
  | .pandnMm _ _ => false
  | .pandnXmm _ _ => true
  | .vpandn128 _ _ _ => false
  | .vpandn256 _ _ _ => false
  | .vpandnd128 _ e _ => !e.z && e.aaa != 0#3
  | .vpandnd256 _ e _ => !e.z && e.aaa != 0#3
  | .vpandnd512 _ e _ => !e.z && e.aaa != 0#3
  | .vpandnq128 _ e _ => !e.z && e.aaa != 0#3
  | .vpandnq256 _ e _ => !e.z && e.aaa != 0#3
  | .vpandnq512 _ e _ => !e.z && e.aaa != 0#3

/-- What 10_state.md R34 to R41 read to decide an exception, the parameters, and what forms an address (10_state.md R40,
20_memory.md R65 to R70), are the same. -/
def SameControl (s t : State) : Prop :=
  t.cfg = s.cfg ∧ t.mode = s.mode ∧ t.cr0EM = s.cr0EM ∧ t.cr0TS = s.cr0TS ∧ t.cr0AM = s.cr0AM ∧
  t.osfxsr = s.osfxsr ∧ t.osxsave = s.osxsave ∧ t.xcr0Avx = s.xcr0Avx ∧ t.xcr0Avx512 = s.xcr0Avx512 ∧
  t.fswES = s.fswES ∧ t.flagAC = s.flagAC ∧ t.user = s.user ∧ t.gpr = s.gpr ∧ t.rip = s.rip ∧
  t.seg.fs.base = s.seg.fs.base ∧ t.seg.gs.base = s.seg.gs.base ∧ t.plat = s.plat

/-- The "reads" column of 10_state.md R43 is the same: the sources' bits below the width, the old destination's where it is
an input, the mask bits below `KL` when a writemask is named, and memory (the oracle's answers are in `SameControl`). -/
def SameInputs (i : Instr) (s t : State) : Prop :=
  SameControl s t ∧ (∀ a, t.mem.read a = s.mem.read a) ∧
  (cls i = .mmx → t.readMm (operands i).reg = s.readMm (operands i).reg ∧
    ∀ rm, (operands i).rm = .reg rm → t.readMm rm = s.readMm rm) ∧
  (cls i ≠ .mmx → t.vec (width i) (src1 i) = s.vec (width i) (src1 i) ∧
    (readsOld i = true → t.vec (width i) (dst i) = s.vec (width i) (dst i)) ∧
    ∀ rm, (operands i).rm = .reg rm → t.vec (width i) (rmVec rm i) = s.vec (width i) (rmVec rm i)) ∧
  (∀ e, evex? i = some e → e.aaa ≠ 0#3 → ∀ j < width i / elemSize i,
    (t.readK e.aaa).getLsbD j = (s.readK e.aaa).getLsbD j)

/-- The bits an instruction computes: those of its MMX register, or bits `width-1:0` of its vector register. -/
def resultBit (i : Instr) (s : State) (j : Nat) : Bool :=
  match i with
  | .pandnMm _ o => (s.readMm o.reg).getLsbD j
  | .pandnXmm _ _ => (s.readZmm (dst i)).getLsbD j
  | .vpandn128 _ _ _ => (s.readZmm (dst i)).getLsbD j
  | .vpandn256 _ _ _ => (s.readZmm (dst i)).getLsbD j
  | .vpandnd128 _ _ _ => (s.readZmm (dst i)).getLsbD j
  | .vpandnd256 _ _ _ => (s.readZmm (dst i)).getLsbD j
  | .vpandnd512 _ _ _ => (s.readZmm (dst i)).getLsbD j
  | .vpandnq128 _ _ _ => (s.readZmm (dst i)).getLsbD j
  | .vpandnq256 _ _ _ => (s.readZmm (dst i)).getLsbD j
  | .vpandnq512 _ _ _ => (s.readZmm (dst i)).getLsbD j

/-- Everything but the vector registers and `rip` is the same: memory through the read of each byte. -/
def SameButVec (s t : State) : Prop :=
  t.mm = s.mm ∧ t.k = s.k ∧ t.gpr = s.gpr ∧ t.rflags = s.rflags ∧ t.mxcsr = s.mxcsr ∧ t.x87 = s.x87 ∧ t.ctl = s.ctl ∧
  t.seg = s.seg ∧ t.plat = s.plat ∧ t.cfg = s.cfg ∧ ∀ a, t.mem.read a = s.mem.read a

/-- Bits `MAXVL` and above of every vector register's container are 0 (10_state.md R22), `KW` is at least 16 and every opmask
register has no more than `KW` bits (00_scope.md R9, 10_state.md R26), and the memory is canonical. -/
def Inv (s : State) : Prop :=
  s.mem.wf ∧ (∀ n j, maxvl s.cfg ≤ j → (s.readZmm n).getLsbD j = false) ∧
  16 ≤ s.cfg.kw ∧ ∀ n : Fin 8, s.k[n] < 2 ^ s.cfg.kw

/-! ## A run (00_scope.md R19) -/

/-- How a run ends, with the state at that point (R19; 60_exceptions.md R208: after an exception the state is that before
the instruction); `unfinished` when the fuel is out. -/
inductive RunEnd where
  | normal (s : State)
  | faulted (f : Fault) (s : State)
  | refused (r : Refusal) (s : State)
  | unfinished (s : State)
deriving DecidableEq, Repr

/-- The run that ends normally when `rip` is `stop`, in at most `fuel` steps (R19). -/
def run (stop : Word) : Nat → State → RunEnd
  | 0, s => if s.rip = stop then .normal s else .unfinished s
  | n + 1, s =>
    if s.rip = stop then .normal s
    else match step s with
      | .next t => run stop n t
      | .fault f => .faulted f s
      | .refused r => .refused r s

/-- The instructions of a program run one after the other, with nothing fetched or decoded (R19), each with the oracle's
answer to it (20_memory.md R73). -/
def runList : List Instr → State → RunEnd
  | [], s => .normal s
  | i :: is, s =>
    match exec i s with
    | .next t => runList is t.nextAnswer
    | .fault f => .faulted f s
    | .refused r => .refused r s

/-- The bytes of a program, its encodings back to back (R19). -/
def bytesOf (prog : List Instr) : List Byte := prog.flatMap encode

/-! ## The source's loop, read literally (42_vpandnd_vpandnq_evex.md R156, R157) -/

/-- Element `j` of register `n` assigned: the other bits are kept. -/
def setElem (es : Nat) (s : State) (n : BitVec 5) (j : Nat) (v : BitVec es) : State :=
  s.writeZmm n ((s.readZmm n &&& ~~~((BitVec.allOnes es).setWidth 512 <<< (es * j))) |||
    (v.setWidth 512 <<< (es * j)))

/-- Iteration `j` of the source's loop on the register file: it reads element `j` of SRC1 and of SRC2 from the registers as
earlier iterations left them, and assigns element `j` of DEST. The second source is a register when `r` is one, else the
fixed operand `m` (memory is not written). -/
def iteration (es : Nat) (mask : Nat → Bool) (z : Bool) (d v : BitVec 5) (r : Option (BitVec 5)) (m : BitVec 512)
    (j : Nat) (s : State) : State :=
  if mask j then
    setElem es s d j (andn (elem es j (s.readZmm v)) (elem es j (match r with | some x => s.readZmm x | none => m)))
  else if z then setElem es s d j 0#es
  else s

/-- The iterations in the order of a list. -/
def loop (es : Nat) (mask : Nat → Bool) (z : Bool) (d v : BitVec 5) (r : Option (BitVec 5)) (m : BitVec 512) :
    List Nat → State → State
  | [], s => s
  | j :: js, s => loop es mask z d v r m js (iteration es mask z d v r m j s)

/-- The loop in the order `js`, then `DEST[MAXVL-1:w] := 0`. -/
def literalEvex (es w : Nat) (mask : Nat → Bool) (z : Bool) (d v : BitVec 5) (r : Option (BitVec 5)) (m : BitVec 512)
    (js : List Nat) (s : State) : State :=
  let t := loop es mask z d v r m js s
  t.writeZmm d (((t.readZmm d).setWidth w).setWidth 512)

/-- The register that is the second source, if it is one. -/
def src2Reg (i : Instr) : Option (BitVec 5) :=
  match (operands i).rm with
  | .reg rm => some (rmVec rm i)
  | .mem _ => none

/-! ## The opcode table (30_encoding.md R115, R125) -/

/-- The mask of the row, a byte a window byte (opcode_table.json; a 2-byte VEX prefix has the row's `alt` window). -/
def rowMask : Instr → List Byte
  | .pandnMm _ _ => [0xFF#8, 0xFF#8, 0x00#8]
  | .pandnXmm _ _ => [0xFF#8, 0xFF#8, 0x00#8]
  | .vpandn128 _ v _ => if v.form = .two then [0xFF#8, 0x07#8, 0xFF#8, 0x00#8] else [0xFF#8, 0x1F#8, 0x07#8, 0xFF#8, 0x00#8]
  | .vpandn256 _ v _ => if v.form = .two then [0xFF#8, 0x07#8, 0xFF#8, 0x00#8] else [0xFF#8, 0x1F#8, 0x07#8, 0xFF#8, 0x00#8]
  | .vpandnd128 _ _ _ => [0xFF#8, 0x0F#8, 0x87#8, 0x60#8, 0xFF#8, 0x00#8]
  | .vpandnd256 _ _ _ => [0xFF#8, 0x0F#8, 0x87#8, 0x60#8, 0xFF#8, 0x00#8]
  | .vpandnd512 _ _ _ => [0xFF#8, 0x0F#8, 0x87#8, 0x60#8, 0xFF#8, 0x00#8]
  | .vpandnq128 _ _ _ => [0xFF#8, 0x0F#8, 0x87#8, 0x60#8, 0xFF#8, 0x00#8]
  | .vpandnq256 _ _ _ => [0xFF#8, 0x0F#8, 0x87#8, 0x60#8, 0xFF#8, 0x00#8]
  | .vpandnq512 _ _ _ => [0xFF#8, 0x0F#8, 0x87#8, 0x60#8, 0xFF#8, 0x00#8]

/-- The match value of the row, a byte a window byte (opcode_table.json). -/
def rowMatch : Instr → List Byte
  | .pandnMm _ _ => [0x0F#8, 0xDF#8, 0x00#8]
  | .pandnXmm _ _ => [0x0F#8, 0xDF#8, 0x00#8]
  | .vpandn128 _ v _ => if v.form = .two then [0xC5#8, 0x01#8, 0xDF#8, 0x00#8] else [0xC4#8, 0x01#8, 0x01#8, 0xDF#8, 0x00#8]
  | .vpandn256 _ v _ => if v.form = .two then [0xC5#8, 0x05#8, 0xDF#8, 0x00#8] else [0xC4#8, 0x01#8, 0x05#8, 0xDF#8, 0x00#8]
  | .vpandnd128 _ _ _ => [0x62#8, 0x01#8, 0x05#8, 0x00#8, 0xDF#8, 0x00#8]
  | .vpandnd256 _ _ _ => [0x62#8, 0x01#8, 0x05#8, 0x20#8, 0xDF#8, 0x00#8]
  | .vpandnd512 _ _ _ => [0x62#8, 0x01#8, 0x05#8, 0x40#8, 0xDF#8, 0x00#8]
  | .vpandnq128 _ _ _ => [0x62#8, 0x01#8, 0x85#8, 0x00#8, 0xDF#8, 0x00#8]
  | .vpandnq256 _ _ _ => [0x62#8, 0x01#8, 0x85#8, 0x20#8, 0xDF#8, 0x00#8]
  | .vpandnq512 _ _ _ => [0x62#8, 0x01#8, 0x85#8, 0x40#8, 0xDF#8, 0x00#8]

/-- The bytes of an encoding from its opcode part through ModRM, as many as the row's window has (R125). -/
def window (i : Instr) : List Byte := ((encode i).drop (head i).len).take (rowMask i).length

end Sys2Proof.Safety
end

