-- ==== Sys2Proof/Certificates/Slice0/Obligations.lean ====
section
/-! DEFINITION. The statements. A premise `runs i s` (Sys2Proof/Safety.lean) speaks of the instruction and the state before
it alone: no exception condition of 60_exceptions.md holds, and a memory operand is read in 64-bit mode outside the device
regions. -/

open Sys2Proof
open Sys2Proof.Machine
open Sys2Proof.Safety

/-! ## Results: each form completes, with the value its rule gives -/

/-- PANDN mm completes, and every bit of its MMX register is the AND NOT of the old bit and the source's; `rip` moves past
the encoding (40_pandn_legacy.md R130). -/
def Obligations.PandnMmCompletes : Prop :=
  ∀ (h : Head) (o : ModRm) (s : State), runs (.pandnMm h o) s = true →
    ∃ t, exec (.pandnMm h o) s = .next t ∧
      (∀ j < 64, (t.readMm o.reg).getLsbD j = (!(s.readMm o.reg).getLsbD j && mmxSrcBit h o s j)) ∧
      t.rip = s.rip + BitVec.ofNat 64 (legLen h o)

/-- PANDN xmm completes: bits 127:0 of its register are the AND NOT of the old bits and the source's, the bits above are
kept (40_pandn_legacy.md R131). -/
def Obligations.PandnXmmCompletes : Prop :=
  ∀ (h : Head) (o : ModRm) (s : State), runs (.pandnXmm h o) s = true →
    ∃ t, exec (.pandnXmm h o) s = .next t ∧
      (∀ j < 128, (t.readZmm (sseDst h o)).getLsbD j =
        (!(s.readZmm (sseDst h o)).getLsbD j && src2Bit (.pandnXmm h o) s j)) ∧
      (∀ j, 128 ≤ j → (t.readZmm (sseDst h o)).getLsbD j = (s.readZmm (sseDst h o)).getLsbD j) ∧
      t.rip = s.rip + BitVec.ofNat 64 (legLen h o)

/-- VPANDN xmm and VPANDN ymm complete: bits `w-1:0` of the destination are the AND NOT of the vvvv register's and the last
operand's, the bits above are 0 (41_vpandn_vex.md R140, R141). -/
def Obligations.VpandnCompletes : Prop :=
  ∀ (h : Head) (v : Vex) (o : ModRm) (s : State), ∀ i ∈ [Instr.vpandn128 h v o, Instr.vpandn256 h v o],
    runs i s = true →
    ∃ t, exec i s = .next t ∧
      (∀ j < width i, (t.readZmm (vexDst v o)).getLsbD j =
        (!(s.readZmm (vexSrc1 v)).getLsbD j && src2Bit i s j)) ∧
      (∀ j, width i ≤ j → (t.readZmm (vexDst v o)).getLsbD j = false) ∧
      t.rip = s.rip + BitVec.ofNat 64 (vexLen h v o)

/-- The six EVEX forms complete: an element of the destination is the AND NOT of the first source's element and the last
operand's (or the broadcast element) where there is no writemask or its mask bit is 1; else it is 0 when `z = 1` and the old
element when `z = 0`; the bits above the vector length are 0 (42_vpandnd_vpandnq_evex.md R150 to R156). -/
def Obligations.EvexFormsComplete : Prop :=
  ∀ (h : Head) (e : Evex) (o : ModRm) (s : State),
    ∀ i ∈ [Instr.vpandnd128 h e o, Instr.vpandnd256 h e o, Instr.vpandnd512 h e o,
      Instr.vpandnq128 h e o, Instr.vpandnq256 h e o, Instr.vpandnq512 h e o],
    runs i s = true →
    ∃ t, exec i s = .next t ∧
      (∀ j < width i, (t.readZmm (evexDst e o)).getLsbD j =
        if e.aaa = 0#3 ∨ (s.readK e.aaa).getLsbD (j / elemSize i) = true then
          (!(s.readZmm e.v).getLsbD j && src2Bit i s j)
        else if e.z = true then false
        else (s.readZmm (evexDst e o)).getLsbD j) ∧
      (∀ j, width i ≤ j → (t.readZmm (evexDst e o)).getLsbD j = false) ∧
      t.rip = s.rip + BitVec.ofNat 64 (evexLen h o)

/-- When PANDN mm completes, every tag of the x87 state it aliases is valid, TOP = 0 and the other status bits are as before, bits
79:64 of the register that aliases the written one are all ones, those of the others unchanged. The model's choice, assumption
log 12: 10_state.md R25 tells this of the hardware, and D6 and U15 leave that state out of the spec's own model. -/
def Obligations.PandnMmMarksX87 : Prop :=
  ∀ (h : Head) (o : ModRm) (s : State), runs (.pandnMm h o) s = true →
    ∃ t, exec (.pandnMm h o) s = .next t ∧
      t.x87.tag = 0#16 ∧
      (∀ j, t.x87.fsw.getLsbD j = (s.x87.fsw.getLsbD j && !decide (11 ≤ j ∧ j ≤ 13))) ∧
      (∀ n : Fin 8, t.x87.hi[n] = if n.val = o.reg.toNat then 0xFFFF#16 else s.x87.hi[n]) ∧
      t.x87.fip = s.x87.fip ∧ t.x87.fdp = s.x87.fdp

/-! ## Frames -/

/-- PANDN mm changes nothing but its MMX register, the x87 fields of 10_state.md R25 and `rip`: the other MMX registers, the
vector, opmask and general registers, flags, MXCSR, control and segment state, and every byte of memory are unchanged. -/
def Obligations.PandnMmFrame : Prop :=
  ∀ (h : Head) (o : ModRm) (s t : State), exec (.pandnMm h o) s = .next t →
    (∀ n, n ≠ o.reg → t.readMm n = s.readMm n) ∧
    t.zmm = s.zmm ∧ t.k = s.k ∧ t.gpr = s.gpr ∧ t.rflags = s.rflags ∧ t.mxcsr = s.mxcsr ∧
    t.ctl = s.ctl ∧ t.seg = s.seg ∧ t.plat = s.plat ∧ t.cfg = s.cfg ∧
    ∀ a, t.mem.read a = s.mem.read a

/-- The nine vector forms change nothing but their destination register and `rip`. -/
def Obligations.VectorFormsFrame : Prop :=
  ∀ (i : Instr) (s t : State), cls i ≠ .mmx → exec i s = .next t →
    SameButVec s t ∧ ∀ n, n ≠ dst i → t.readZmm n = s.readZmm n

/-- Every form that completes moves `rip` by the length of its encoding (10_state.md R30). -/
def Obligations.RipAdvancesByLength : Prop :=
  ∀ (i : Instr) (s t : State), exec i s = .next t → t.rip = s.rip + BitVec.ofNat 64 i.len

/-- No form stores: every byte of memory reads as before (43_family_laws_and_absent_classes.md R178, 20_memory.md R51). -/
def Obligations.NoFormStores : Prop :=
  ∀ (i : Instr) (s t : State), exec i s = .next t → ∀ a, t.mem.read a = s.mem.read a

/-- The "writes" column of 10_state.md R43 for a step of the machine: whatever the bytes at `rip` are, a step that completes
ran one of the ten forms, and it changed only the MMX register and x87 state, or the one vector register, that the form
names, and `rip`; and the oracle's answer to the next execution is due (20_memory.md R73; past the last of the listed answers:
assumption log 8). -/
def Obligations.StepWritesOnlyItsRow : Prop :=
  ∀ s t : State, step s = .next t →
    ∃ i rest, decode s.fetch = .instr i rest ∧ t.rip = s.rip + BitVec.ofNat 64 i.len ∧
      t.k = s.k ∧ t.gpr = s.gpr ∧ t.rflags = s.rflags ∧ t.mxcsr = s.mxcsr ∧ t.ctl = s.ctl ∧ t.seg = s.seg ∧
      t.plat = ⟨s.plat.later.headD s.plat.now, s.plat.later.tail, s.plat.device⟩ ∧ t.cfg = s.cfg ∧
      (∀ a, t.mem.read a = s.mem.read a) ∧
      (∀ n, t.readMm n ≠ s.readMm n → cls i = .mmx ∧ n = (operands i).reg) ∧
      (t.x87 ≠ s.x87 → cls i = .mmx) ∧
      (∀ n, t.readZmm n ≠ s.readZmm n → cls i ≠ .mmx ∧ n = dst i)

/-- RFLAGS is not written, and no bit of it but AC and VM is read (10_state.md R32, R34). -/
def Obligations.FlagsNeitherWrittenNorRead : Prop :=
  (∀ (i : Instr) (s t : State), exec i s = .next t → t.rflags = s.rflags) ∧
  ∀ (i : Instr) (s : State) (f : BitVec 64),
    f.getLsbD 18 = s.rflags.getLsbD 18 → f.getLsbD 17 = s.rflags.getLsbD 17 →
    exec i { s with rflags := f } = mapNext (fun t => { t with rflags := f }) (exec i s)

/-- MXCSR is neither written nor read, and no exception flag of the x87 status word is set (10_state.md R33). -/
def Obligations.MxcsrNeitherWrittenNorRead : Prop :=
  (∀ (i : Instr) (s t : State), exec i s = .next t →
    t.mxcsr = s.mxcsr ∧ ∀ j < 8, t.x87.fsw.getLsbD j = s.x87.fsw.getLsbD j) ∧
  ∀ (i : Instr) (s : State) (m : BitVec 32),
    exec i { s with mxcsr := m } = mapNext (fun t => { t with mxcsr := m }) (exec i s)

/-- Opmask bits at `KL` and above influence nothing, whatever the width `KW` of the registers is: not the result, not an
exception (10_state.md R27, 00_scope.md R9). -/
def Obligations.MaskBitsAboveKlIgnored : Prop :=
  ∀ (i : Instr) (s : State) (k : Vector Nat 8) (w : Nat),
    (∀ n : BitVec 3, ∀ j < width i / elemSize i,
      (State.readK { s with k := k, cfg := { s.cfg with kw := w } } n).getLsbD j = (s.readK n).getLsbD j) →
    exec i { s with k := k, cfg := { s.cfg with kw := w } } =
      mapNext (fun t => { t with k := k, cfg := { t.cfg with kw := w } }) (exec i s)

/-- The EVEX forms zero the bits above the vector length under every mask: with merging and a mask of zeros the bits below
keep their value and those above are cleared, so that a register with a bit set above is changed
(42_vpandnd_vpandnq_evex.md R158). -/
def Obligations.EvexZeroesUpperBits : Prop :=
  ∀ (i : Instr) (e : Evex) (s t : State), evex? i = some e → exec i s = .next t →
    (∀ j, width i ≤ j → (t.readZmm (dst i)).getLsbD j = false) ∧
    (e.z = false → e.aaa ≠ 0#3 → (∀ j < width i / elemSize i, (s.readK e.aaa).getLsbD j = false) →
      (∀ j < width i, (t.readZmm (dst i)).getLsbD j = (s.readZmm (dst i)).getLsbD j) ∧
      ((∃ j, width i ≤ j ∧ (s.readZmm (dst i)).getLsbD j = true) → t.readZmm (dst i) ≠ s.readZmm (dst i)))

/-- Which form ran last decides the bits above 127 (70_reset_and_hazards.md R235): PANDN xmm keeps what stands there, a
128-bit VEX or EVEX form leaves 0. -/
def Obligations.LastFormDecidesUpperBits : Prop :=
  ∀ (h : Head) (o : ModRm) (i : Instr) (s t u : State), width i = 128 → cls i ≠ .sse → dst i = sseDst h o →
    (exec i s = .next t → exec (.pandnXmm h o) t = .next u →
      ∀ j, 128 ≤ j → (u.readZmm (dst i)).getLsbD j = false) ∧
    (exec (.pandnXmm h o) s = .next t → exec i t = .next u →
      ∀ j, 128 ≤ j → (t.readZmm (dst i)).getLsbD j = (s.readZmm (dst i)).getLsbD j ∧
        (u.readZmm (dst i)).getLsbD j = false)

/-- The "reads" column of 10_state.md R43: two states that agree on it, and on what decides an exception, give the same kind
of outcome, the same exception or refusal, and the same computed bits. -/
def Obligations.OutcomeDependsOnlyOnInputs : Prop :=
  ∀ (i : Instr) (s s' : State), SameInputs i s s' →
    match exec i s with
    | .next t => ∃ t', exec i s' = .next t' ∧ t'.rip = t.rip ∧ ∀ j < width i, resultBit i t' j = resultBit i t j
    | .fault f => exec i s' = .fault f
    | .refused r => exec i s' = .refused r

/-! ## The operation -/

/-- The truth table of `ANDN_N` and its laws (43_family_laws_and_absent_classes.md R170, R171). -/
def Obligations.AndnLaws : Prop :=
  ∀ (w : Nat) (a b : BitVec w),
    (∀ j < w, ((andn a b).getLsbD j = true ↔ a.getLsbD j = false ∧ b.getLsbD j = true)) ∧
    andn a a = 0#w ∧ andn 0#w b = b ∧ andn (BitVec.allOnes w) b = 0#w ∧ andn a 0#w = 0#w ∧
    andn a (BitVec.allOnes w) = ~~~a ∧
    (∀ j < w, ((andn a b).getLsbD j ≠ (andn b a).getLsbD j ↔ a.getLsbD j ≠ b.getLsbD j)) ∧
    andn a b &&& a = 0#w ∧ andn a b ||| (a &&& b) = b ∧ andn a (andn a b) = andn a b ∧
    andn (andn a b) b = a &&& b ∧
    ∀ lo n, lo + n ≤ w → (andn a b).extractLsb' lo n = andn (a.extractLsb' lo n) (b.extractLsb' lo n)

/-- PANDN xmm executed twice with the same, distinct registers leaves the AND of the two old values in bits 127:0
(43_family_laws_and_absent_classes.md R171). -/
def Obligations.PandnTwiceIsAnd : Prop :=
  ∀ (h : Head) (reg rm : BitVec 3) (s t u : State), num5 false (rexR h) reg ≠ num5 false (rexB h) rm →
    exec (.pandnXmm h ⟨reg, .reg rm⟩) s = .next t → exec (.pandnXmm h ⟨reg, .reg rm⟩) t = .next u →
    u.vec 128 (num5 false (rexR h) reg) =
      s.vec 128 (num5 false (rexR h) reg) &&& s.vec 128 (num5 false (rexB h) rm)

/-- With no writemask, or a mask of ones, VPANDND and VPANDNQ of one length, and at 128 and 256 bits the VEX form, put the
same bits into the destination (42_vpandnd_vpandnq_evex.md R159, 43_family_laws_and_absent_classes.md R171). -/
def Obligations.ElementSizeIrrelevantUnmasked : Prop :=
  ∀ (h : Head) (e : Evex) (o : ModRm) (s : State), e.bc = false →
    (e.aaa = 0#3 ∨ ∀ j < 16, (s.readK e.aaa).getLsbD j = true) →
    (∀ p ∈ [(Instr.vpandnd128 h e o, Instr.vpandnq128 h e o), (Instr.vpandnd256 h e o, Instr.vpandnq256 h e o),
        (Instr.vpandnd512 h e o, Instr.vpandnq512 h e o)], exec p.1 s = exec p.2 s) ∧
    ∀ (h' : Head) (v : Vex) (o' : ModRm) (t t' : State) (rm rm' : BitVec 3), o.rm = .reg rm → o'.rm = .reg rm' →
      vexDst v o' = evexDst e o → vexSrc1 v = e.v → num5 false (vexB v) rm' = num5 e.x e.b rm →
      ∀ p ∈ [(Instr.vpandn128 h' v o', Instr.vpandnd128 h e o), (Instr.vpandn256 h' v o', Instr.vpandnd256 h e o)],
        exec p.1 s = .next t → exec p.2 s = .next t' → t'.readZmm (evexDst e o) = t.readZmm (evexDst e o)

/-- The source's loop, element by element on the register file and in any order, followed by the zeroing of the upper bits,
is what the six EVEX forms do, for every assignment of registers, also where the destination is a source
(42_vpandnd_vpandnq_evex.md R157, 43_family_laws_and_absent_classes.md R175). -/
def Obligations.LiteralLoopInAnyOrder : Prop :=
  ∀ (i : Instr) (e : Evex) (s t : State) (b : BitVec (width i)) (js : List Nat), evex? i = some e →
    evexSrc2 (elemSize i) (width i) (head i) e (operands i) s = .value b → exec i s = .next t →
    js.Perm (List.range (width i / elemSize i)) →
    t = (literalEvex (elemSize i) (width i) (maskBit s e) e.z (dst i) e.v (src2Reg i) (b.setWidth 512) js s).advance i.len

/-- The intrinsics (43_family_laws_and_absent_classes.md R180): the unmasked ones are `(~a) & b`; in the masked ones element
`j` is that where mask bit `j` is 1, else the element of `s`, or 0. -/
def Obligations.IntrinsicsMeaning : Prop :=
  (∀ a b, Intrinsics.mm_andnot_si64 a b = ~~~a &&& b) ∧
  (∀ a b, Intrinsics.mm_andnot_si128 a b = ~~~a &&& b) ∧
  (∀ a b, Intrinsics.mm256_andnot_si256 a b = ~~~a &&& b) ∧
  (∀ a b, Intrinsics.mm512_andnot_epi32 a b = ~~~a &&& b) ∧
  (∀ a b, Intrinsics.mm512_andnot_epi64 a b = ~~~a &&& b) ∧
  (∀ s k a b j, j < 512 → (Intrinsics.mm512_mask_andnot_epi32 s k a b).getLsbD j =
    if k.getLsbD (j / 32) then (~~~a &&& b).getLsbD j else s.getLsbD j) ∧
  (∀ k a b j, j < 512 → (Intrinsics.mm512_maskz_andnot_epi32 k a b).getLsbD j =
    (k.getLsbD (j / 32) && (~~~a &&& b).getLsbD j)) ∧
  (∀ s k a b j, j < 256 → (Intrinsics.mm256_mask_andnot_epi32 s k a b).getLsbD j =
    if k.getLsbD (j / 32) then (~~~a &&& b).getLsbD j else s.getLsbD j) ∧
  (∀ k a b j, j < 256 → (Intrinsics.mm256_maskz_andnot_epi32 k a b).getLsbD j =
    (k.getLsbD (j / 32) && (~~~a &&& b).getLsbD j)) ∧
  (∀ s k a b j, j < 128 → (Intrinsics.mm_mask_andnot_epi32 s k a b).getLsbD j =
    if k.getLsbD (j / 32) then (~~~a &&& b).getLsbD j else s.getLsbD j) ∧
  (∀ k a b j, j < 128 → (Intrinsics.mm_maskz_andnot_epi32 k a b).getLsbD j =
    (k.getLsbD (j / 32) && (~~~a &&& b).getLsbD j)) ∧
  (∀ s k a b j, j < 512 → (Intrinsics.mm512_mask_andnot_epi64 s k a b).getLsbD j =
    if k.getLsbD (j / 64) then (~~~a &&& b).getLsbD j else s.getLsbD j) ∧
  (∀ k a b j, j < 512 → (Intrinsics.mm512_maskz_andnot_epi64 k a b).getLsbD j =
    (k.getLsbD (j / 64) && (~~~a &&& b).getLsbD j)) ∧
  (∀ s k a b j, j < 256 → (Intrinsics.mm256_mask_andnot_epi64 s k a b).getLsbD j =
    if k.getLsbD (j / 64) then (~~~a &&& b).getLsbD j else s.getLsbD j) ∧
  (∀ k a b j, j < 256 → (Intrinsics.mm256_maskz_andnot_epi64 k a b).getLsbD j =
    (k.getLsbD (j / 64) && (~~~a &&& b).getLsbD j)) ∧
  (∀ s k a b j, j < 128 → (Intrinsics.mm_mask_andnot_epi64 s k a b).getLsbD j =
    if k.getLsbD (j / 64) then (~~~a &&& b).getLsbD j else s.getLsbD j) ∧
  (∀ k a b j, j < 128 → (Intrinsics.mm_maskz_andnot_epi64 k a b).getLsbD j =
    (k.getLsbD (j / 64) && (~~~a &&& b).getLsbD j))

/-! ## Memory operands -/

/-- Operands are little-endian: bits `8k+7:8k` of an `n`-byte read are the byte that the oracle answers at `la + k`
(20_memory.md R53). What that byte is, no rule says (R57 puts no law on the answer): that it is the first that the answer at
hand lists for the address, and memory's where it lists none, is the model's choice, assumption log 8. -/
def Obligations.LittleEndianOperand : Prop :=
  (∀ (s : State) (la : Word) (n k j : Nat), k < n → j < 8 →
    (s.readLE la n).testBit (8 * k + j) = (s.dataAt (la + BitVec.ofNat 64 k)).getLsbD j) ∧
  ∀ (s : State) (la : Word),
    ((∀ b, (la.toNat, b) ∉ s.plat.now.bytes) → s.dataAt la = s.mem.read la.toNat) ∧
    ∀ (b : Byte) (cs ds : List Host.Cell), s.plat.now.bytes = cs ++ (la.toNat, b) :: ds →
      (∀ b', (la.toNat, b') ∉ cs) → s.dataAt la = b

/-- A narrow read at an address is the low bits of a wider read there (20_memory.md R55). -/
def Obligations.NarrowReadIsLowBits : Prop :=
  ∀ (s : State) (la : Word) (m n : Nat), m ≤ n → s.readLE la m = s.readLE la n % 2 ^ (8 * m)

/-- The effective address of every operand form without 67H (20_memory.md R65, R66, R67), for the address `next` after the
encoding: base, index and displacement, or the next instruction's address. A 1-byte displacement is sign-extended and
multiplied by `n8`, a 4-byte one is sign-extended and never scaled, and none is 0 (20_memory.md R68). -/
def Obligations.EffectiveAddressForms : Prop :=
  (∀ n8, dispValue n8 .none = 0#64 ∧
    (∀ v, dispValue n8 (.d8 v) = v.signExtend 64 * BitVec.ofNat 64 n8) ∧
    ∀ v, dispValue n8 (.d32 v) = v.signExtend 64) ∧
  ∀ (s : State) (h : Head) (x b : Bool) (n8 : Nat) (next : Word), Pfx.addrSize ∉ h.pfx →
    (∀ rm d, effAddr s h x b n8 next (.base rm d) = s.readGpr (num4 b rm) + dispValue n8 d) ∧
    (∀ d, effAddr s h x b n8 next (.ripRel d) = next + d.signExtend 64) ∧
    (∀ sc ix bs d, num4 x ix ≠ 4#4 → effAddr s h x b n8 next (.sib sc ix bs d) =
      s.readGpr (num4 b bs) + s.readGpr (num4 x ix) * BitVec.ofNat 64 (2 ^ sc.toNat) + dispValue n8 d) ∧
    (∀ sc ix bs d, num4 x ix = 4#4 →
      effAddr s h x b n8 next (.sib sc ix bs d) = s.readGpr (num4 b bs) + dispValue n8 d) ∧
    (∀ sc ix d, num4 x ix ≠ 4#4 → effAddr s h x b n8 next (.sibNoBase sc ix d) =
      s.readGpr (num4 x ix) * BitVec.ofNat 64 (2 ^ sc.toNat) + d.signExtend 64) ∧
    (∀ sc ix d, num4 x ix = 4#4 → effAddr s h x b n8 next (.sibNoBase sc ix d) = d.signExtend 64)

/-- Where a memory operand lies, how many bytes it has (20_memory.md R50, R68, R69) and which checks its read has: the linear
address is the segment base plus the effective address, whose 1-byte displacement counts the operand's bytes in the EVEX forms
and single bytes in the others. It uses the segment SS as the head and the address form say (R69); it has the 16-byte rule in
the XMM form and the alignment check in the MMX form only (R61). A byte of it must be readable (R79) without fault suppression,
in the MMX, XMM and VEX forms and without a writemask always; else exactly when the mask bit of its element is 1, or, of a
broadcast element, some mask bit below `KL`. -/
def Obligations.OperandAddressAndSize : Prop :=
  ∀ (i : Instr) (a : Addr) (s : State),
    (accessOf a s i).bytes = (if bcast i = true then elemSize i / 8 else width i / 8) ∧
    (accessOf a s i).la = segBase s (head i) + effAddr s (head i) (extX i) (extB i)
      (if (evex? i).isSome = true then (accessOf a s i).bytes else 1) (s.rip + BitVec.ofNat 64 i.len) a ∧
    (accessOf a s i).ss = usesSS (head i) (extB i) a ∧
    ((accessOf a s i).align16 = true ↔ cls i = .sse) ∧
    ((accessOf a s i).checkAC = true ↔ cls i = .mmx) ∧
    ∀ j, (accessOf a s i).need j = true ↔
      s.cfg.faultSuppression = false ∨ evex? i = none ∨
      ∃ e, evex? i = some e ∧ (e.aaa = 0#3 ∨
        if e.bc = true then ∃ j' < width i / elemSize i, (s.readK e.aaa).getLsbD j' = true
        else (s.readK e.aaa).getLsbD (8 * j / elemSize i) = true)

/-- The segment base is FS's under 64H, GS's under 65H and else 0, and the other overrides change neither the address nor the
exception class (20_memory.md R69; the class under 26H, 2EH, 36H, 3EH: assumption log 36). The default segment is SS for base
number 5 without SIB and base numbers 4 and 5 with SIB, and for no other form (20_memory.md R65, R67). -/
def Obligations.SegmentOverride : Prop :=
  (∀ (s : State) (h : Head) (b : Bool) (a : Addr), h.wf = true →
    (Pfx.seg .fs ∈ h.pfx → segBase s h = s.seg.fs.base ∧ usesSS h b a = false) ∧
    (Pfx.seg .gs ∈ h.pfx → segBase s h = s.seg.gs.base ∧ usesSS h b a = false) ∧
    (Pfx.seg .fs ∉ h.pfx → Pfx.seg .gs ∉ h.pfx → segBase s h = 0#64 ∧ usesSS h b a = defaultSS b a)) ∧
  ∀ b : Bool,
    (∀ rm d, defaultSS b (.base rm d) = true ↔ b = false ∧ rm = 5#3) ∧
    (∀ d, defaultSS b (.ripRel d) = false) ∧
    (∀ sc ix bs d, defaultSS b (.sib sc ix bs d) = true ↔ b = false ∧ (bs = 4#3 ∨ bs = 5#3)) ∧
    ∀ sc ix d, defaultSS b (.sibNoBase sc ix d) = false

/-- A canonical address has bits 63 down to `va - 1` all equal (20_memory.md R69). -/
def Obligations.CanonicalMeansEqualTopBits : Prop :=
  ∀ (va : Nat) (a : Word), 1 ≤ va → va ≤ 64 →
    (canonical va a = true ↔ ∀ j, va - 1 ≤ j → j < 64 → a.getLsbD j = a.getLsbD 63)

/-- Under 67H the address is the sum, modulo 2^32, of the low 32 bits of its parts, zero-extended (20_memory.md R70). -/
def Obligations.AddressSize32 : Prop :=
  ∀ (s : State) (h : Head) (x b : Bool) (n8 : Nat) (next : Word), Pfx.addrSize ∈ h.pfx →
    (∀ rm d, effAddr s h x b n8 next (.base rm d) =
      ((s.readGpr (num4 b rm)).setWidth 32 + (dispValue n8 d).setWidth 32).setWidth 64) ∧
    (∀ d, effAddr s h x b n8 next (.ripRel d) = ((next + d.signExtend 64).setWidth 32).setWidth 64) ∧
    (∀ sc ix bs d, effAddr s h x b n8 next (.sib sc ix bs d) =
      ((s.readGpr (num4 b bs)).setWidth 32 +
        (if num4 x ix = 4#4 then 0#32 else (s.readGpr (num4 x ix)).setWidth 32 <<< sc.toNat) +
        (dispValue n8 d).setWidth 32).setWidth 64) ∧
    (∀ sc ix d, effAddr s h x b n8 next (.sibNoBase sc ix d) =
      ((if num4 x ix = 4#4 then 0#32 else (s.readGpr (num4 x ix)).setWidth 32 <<< sc.toNat) + d).setWidth 64)

/-! ## Exceptions -/

/-- LOCK before any form, and 66H, F2H, F3H or REX before a VEX or EVEX prefix, raise #UD (60_exceptions.md R194). -/
def Obligations.ForbiddenPrefixIsUd : Prop :=
  ∀ (i : Instr) (s : State),
    Pfx.lock ∈ (head i).pfx ∨
      ((cls i = .vex ∨ cls i = .evex) ∧
        (Pfx.opSize ∈ (head i).pfx ∨ Pfx.repne ∈ (head i).pfx ∨ Pfx.rep ∈ (head i).pfx ∨ (head i).rex ≠ none)) →
    exec i s = .fault .ud

/-- A missing CPUID flag of the form raises #UD (60_exceptions.md R195, 00_scope.md R2). -/
def Obligations.MissingFeatureIsUd : Prop :=
  ∀ (i : Instr) (s : State), featuresPresent s.cfg i = false → exec i s = .fault .ud

/-- The control state that raises #UD, by form; CR0.EM does not matter to the VEX and EVEX forms (60_exceptions.md R193). -/
def Obligations.ControlStateIsUd : Prop :=
  ∀ (i : Instr) (s : State),
    (cls i = .mmx → s.ctl.cr0.getLsbD 2 = true → exec i s = .fault .ud) ∧
    (cls i = .sse → s.ctl.cr0.getLsbD 2 = true ∨ s.ctl.cr4.getLsbD 9 = false → exec i s = .fault .ud) ∧
    (cls i = .vex → s.ctl.cr4.getLsbD 18 = false ∨ s.ctl.xcr0.extractLsb' 1 2 ≠ 3#2 → exec i s = .fault .ud) ∧
    (cls i = .evex → s.ctl.cr4.getLsbD 18 = false ∨ s.ctl.xcr0.extractLsb' 1 2 ≠ 3#2 ∨
      s.ctl.xcr0.extractLsb' 5 3 ≠ 7#3 → exec i s = .fault .ud) ∧
    (cls i = .vex ∨ cls i = .evex → ∀ c : BitVec 64, (∀ j, j ≠ 2 → c.getLsbD j = s.ctl.cr0.getLsbD j) →
      exec i { s with ctl := { s.ctl with cr0 := c } } =
        mapNext (fun t => { t with ctl := { t.ctl with cr0 := c } }) (exec i s))

/-- The reserved EVEX fields (60_exceptions.md R196): `z = 1` with `aaa = 000` and `b = 1` with a register operand raise #UD,
so does `L'L = 11` in 64-bit mode, after any prefixes of which no group has two; with `P0[3:2]` not 00 or `P1[2] = 0` the bytes
are refused (30_encoding.md R119). The decoder answers #UD for an EVEX prefix with `P0[3:2] = 00`, `mm = 01`, `P1[2] = 1`,
`pp = 01`, `L'L = 11` and opcode DFH and for no other bytes (R118, step 6). That `L'L = 11` raises #UD whatever follows the
opcode byte, with the placement of the bytes up to it checked only, is the model's choice, assumption log 34; so are that a
forbidden prefix before the refused bytes leaves them refused, log 17, and that bytes with two prefixes of a group or a misplaced
REX are refused and not #UD, log 37. -/
def Obligations.ReservedEvexFields : Prop :=
  (∀ (i : Instr) (e : Evex) (s : State), evex? i = some e →
    (e.z = true ∧ e.aaa = 0#3) ∨ (e.bc = true ∧ ∃ rm, (operands i).rm = .reg rm) → exec i s = .fault .ud) ∧
  (∀ (h : Head) (p0 p1 p2 op : Byte) (rest : List Byte), h.wf = true → p0.extractLsb' 2 2 ≠ 0#2 ∨ p1.getLsbD 2 = false →
    decode (h.bytes ++ 0x62#8 :: p0 :: p1 :: p2 :: op :: rest) = .refuse .reservedEvex) ∧
  (∀ (h : Head) (p0 p1 p2 : Byte) (rest : List Byte) (s : State), h.wf = true → p0.extractLsb' 0 4 = 1#4 →
    p1.extractLsb' 0 3 = 5#3 → p2.extractLsb' 5 2 = 3#2 →
    s.fetch = h.bytes ++ 0x62#8 :: p0 :: p1 :: p2 :: 0xDF#8 :: rest → s.mode = .m64 →
    s.placed (h.len + 5) = true → step s = .fault .ud) ∧
  ∀ (bs : List Byte) (n : Nat), decode bs = .ud n ↔
    ∃ (h : Head) (p0 p1 p2 : Byte) (rest : List Byte), h.wf = true ∧ n = h.len + 5 ∧
      bs = h.bytes ++ 0x62#8 :: p0 :: p1 :: p2 :: 0xDF#8 :: rest ∧
      p0.extractLsb' 0 4 = 1#4 ∧ p1.extractLsb' 0 3 = 5#3 ∧ p2.extractLsb' 5 2 = 3#2

/-- A VEX or EVEX form in real-address or virtual-8086 mode raises #UD; the MMX and XMM forms with a register operand complete
whatever the mode (60_exceptions.md R197). This is said of `exec`: the step refuses every mode but 64-bit mode (20_memory.md
R71, D2), and that `exec` runs register forms in the others is the model's choice, assumption log 31. -/
def Obligations.VexNeedsProtectedMode : Prop :=
  (∀ (i : Instr) (s : State), cls i = .vex ∨ cls i = .evex → s.mode = .real ∨ s.mode = .virtual8086 →
    exec i s = .fault .ud) ∧
  ∀ (i : Instr) (s : State) (rm : BitVec 3), cls i = .mmx ∨ cls i = .sse → (operands i).rm = .reg rm →
    noExc i s = true → ∃ t, exec i s = .next t

/-- With CR0.TS = 1 every form raises #NM, unless it raises #UD (60_exceptions.md R198, R204). -/
def Obligations.TaskSwitchedIsNm : Prop :=
  ∀ (i : Instr) (s : State), s.ctl.cr0.getLsbD 3 = true → exec i s = .fault (if noUd i s = true then .nm else .ud)

/-- #MF: the MMX form raises it when an x87 exception is pending, and no other form ever does (60_exceptions.md R199). -/
def Obligations.PendingX87IsMf : Prop :=
  (∀ (h : Head) (o : ModRm) (s : State), noUd (.pandnMm h o) s = true → s.ctl.cr0.getLsbD 3 = false →
    s.x87.fsw.getLsbD 7 = true → exec (.pandnMm h o) s = .fault .mf) ∧
  ∀ (i : Instr) (s : State), exec i s = .fault .mf → cls i = .mmx ∧ s.x87.fsw.getLsbD 7 = true

/-- #AC(0): only the MMX form raises it, and only when CR0.AM = 1, EFLAGS.AC = 1, CPL = 3 and the operand's address is no
multiple of 8; it does raise it then when no other exception condition holds (60_exceptions.md R203, R204). -/
def Obligations.AlignmentCheckIsAc : Prop :=
  (∀ (i : Instr) (s : State), exec i s = .fault .ac0 →
    cls i = .mmx ∧ s.ctl.cr0.getLsbD 18 = true ∧ s.rflags.getLsbD 18 = true ∧ s.ctl.cpl = 3#2 ∧
      ∃ q, access i s = some q ∧ q.la.toNat % 8 ≠ 0) ∧
  ∀ (h : Head) (reg : BitVec 3) (a : Addr) (s : State), s.mode = .m64 →
    preFault .mmx s.cfg.mmx 64 false h s = none →
    addrFault s (accessOf a s (.pandnMm h ⟨reg, .mem a⟩)) = none →
    pageFault s (accessOf a s (.pandnMm h ⟨reg, .mem a⟩)) = none →
    s.ctl.cr0.getLsbD 18 = true → s.rflags.getLsbD 18 = true → s.ctl.cpl = 3#2 →
    (accessOf a s (.pandnMm h ⟨reg, .mem a⟩)).la.toNat % 8 ≠ 0 →
    exec (.pandnMm h ⟨reg, .mem a⟩) s = .fault .ac0

/-- #PF(ec): the error code says a read (W/R = 0, I/D = 0) and whether CPL = 3, and CR2's value is the address of a byte of the
operand that must be readable and is not, whose cause the other bits give (60_exceptions.md R202; which byte, when several
fault, is free: assumption log 22). -/
def Obligations.PageFaultReport : Prop :=
  ∀ (i : Instr) (s : State) (ec : BitVec 6) (cr2 : Word), exec i s = .fault (.pf ec cr2) →
    ec.getLsbD 1 = false ∧ ec.getLsbD 4 = false ∧ ec.getLsbD 2 = decide (s.ctl.cpl = 3#2) ∧
    ∃ q j, access i s = some q ∧ j < q.bytes ∧ q.need j = true ∧ cr2 = q.la + BitVec.ofNat 64 j ∧
      ∃ u ∈ s.plat.now.unreadable, u.covers s.user cr2.toNat = true ∧
        ec.getLsbD 0 = u.present ∧ ec.getLsbD 3 = u.reserved ∧ ec.getLsbD 5 = u.protectionKey

/-- The priority of R204 with `EXC_PRIORITY` in order, for an instruction with memory operand `q` in 64-bit mode: #UD, #NM,
#MF, then #SS(0) or #GP(0) for a non-canonical byte, #GP(0) for a misaligned legacy-SSE operand, #PF, #AC(0)
(60_exceptions.md R193 to R204). Each exception has its vector number and error code (R191). -/
def Obligations.ExceptionPriority : Prop :=
  (∀ (i : Instr) (s : State) (q : Access) (f : Fault), access i s = some q → s.mode = .m64 →
    s.cfg.excPriority = .inOrder →
    (exec i s = .fault f ↔
      if noUd i s = false then f = .ud
      else if s.cr0TS = true then f = .nm
      else if cls i = .mmx ∧ s.fswES = true then f = .mf
      else if ∃ j < q.bytes, q.need j = true ∧ canonical s.cfg.vaBits (q.la + BitVec.ofNat 64 j) = false then
        f = if q.ss = true then .ss0 else .gp0
      else if cls i = .sse ∧ q.la.toNat % 16 ≠ 0 then f = .gp0
      else if (pageFault s q).isSome then pageFault s q = some f
      else cls i = .mmx ∧ s.alignCheck = true ∧ q.la.toNat % 8 ≠ 0 ∧ f = .ac0)) ∧
  (Fault.vector .ud = 6 ∧ Fault.errorCode .ud = none) ∧ (Fault.vector .nm = 7 ∧ Fault.errorCode .nm = none) ∧
  (Fault.vector .ss0 = 12 ∧ Fault.errorCode .ss0 = some 0#6) ∧ (Fault.vector .gp0 = 13 ∧ Fault.errorCode .gp0 = some 0#6) ∧
  (∀ ec cr2, Fault.vector (.pf ec cr2) = 14 ∧ Fault.errorCode (.pf ec cr2) = some ec) ∧
  (Fault.vector .mf = 16 ∧ Fault.errorCode .mf = none) ∧ (Fault.vector .ac0 = 17 ∧ Fault.errorCode .ac0 = some 0#6)

/-- Whichever exception `EXC_PRIORITY` reports is one that holds: the one that is raised before any address is formed, which
does not depend on the parameter, or one of the operand's whose condition holds; and whether one is raised at all does not
depend on the parameter (60_exceptions.md R204). -/
def Obligations.AnyPriorityReportsOneThatHolds : Prop :=
  ∀ (i : Instr) (s : State) (p : ExcPriority) (f : Fault),
    exec i { s with cfg := { s.cfg with excPriority := p } } = .fault f →
    (∃ g, exec i s = .fault g) ∧
    (((f = .ud ∨ f = .nm ∨ f = .mf) ∧ exec i s = .fault f) ∨ ∃ q, access i s = some q ∧ f ∈ operandFaults s q)

/-- In 64-bit mode an instruction raises no exception exactly when the premise of R212 holds; its item 5 is void, since every
register holds a value in the model (60_exceptions.md R212; assumption log 1). -/
def Obligations.NoExceptionIff : Prop :=
  ∀ (i : Instr) (s : State), s.mode = .m64 → ((∀ f, exec i s ≠ .fault f) ↔ noExc i s = true)

/-- An instruction is refused in two cases only, and only when it raises no exception first: a memory operand outside 64-bit
mode, where the spec gives no address rules (20_memory.md R71), and one of which a byte lies in a device region, whatever the
mask (20_memory.md R60; after every exception: assumption log 21). -/
def Obligations.RefusalsOfAnInstruction : Prop :=
  ∀ (i : Instr) (s : State) (r : Refusal), exec i s = .refused r ↔
    noUd i s = true ∧ s.cr0TS = false ∧ (cls i = .mmx → s.fswES = false) ∧
    ∃ q, access i s = some q ∧
      ((s.mode ≠ .m64 ∧ r = .modeNot64) ∨
        (s.mode = .m64 ∧ operandOk (cls i) q s = true ∧ r = .deviceOperand ∧
          ∃ j < q.bytes, ∃ d ∈ s.plat.device, d.base ≤ (q.la + BitVec.ofNat 64 j).toNat ∧
            (q.la + BitVec.ofNat 64 j).toNat < d.base + d.size))

/-- An instruction with a register operand raises the same exception, or completes with the same effect, at every CPL and
leaves CPL alone; with a memory operand only CPL = 3 or not matters (60_exceptions.md R215, R202, R203). -/
def Obligations.PrivilegeOnlyThroughMemory : Prop :=
  ∀ (i : Instr) (s : State) (c : BitVec 2), access i s = none ∨ (c = 3#2 ↔ s.ctl.cpl = 3#2) →
    exec i { s with ctl := { s.ctl with cpl := c } } =
      mapNext (fun t => { t with ctl := { t.ctl with cpl := c } }) (exec i s)

/-- Fault suppression only takes exceptions away and never changes a value. With it, an EVEX form with a writemask whose operand
lies outside the device regions completes exactly when every byte of the operand whose element has mask bit 1 (of a broadcast
element: when some mask bit below `KL` is 1) is canonical and is not answered with a page fault, whatever its other bytes are
(20_memory.md R79, R60). That the canonical check is lifted for masked-off bytes too is 60_exceptions.md R212 (assumption
log 28). -/
def Obligations.FaultSuppression : Prop :=
  (∀ (i : Instr) (s t : State), exec i { s with cfg := { s.cfg with faultSuppression := false } } = .next t →
    exec i { s with cfg := { s.cfg with faultSuppression := true } } =
      .next { t with cfg := { t.cfg with faultSuppression := true } }) ∧
  ∀ (i : Instr) (e : Evex) (s : State), evex? i = some e → s.cfg.faultSuppression = true → s.mode = .m64 →
    noUd i s = true → s.cr0TS = false → e.aaa ≠ 0#3 →
    (∀ q, access i s = some q → touchesDevice s q = false) →
    ((∃ t, exec i s = .next t) ↔ ∀ q, access i s = some q → ∀ j < q.bytes,
      (if e.bc = true then ∃ j' < width i / elemSize i, (s.readK e.aaa).getLsbD j' = true
        else (s.readK e.aaa).getLsbD (8 * j / elemSize i) = true) →
      canonical s.cfg.vaBits (q.la + BitVec.ofNat 64 j) = true ∧ s.pageFaultAt (q.la + BitVec.ofNat 64 j) = none)

/-! ## Encoding -/

/-- Decoding the encoding of a well-formed instruction gives it back, whatever follows (30_encoding.md R118). -/
def Obligations.DecodeOfEncode : Prop :=
  ∀ (i : Instr) (rest : List Byte), i.wf = true → decode (encode i ++ rest) = .instr i rest

/-- What the decoder accepts is the encoding of the well-formed instruction it answers, and nothing is lost
(30_encoding.md R118). -/
def Obligations.EncodeOfDecode : Prop :=
  ∀ (bs rest : List Byte) (i : Instr), decode bs = .instr i rest → encode i ++ rest = bs ∧ i.wf = true

/-- The bytes of an encoding are as many as its length says, and the admitted encodings, those without a prefix that raises
#UD, have 3 to 12 (LEG), 4 to 12 (VEX) and 6 to 13 (EVEX) bytes (30_encoding.md R117). -/
def Obligations.EncodingLengths : Prop :=
  (∀ i : Instr, (encode i).length = i.len) ∧
  ∀ i : Instr, i.wf = true → legal i = true →
    match cls i with
    | .mmx => 3 ≤ i.len ∧ i.len ≤ 12
    | .sse => 4 ≤ i.len ∧ i.len ≤ 12
    | .vex => 4 ≤ i.len ∧ i.len ≤ 12
    | .evex => 6 ≤ i.len ∧ i.len ≤ 13

/-- F2H or F3H among the prefixes of `0F DF`, with or without 66H, are refused (30_encoding.md R86). Two prefixes of one group
are refused (R84) whatever follows them: also where R101, R112 or R119 give #UD for one of them (66 66 before C5H, F0 F0 before
0F DF), which is the model's choice, assumption log 37. -/
def Obligations.PrefixesRefused : Prop :=
  (∀ (h : Head) (rest : List Byte), h.wf = true → Pfx.repne ∈ h.pfx ∨ Pfx.rep ∈ h.pfx →
    decode (h.bytes ++ 0x0F#8 :: 0xDF#8 :: rest) = .refuse .repBeforeLeg) ∧
  ∀ (ps : List Pfx) (rest : List Byte), onePerGroup ps = false →
    decode (ps.map Pfx.byte ++ rest) = .refuse .repeatedPfx

/-- The bytes of every encoding match the window of its row of the opcode table (30_encoding.md R115, R125). -/
def Obligations.WindowMatchesTable : Prop :=
  ∀ i : Instr, List.zipWith (fun m b => m &&& b) (rowMask i) (window i) = rowMatch i

/-- Words written out from the encodings of 30_encoding.md R115 and decoded: one for each of the ten rows. -/
def Obligations.DecodesWrittenWords : Prop :=
  decode [0x0F#8, 0xDF#8, 0xCA#8] = .instr (.pandnMm ⟨[], none⟩ ⟨1, .reg 2⟩) [] ∧
  decode [0x66#8, 0x0F#8, 0xDF#8, 0xC1#8] = .instr (.pandnXmm ⟨[.opSize], none⟩ ⟨0, .reg 1⟩) [] ∧
  decode [0xC5#8, 0xE9#8, 0xDF#8, 0xCB#8] = .instr (.vpandn128 ⟨[], none⟩ ⟨false, 2, .two⟩ ⟨1, .reg 3⟩) [] ∧
  decode [0xC5#8, 0xED#8, 0xDF#8, 0xCB#8] = .instr (.vpandn256 ⟨[], none⟩ ⟨false, 2, .two⟩ ⟨1, .reg 3⟩) [] ∧
  decode [0x62#8, 0xF1#8, 0x6D#8, 0x09#8, 0xDF#8, 0xCB#8] =
    .instr (.vpandnd128 ⟨[], none⟩ ⟨false, false, false, false, 2, false, false, 1⟩ ⟨1, .reg 3⟩) [] ∧
  decode [0x62#8, 0xF1#8, 0x6D#8, 0xA9#8, 0xDF#8, 0xCB#8] =
    .instr (.vpandnd256 ⟨[], none⟩ ⟨false, false, false, false, 2, true, false, 1⟩ ⟨1, .reg 3⟩) [] ∧
  decode [0x62#8, 0xF1#8, 0x6D#8, 0x58#8, 0xDF#8, 0x0B#8] =
    .instr (.vpandnd512 ⟨[], none⟩ ⟨false, false, false, false, 2, false, true, 0⟩ ⟨1, .mem (.base 3 .none)⟩) [] ∧
  decode [0x62#8, 0xF1#8, 0xED#8, 0x0A#8, 0xDF#8, 0xCB#8] =
    .instr (.vpandnq128 ⟨[], none⟩ ⟨false, false, false, false, 2, false, false, 2⟩ ⟨1, .reg 3⟩) [] ∧
  decode [0x62#8, 0xF1#8, 0xED#8, 0xBA#8, 0xDF#8, 0x4A#8, 0x01#8] =
    .instr (.vpandnq256 ⟨[], none⟩ ⟨false, false, false, false, 2, true, true, 2⟩ ⟨1, .mem (.base 2 (.d8 1))⟩) [] ∧
  decode [0x62#8, 0xF1#8, 0xD5#8, 0x48#8, 0xDF#8, 0x20#8] =
    .instr (.vpandnq512 ⟨[], none⟩ ⟨false, false, false, false, 5, false, false, 0⟩ ⟨4, .mem (.base 0 .none)⟩) []

/-- Bits that an encoding carries and the form ignores: REX.R and REX.B for the MMX register numbers, REX.W and (with a
register operand) REX.X for the legacy forms, W of the 3-byte VEX prefix (30_encoding.md R88, R89, R98). -/
def Obligations.IgnoredBits : Prop :=
  (∀ (ps : List Pfx) (x y : Rex) (o : ModRm) (s : State), (∃ rm, o.rm = .reg rm) ∨ (x.x = y.x ∧ x.b = y.b) →
    exec (.pandnMm ⟨ps, some x⟩ o) s = exec (.pandnMm ⟨ps, some y⟩ o) s) ∧
  (∀ (ps : List Pfx) (x y : Rex) (o : ModRm) (s : State), x.r = y.r → x.b = y.b → (∃ rm, o.rm = .reg rm) ∨ x.x = y.x →
    exec (.pandnXmm ⟨ps, some x⟩ o) s = exec (.pandnXmm ⟨ps, some y⟩ o) s) ∧
  ∀ (h : Head) (r x b w w' : Bool) (n : BitVec 4) (o : ModRm) (s : State),
    exec (.vpandn128 h ⟨r, n, .three x b w⟩ o) s = exec (.vpandn128 h ⟨r, n, .three x b w'⟩ o) s ∧
    exec (.vpandn256 h ⟨r, n, .three x b w⟩ o) s = exec (.vpandn256 h ⟨r, n, .three x b w'⟩ o) s

/-! ## Steps, runs, reset -/

/-- A step runs the decoded instruction: in 64-bit mode, where its bytes and the address after them are canonical, it is `exec`
of it and nothing else (00_scope.md R16) but that the read oracle's answer to the next execution is due: the next of its
answers, or the last one again when they are used up (20_memory.md R57, R73; assumption log 8). -/
def Obligations.StepRunsDecoded : Prop :=
  ∀ (s : State) (i : Instr) (rest : List Byte), decode s.fetch = .instr i rest → s.mode = .m64 →
    s.placed i.len = true →
    step s = mapNext (fun t => { t with
      plat := ⟨t.plat.later.headD t.plat.now, t.plat.later.tail, t.plat.device⟩ }) (exec i s)

/-- Where memory holds the encoding of a well-formed instruction at `rip`, the step runs that instruction, and the oracle's next
answer is due. -/
def Obligations.StepRunsInstructionInMemory : Prop :=
  ∀ (s : State) (i : Instr), i.wf = true → s.mode = .m64 → s.placed i.len = true →
    (∀ j < i.len, some (s.byteAt (s.rip + BitVec.ofNat 64 j)) = (encode i)[j]?) →
    step s = mapNext State.nextAnswer (exec i s)

/-- A step refuses outside 64-bit mode (20_memory.md R71); the bytes that the decoder refuses, by the decoder's reason
(30_encoding.md R118); and an encoding any of whose bytes, or the address after it, is not canonical or lies past 2^64
(10_state.md R31, U17), of the `L'L = 11` encoding the bytes up to the opcode byte (assumption log 34). -/
def Obligations.StepRefusals : Prop :=
  (∀ s : State, s.mode ≠ .m64 → step s = .refused .modeNot64) ∧
  (∀ (s : State) (r : Reject), s.mode = .m64 → decode s.fetch = .refuse r → step s = .refused (.bytes r)) ∧
  ∀ (s : State) (n : Nat), s.mode = .m64 →
    ((∃ i rest, decode s.fetch = .instr i rest ∧ n = i.len) ∨ decode s.fetch = .ud n) →
    2 ^ 64 ≤ s.rip.toNat + n ∨ (∃ j ≤ n, canonical s.cfg.vaBits (s.rip + BitVec.ofNat 64 j) = false) →
    step s = .refused .placedNonCanonical

/-- A program in memory, its encodings back to back from `rip`, runs its instructions in order and ends where R19 says: normally
at the address after them, else at the first exception or refusal, with the state before that instruction (00_scope.md R19,
60_exceptions.md R206, R208). Each execution has the read oracle's next answer (20_memory.md R73), and the program's bytes do
not change (R76). -/
def Obligations.ProgramRunsInOrder : Prop :=
  ∀ (prog : List Instr) (s : State) (n : Nat), (∀ i ∈ prog, i.wf = true) → s.mode = .m64 →
    s.rip.toNat + (bytesOf prog).length < 2 ^ 64 → prog.length ≤ n →
    (∀ j ≤ (bytesOf prog).length, canonical s.cfg.vaBits (s.rip + BitVec.ofNat 64 j) = true) →
    (∀ j < (bytesOf prog).length, some (s.byteAt (s.rip + BitVec.ofNat 64 j)) = (bytesOf prog)[j]?) →
    run (s.rip + BitVec.ofNat 64 (bytesOf prog).length) n s = runList prog s

/-- The invariant of the model's containers: memory is in its canonical form, no bit at `MAXVL` or above exists in a vector
register (10_state.md R20, R22), `KW` is at least 16 and no opmask register has a bit at `KW` or above (00_scope.md R9). Every
step keeps it, from every state that has it. -/
def Obligations.InvariantKept : Prop :=
  ∀ s t : State, Inv s → step s = .next t → Inv t

/-- The invariant holds after reset. -/
def Obligations.InvariantAtReset : Prop := Inv State.reset

/-- The values that registers hold after RESET by the table of 10_state.md R45. That they hold values at all is the model's choice,
assumption log 1: R44 and R46 decide that a run starts with none. RAX is that of a passed self test (assumption log 3); RDX's
signature (log 2) and the access rights, L and D of the segments (log 4), which R45 does not give, are left out. -/
def Obligations.ResetValues : Prop :=
  (∀ n, State.reset.readZmm n = 0#512) ∧ (∀ n, State.reset.readK n = 0) ∧ (∀ n, State.reset.readMm n = 0#64) ∧
  State.reset.x87.tag = 0x5555#16 ∧ State.reset.x87.fsw = 0#16 ∧ State.reset.mxcsr = 0x1F80#32 ∧
  State.reset.rflags = 2#64 ∧ State.reset.rip = 0xFFF0#64 ∧
  (∀ n, n ≠ 2#4 → State.reset.readGpr n = 0#64) ∧
  State.reset.ctl.cr0 = 0x60000010#64 ∧ State.reset.ctl.cr2 = 0#64 ∧ State.reset.ctl.cr3 = 0#64 ∧
  State.reset.ctl.cr4 = 0#64 ∧ State.reset.ctl.xcr0 = 1#64 ∧ State.reset.ctl.efer = 0#64 ∧ State.reset.ctl.cpl = 0#2 ∧
  State.reset.seg.cs.selector = 0xF000#16 ∧ State.reset.seg.cs.base = 0xFFFF0000#64 ∧
  State.reset.seg.cs.limit = 0xFFFF#32 ∧
  (∀ g ∈ [State.reset.seg.ds, State.reset.seg.es, State.reset.seg.fs, State.reset.seg.gs, State.reset.seg.ss],
    g.selector = 0#16 ∧ g.base = 0#64 ∧ g.limit = 0xFFFF#32) ∧
  State.reset.mode = .real

/-- After INIT (10_state.md R45, second column) the vector, opmask and MMX registers, the x87 state, MXCSR and XCR0 are
unchanged; CR0 has the reset value but for bits 30 and 29, which are kept (CD and NW: assumption log 25); RIP, RFLAGS, CR2, CR3,
CR4, IA32_EFER, CPL, the general registers but RDX, and the selector, base and limit of each segment have the reset values (the
segments' access rights, L and D, which R45 does not give, are left out: log 4). -/
def Obligations.InitValues : Prop :=
  ∀ s : State, s.afterInit.zmm = s.zmm ∧ s.afterInit.k = s.k ∧ s.afterInit.mm = s.mm ∧ s.afterInit.x87 = s.x87 ∧
    s.afterInit.mxcsr = s.mxcsr ∧ s.afterInit.ctl.xcr0 = s.ctl.xcr0 ∧
    (∀ j, s.afterInit.ctl.cr0.getLsbD j =
      if j = 30 ∨ j = 29 then s.ctl.cr0.getLsbD j else (0x60000010#64).getLsbD j) ∧
    s.afterInit.rip = 0xFFF0#64 ∧ s.afterInit.rflags = 2#64 ∧ s.afterInit.ctl.cr2 = 0#64 ∧ s.afterInit.ctl.cr3 = 0#64 ∧
    s.afterInit.ctl.cr4 = 0#64 ∧ s.afterInit.ctl.efer = 0#64 ∧ s.afterInit.ctl.cpl = 0#2 ∧
    s.afterInit.seg.cs.selector = 0xF000#16 ∧ s.afterInit.seg.cs.base = 0xFFFF0000#64 ∧
    s.afterInit.seg.cs.limit = 0xFFFF#32 ∧
    (∀ g ∈ [s.afterInit.seg.ds, s.afterInit.seg.es, s.afterInit.seg.fs, s.afterInit.seg.gs, s.afterInit.seg.ss],
      g.selector = 0#16 ∧ g.base = 0#64 ∧ g.limit = 0xFFFF#32) ∧
    ∀ n, n ≠ 2#4 → s.afterInit.readGpr n = 0#64

/-- Directly after reset only the MMX form executes without #UD (10_state.md section 9, consequence). This is said of `exec` and is
the model's choice: the step refuses real-address mode (assumption log 31), the registers hold values (log 1), and the MMX
flag is present in the reference parameters (log 7). -/
def Obligations.OnlyMmxRunsAtReset : Prop :=
  (∀ i : Instr, cls i ≠ .mmx → exec i State.reset = .fault .ud) ∧
  ∀ (h : Head) (reg rm : BitVec 3), Pfx.lock ∉ h.pfx → ∃ t, exec (.pandnMm h ⟨reg, .reg rm⟩) State.reset = .next t

/-- After the initialisation of 70_reset_and_hazards.md R232, from any state whose features allow it, every instruction with a
register operand and no reserved encoding completes, in 64-bit mode. The launch state has the bits that R232 asks for; that
paging is CR0 bit 31 and LME IA32_EFER bit 8 is the model's choice (assumption log 10). -/
def Obligations.LaunchedStateRuns : Prop :=
  (∀ (i : Instr) (s : State) (rm : BitVec 3), legal i = true → featuresPresent s.cfg i = true →
    width i ≤ maxvl s.cfg → (operands i).rm = .reg rm →
    s.launch.mode = .m64 ∧ ∃ t, exec i s.launch = .next t) ∧
  ∀ s : State, (∀ j ∈ [0, 31], s.launch.ctl.cr0.getLsbD j = true) ∧ (∀ j ∈ [2, 3], s.launch.ctl.cr0.getLsbD j = false) ∧
    (∀ j ∈ [9, 18], s.launch.ctl.cr4.getLsbD j = true) ∧ (∀ j ∈ [0, 1, 2, 5, 6, 7], s.launch.ctl.xcr0.getLsbD j = true) ∧
    (∀ j ∈ [8, 10], s.launch.ctl.efer.getLsbD j = true) ∧ s.launch.seg.cs.l = true ∧
    s.launch.rflags.getLsbD 17 = false ∧ s.launch.x87.fsw.getLsbD 7 = false
end

