-- ==== Sys2Proof/Laws/Decode.lean ====
section
/-! SUPPORT. The parts of the decoder and of the encoder undo each other, one lemma for each part and direction. -/

namespace Sys2Proof

/-! ## Prefix and REX bytes -/

@[simp] theorem pfx_ofByte_byte (p : Pfx) : Pfx.ofByte p.byte = some p := by
  cases p with
  | seg o => cases o <;> rfl
  | _ => rfl

theorem pfx_byte_of_ofByte {b : Byte} {p : Pfx} (h : Pfx.ofByte b = some p) : p.byte = b := by
  simpa using List.find?_some h

@[simp] theorem rex_ofByte_byte (x : Rex) : Rex.ofByte x.byte = some x := by
  rcases x with ⟨w, r, x, b⟩
  cases w <;> cases r <;> cases x <;> cases b <;> rfl

theorem rex_byte_of_ofByte {b : Byte} {x : Rex} (h : Rex.ofByte b = some x) : x.byte = b := by
  have key : ∀ b : Byte, ∀ x ∈ Rex.ofByte b, x.byte = b := by decide +kernel
  exact key b x h

@[simp] theorem pfx_ofByte_rex (x : Rex) : Pfx.ofByte x.byte = none := by
  rcases x with ⟨w, r, x, b⟩
  cases w <;> cases r <;> cases x <;> cases b <;> rfl

/-- The prefixes end at the first byte that is none. -/
theorem takePfx_bytes (ps : List Pfx) {b : Byte} (bs : List Byte) (hb : Pfx.ofByte b = none) :
    takePfx (ps.map Pfx.byte ++ b :: bs) = (ps, b :: bs) := by
  induction ps with
  | nil => simp [takePfx, hb]
  | cons p ps ih => simp [takePfx, ih]

/-- The prefixes read are the bytes read. -/
theorem takePfx_spec (bs : List Byte) : (takePfx bs).1.map Pfx.byte ++ (takePfx bs).2 = bs := by
  induction bs with
  | nil => rfl
  | cons b bs ih =>
    simp only [takePfx]
    cases h : Pfx.ofByte b with
    | none => rfl
    | some p => simp [pfx_byte_of_ofByte h, ih]

/-- The prefixes and the REX byte of a head are read back before a byte that is neither. -/
theorem takeHead_bytes (h : Head) {b : Byte} (bs : List Byte) (hp : Pfx.ofByte b = none) (hr : Rex.ofByte b = none) :
    takePfx (h.bytes ++ b :: bs) = (h.pfx, (match h.rex with | none => [] | some x => [x.byte]) ++ b :: bs) ∧
    takeRex ((match h.rex with | none => [] | some x => [x.byte]) ++ b :: bs) = (h.rex, b :: bs) := by
  rcases h with ⟨ps, rex⟩
  cases rex with
  | none => exact ⟨by simpa [Head.bytes] using takePfx_bytes ps bs hp, by simp [takeRex, hr]⟩
  | some x =>
    exact ⟨by simpa [Head.bytes] using takePfx_bytes ps (b :: bs) (pfx_ofByte_rex x), by simp [takeRex]⟩

/-- The head read is the bytes read. -/
theorem takeHead_spec (bs : List Byte) :
    Head.bytes ⟨(takePfx bs).1, (takeRex (takePfx bs).2).1⟩ ++ (takeRex (takePfx bs).2).2 = bs := by
  have key : ∀ cs : List Byte,
      (match (takeRex cs).1 with | none => [] | some x => [x.byte]) ++ (takeRex cs).2 = cs := by
    intro cs
    cases cs with
    | nil => rfl
    | cons c cs =>
      simp only [takeRex]
      cases h : Rex.ofByte c with
      | none => rfl
      | some x => simp [rex_byte_of_ofByte h]
  have := takePfx_spec bs
  rw [← key (takePfx bs).2] at this
  rw [Head.bytes, List.append_assoc]
  exact this

theorem head_bytes_length (h : Head) : h.bytes.length = h.len := by
  rcases h with ⟨ps, rex⟩
  cases rex <;> simp [Head.bytes, Head.len]

/-! ## Displacement, SIB and ModRM -/

/-- The four bytes of a displacement, put together, are the displacement. -/
theorem bytes32_join (v : BitVec 32) :
    v.extractLsb' 24 8 ++ v.extractLsb' 16 8 ++ v.extractLsb' 8 8 ++ v.extractLsb' 0 8 = v := by
  apply BitVec.eq_of_getLsbD_eq
  intro i hi
  simp only [BitVec.getLsbD_append, BitVec.getLsbD_extractLsb']
  by_cases h1 : i < 8
  · simp [h1]
  · by_cases h2 : i < 16
    · simp [h1, show i - 8 < 8 by omega, show 8 + (i - 8) = i by omega]
    · by_cases h3 : i < 24
      · simp [h1, show ¬ i - 8 < 8 by omega, show i - 8 - 8 < 8 by omega, show 16 + (i - 8 - 8) = i by omega]
      · simp [h1, show ¬ i - 8 < 8 by omega, show ¬ i - 8 - 8 < 8 by omega, show i - 8 - 8 - 8 < 8 by omega,
          show 24 + (i - 8 - 8 - 8) = i by omega]

theorem bytes32_of_join (b0 b1 b2 b3 : Byte) : bytes32 (b3 ++ b2 ++ b1 ++ b0) = [b0, b1, b2, b3] := by
  simp only [bytes32, List.cons.injEq, and_true]
  refine ⟨?_, ?_, ?_, ?_⟩
  all_goals
    apply BitVec.eq_of_getLsbD_eq
    intro i hi
    simp only [BitVec.getLsbD_append, BitVec.getLsbD_extractLsb', hi, decide_true, Bool.true_and]
  · rw [if_pos (by omega), Nat.zero_add]
  · rw [if_neg (by omega), if_pos (by omega)]; congr 1; omega
  · rw [if_neg (by omega), if_neg (by omega), if_pos (by omega)]; congr 1; omega
  · rw [if_neg (by omega), if_neg (by omega), if_neg (by omega)]; congr 1; omega

@[simp] theorem take32_bytes32 (v : BitVec 32) (bs : List Byte) : take32 (bytes32 v ++ bs) = some (v, bs) := by
  simp only [bytes32, List.cons_append, List.nil_append, take32, bytes32_join]

theorem take32_spec {bs rest : List Byte} {v : BitVec 32} (h : take32 bs = some (v, rest)) :
    bytes32 v ++ rest = bs := by
  match bs, h with
  | b0 :: b1 :: b2 :: b3 :: cs, h =>
    simp only [take32, Option.some.injEq, Prod.mk.injEq] at h
    rw [← h.1, ← h.2, bytes32_of_join]
    rfl

theorem takeDisp_bytes (d : Disp) (bs : List Byte) : takeDisp d.md (d.bytes ++ bs) = some (d, bs) := by
  cases d <;> simp [takeDisp, Disp.md, Disp.bytes]

theorem takeDisp_spec {md : BitVec 2} {bs rest : List Byte} {d : Disp} (hm : md ≠ 3#2)
    (h : takeDisp md bs = some (d, rest)) : d.bytes ++ rest = bs ∧ d.md = md := by
  unfold takeDisp at h
  split_ifs at h with h0 h1
  · simp at h; rw [← h.1, ← h.2, h0]; exact ⟨rfl, rfl⟩
  · cases bs with
    | nil => simp at h
    | cons b bs => simp at h; rw [← h.1, ← h.2, h1]; exact ⟨rfl, rfl⟩
  · obtain ⟨⟨v, r⟩, hv, he⟩ := Option.map_eq_some_iff.1 h
    simp at he
    rw [← he.1, ← he.2]
    refine ⟨take32_spec hv, ?_⟩
    have key : ∀ m : BitVec 2, m ≠ 0#2 → m ≠ 1#2 → m ≠ 3#2 → 2#2 = m := by decide
    exact key md h0 h1 hm

/-- The three fields of a ModRM or SIB byte are read back (30_encoding.md R90, R93). -/
theorem byte233_fields (a : BitVec 2) (b c : BitVec 3) :
    (byte233 a b c).extractLsb' 6 2 = a ∧ (byte233 a b c).extractLsb' 3 3 = b ∧ (byte233 a b c).extractLsb' 0 3 = c := by
  have key : ∀ (a : BitVec 2) (b c : BitVec 3), (byte233 a b c).extractLsb' 6 2 = a ∧
      (byte233 a b c).extractLsb' 3 3 = b ∧ (byte233 a b c).extractLsb' 0 3 = c := by decide +kernel
  exact key a b c

theorem byte233_of_fields (m : Byte) : byte233 (m.extractLsb' 6 2) (m.extractLsb' 3 3) (m.extractLsb' 0 3) = m := by
  have key : ∀ m : Byte, byte233 (m.extractLsb' 6 2) (m.extractLsb' 3 3) (m.extractLsb' 0 3) = m := by decide +kernel
  exact key m

theorem disp_md_ne (d : Disp) : d.md ≠ 3#2 := by cases d <;> simp [Disp.md]

theorem disp_md_eq_zero {d : Disp} : d.md = 0#2 ↔ d = .none := by cases d <;> simp [Disp.md]

theorem addr_md_ne (a : Addr) : a.md ≠ 3#2 := by
  cases a <;> simp [Addr.md, disp_md_ne]

theorem takeAddr_bytes {a : Addr} (hw : a.wf = true) (bs : List Byte) :
    takeAddr a.md a.rm (a.bytes ++ bs) = some (a, bs) := by
  cases a with
  | base rm d =>
    simp only [Addr.wf, Bool.and_eq_true, bne_iff_ne, Bool.not_eq_true', Bool.and_eq_false_iff, beq_eq_false_iff_ne] at hw
    have h2 : ¬ (d.md = 0#2 ∧ rm = 5#3) := fun h => by
      rcases hw.2 with h' | h'
      · exact h' h.2
      · exact h' (disp_md_eq_zero.1 h.1)
    simp only [takeAddr, Addr.md, Addr.rm, Addr.bytes, if_neg hw.1, if_neg h2, takeDisp_bytes, Option.map_some]
  | ripRel d => simp [takeAddr, Addr.md, Addr.rm, Addr.bytes]
  | sib sc ix b d =>
    simp only [Addr.wf, Bool.not_eq_true', Bool.and_eq_false_iff, beq_eq_false_iff_ne] at hw
    obtain ⟨f1, f2, f3⟩ := byte233_fields sc ix b
    have h2 : ¬ (d.md = 0#2 ∧ b = 5#3) := fun h => by
      rcases hw with h' | h'
      · exact h' h.2
      · exact h' (disp_md_eq_zero.1 h.1)
    simp only [takeAddr, Addr.md, Addr.rm, Addr.bytes, if_true, List.cons_append, takeSib, f1, f2, f3, if_neg h2,
      takeDisp_bytes, Option.map_some]
  | sibNoBase sc ix d =>
    obtain ⟨f1, f2, f3⟩ := byte233_fields sc ix 5#3
    simp only [takeAddr, Addr.md, Addr.rm, Addr.bytes, if_true, List.cons_append, takeSib, f1, f2, f3, and_self,
      take32_bytes32, Option.map_some]

theorem takeAddr_spec {md : BitVec 2} {rm : BitVec 3} {bs rest : List Byte} {a : Addr} (hm : md ≠ 3#2)
    (h : takeAddr md rm bs = some (a, rest)) : a.bytes ++ rest = bs ∧ a.md = md ∧ a.rm = rm ∧ a.wf = true := by
  unfold takeAddr at h
  split_ifs at h with h4 h5
  · cases bs with
    | nil => simp [takeSib] at h
    | cons sb cs =>
      simp only [takeSib] at h
      split_ifs at h with hb
      · obtain ⟨⟨v, r⟩, hv, he⟩ := Option.map_eq_some_iff.1 h
        simp at he
        rw [← he.1, ← he.2]
        refine ⟨?_, hb.1.symm, h4.symm, rfl⟩
        have := byte233_of_fields sb
        rw [hb.2] at this
        simp only [Addr.bytes, List.cons_append, this, take32_spec hv]
      · obtain ⟨⟨d, r⟩, hv, he⟩ := Option.map_eq_some_iff.1 h
        simp at he
        rw [← he.1, ← he.2]
        obtain ⟨hd, hmd⟩ := takeDisp_spec hm hv
        refine ⟨by simp only [Addr.bytes, List.cons_append, byte233_of_fields, hd], hmd, h4.symm, ?_⟩
        simp only [Addr.wf, Bool.not_eq_true', Bool.and_eq_false_iff, beq_eq_false_iff_ne]
        by_contra hc
        push Not at hc
        exact hb ⟨by rw [← hmd, hc.2]; rfl, hc.1⟩
  · obtain ⟨⟨v, r⟩, hv, he⟩ := Option.map_eq_some_iff.1 h
    simp at he
    rw [← he.1, ← he.2]
    exact ⟨take32_spec hv, h5.1.symm, h5.2.symm, rfl⟩
  · obtain ⟨⟨d, r⟩, hv, he⟩ := Option.map_eq_some_iff.1 h
    simp at he
    rw [← he.1, ← he.2]
    obtain ⟨hd, hmd⟩ := takeDisp_spec hm hv
    refine ⟨hd, hmd, rfl, ?_⟩
    simp only [Addr.wf, Bool.and_eq_true, bne_iff_ne, Bool.not_eq_true', Bool.and_eq_false_iff, beq_eq_false_iff_ne]
    refine ⟨h4, ?_⟩
    by_contra hc
    push Not at hc
    exact h5 ⟨by rw [← hmd, hc.2]; rfl, hc.1⟩

/-- ModRM, SIB and displacement of a well-formed operand are read back. -/
theorem takeModRm_bytes {o : ModRm} (hw : o.wf = true) (bs : List Byte) :
    takeModRm (o.bytes ++ bs) = some (o, bs) := by
  rcases o with ⟨reg, rm⟩
  cases rm with
  | reg rm =>
    obtain ⟨f1, f2, f3⟩ := byte233_fields 3#2 reg rm
    simp only [ModRm.bytes, List.cons_append, List.nil_append, takeModRm, f1, f2, f3, if_true]
  | mem a =>
    obtain ⟨f1, f2, f3⟩ := byte233_fields a.md reg a.rm
    simp only [ModRm.bytes, List.cons_append, takeModRm, f1, f2, f3, if_neg (addr_md_ne a),
      takeAddr_bytes (show a.wf = true from hw), Option.map_some]

/-- What is read as ModRM, SIB and displacement is well-formed, and its bytes are the bytes read. -/
theorem takeModRm_spec {bs rest : List Byte} {o : ModRm} (h : takeModRm bs = some (o, rest)) :
    o.bytes ++ rest = bs ∧ o.wf = true := by
  cases bs with
  | nil => simp [takeModRm] at h
  | cons m cs =>
    simp only [takeModRm] at h
    split_ifs at h with hm
    · simp at h
      rw [← h.1, ← h.2]
      refine ⟨?_, rfl⟩
      have := byte233_of_fields m
      rw [hm] at this
      simp only [ModRm.bytes, List.cons_append, List.nil_append, this]
    · obtain ⟨⟨a, r⟩, ha, he⟩ := Option.map_eq_some_iff.1 h
      simp at he
      rw [← he.1, ← he.2]
      obtain ⟨h1, h2, h3, h4⟩ := takeAddr_spec hm ha
      refine ⟨?_, h4⟩
      simp only [ModRm.bytes, List.cons_append, h2, h3, byte233_of_fields, h1]

theorem disp_bytes_length (d : Disp) : d.bytes.length = d.len := by
  cases d <;> simp [Disp.bytes, Disp.len, bytes32]

theorem modRm_bytes_length (o : ModRm) : o.bytes.length = o.len := by
  rcases o with ⟨reg, rm⟩
  cases rm with
  | reg rm => rfl
  | mem a => cases a <;> simp [ModRm.bytes, ModRm.len, Addr.bytes, Addr.len, disp_bytes_length, bytes32] <;> omega

end Sys2Proof
end

