-- ==== Sys2Proof/Laws/State.lean ====
section
/-! SUPPORT. For every update of the state, one lemma for each field, true by `rfl`. -/

namespace Sys2Proof.Machine

open Sys2Proof

variable (s : State)

/-! ## writeZmm -/

@[simp] theorem writeZmm_zmm (n : BitVec 5) (v : Zmm) :
    (s.writeZmm n v).zmm = s.zmm.set n.toNat v := rfl

@[simp] theorem writeZmm_mm (n : BitVec 5) (v : Zmm) : (s.writeZmm n v).mm = s.mm := rfl

@[simp] theorem writeZmm_k (n : BitVec 5) (v : Zmm) : (s.writeZmm n v).k = s.k := rfl

@[simp] theorem writeZmm_gpr (n : BitVec 5) (v : Zmm) : (s.writeZmm n v).gpr = s.gpr := rfl

@[simp] theorem writeZmm_rip (n : BitVec 5) (v : Zmm) : (s.writeZmm n v).rip = s.rip := rfl

@[simp] theorem writeZmm_rflags (n : BitVec 5) (v : Zmm) : (s.writeZmm n v).rflags = s.rflags := rfl

@[simp] theorem writeZmm_mxcsr (n : BitVec 5) (v : Zmm) : (s.writeZmm n v).mxcsr = s.mxcsr := rfl

@[simp] theorem writeZmm_x87 (n : BitVec 5) (v : Zmm) : (s.writeZmm n v).x87 = s.x87 := rfl

@[simp] theorem writeZmm_ctl (n : BitVec 5) (v : Zmm) : (s.writeZmm n v).ctl = s.ctl := rfl

@[simp] theorem writeZmm_seg (n : BitVec 5) (v : Zmm) : (s.writeZmm n v).seg = s.seg := rfl

@[simp] theorem writeZmm_mem (n : BitVec 5) (v : Zmm) : (s.writeZmm n v).mem = s.mem := rfl

@[simp] theorem writeZmm_plat (n : BitVec 5) (v : Zmm) : (s.writeZmm n v).plat = s.plat := rfl

@[simp] theorem writeZmm_cfg (n : BitVec 5) (v : Zmm) : (s.writeZmm n v).cfg = s.cfg := rfl


/-! ## writeVecZeroing -/

@[simp] theorem writeVecZeroing_zmm {w : Nat} (n : BitVec 5) (v : BitVec w) :
    (s.writeVecZeroing n v).zmm = s.zmm.set n.toNat (v.setWidth 512) := rfl

@[simp] theorem writeVecZeroing_mm {w : Nat} (n : BitVec 5) (v : BitVec w) : (s.writeVecZeroing n v).mm = s.mm := rfl

@[simp] theorem writeVecZeroing_k {w : Nat} (n : BitVec 5) (v : BitVec w) : (s.writeVecZeroing n v).k = s.k := rfl

@[simp] theorem writeVecZeroing_gpr {w : Nat} (n : BitVec 5) (v : BitVec w) : (s.writeVecZeroing n v).gpr = s.gpr := rfl

@[simp] theorem writeVecZeroing_rip {w : Nat} (n : BitVec 5) (v : BitVec w) : (s.writeVecZeroing n v).rip = s.rip := rfl

@[simp] theorem writeVecZeroing_rflags {w : Nat} (n : BitVec 5) (v : BitVec w) : (s.writeVecZeroing n v).rflags = s.rflags := rfl

@[simp] theorem writeVecZeroing_mxcsr {w : Nat} (n : BitVec 5) (v : BitVec w) : (s.writeVecZeroing n v).mxcsr = s.mxcsr := rfl

@[simp] theorem writeVecZeroing_x87 {w : Nat} (n : BitVec 5) (v : BitVec w) : (s.writeVecZeroing n v).x87 = s.x87 := rfl

@[simp] theorem writeVecZeroing_ctl {w : Nat} (n : BitVec 5) (v : BitVec w) : (s.writeVecZeroing n v).ctl = s.ctl := rfl

@[simp] theorem writeVecZeroing_seg {w : Nat} (n : BitVec 5) (v : BitVec w) : (s.writeVecZeroing n v).seg = s.seg := rfl

@[simp] theorem writeVecZeroing_mem {w : Nat} (n : BitVec 5) (v : BitVec w) : (s.writeVecZeroing n v).mem = s.mem := rfl

@[simp] theorem writeVecZeroing_plat {w : Nat} (n : BitVec 5) (v : BitVec w) : (s.writeVecZeroing n v).plat = s.plat := rfl

@[simp] theorem writeVecZeroing_cfg {w : Nat} (n : BitVec 5) (v : BitVec w) : (s.writeVecZeroing n v).cfg = s.cfg := rfl


/-! ## writeXmmKeeping -/

@[simp] theorem writeXmmKeeping_zmm (n : BitVec 5) (v : BitVec 128) :
    (s.writeXmmKeeping n v).zmm = s.zmm.set n.toNat ((s.readZmm n).extractLsb' 128 384 ++ v) := rfl

@[simp] theorem writeXmmKeeping_mm (n : BitVec 5) (v : BitVec 128) : (s.writeXmmKeeping n v).mm = s.mm := rfl

@[simp] theorem writeXmmKeeping_k (n : BitVec 5) (v : BitVec 128) : (s.writeXmmKeeping n v).k = s.k := rfl

@[simp] theorem writeXmmKeeping_gpr (n : BitVec 5) (v : BitVec 128) : (s.writeXmmKeeping n v).gpr = s.gpr := rfl

@[simp] theorem writeXmmKeeping_rip (n : BitVec 5) (v : BitVec 128) : (s.writeXmmKeeping n v).rip = s.rip := rfl

@[simp] theorem writeXmmKeeping_rflags (n : BitVec 5) (v : BitVec 128) : (s.writeXmmKeeping n v).rflags = s.rflags := rfl

@[simp] theorem writeXmmKeeping_mxcsr (n : BitVec 5) (v : BitVec 128) : (s.writeXmmKeeping n v).mxcsr = s.mxcsr := rfl

@[simp] theorem writeXmmKeeping_x87 (n : BitVec 5) (v : BitVec 128) : (s.writeXmmKeeping n v).x87 = s.x87 := rfl

@[simp] theorem writeXmmKeeping_ctl (n : BitVec 5) (v : BitVec 128) : (s.writeXmmKeeping n v).ctl = s.ctl := rfl

@[simp] theorem writeXmmKeeping_seg (n : BitVec 5) (v : BitVec 128) : (s.writeXmmKeeping n v).seg = s.seg := rfl

@[simp] theorem writeXmmKeeping_mem (n : BitVec 5) (v : BitVec 128) : (s.writeXmmKeeping n v).mem = s.mem := rfl

@[simp] theorem writeXmmKeeping_plat (n : BitVec 5) (v : BitVec 128) : (s.writeXmmKeeping n v).plat = s.plat := rfl

@[simp] theorem writeXmmKeeping_cfg (n : BitVec 5) (v : BitVec 128) : (s.writeXmmKeeping n v).cfg = s.cfg := rfl


/-! ## writeMm -/

@[simp] theorem writeMm_zmm (n : BitVec 3) (v : Mmx) : (s.writeMm n v).zmm = s.zmm := rfl

@[simp] theorem writeMm_mm (n : BitVec 3) (v : Mmx) :
    (s.writeMm n v).mm = s.mm.set n.toNat v := rfl

@[simp] theorem writeMm_k (n : BitVec 3) (v : Mmx) : (s.writeMm n v).k = s.k := rfl

@[simp] theorem writeMm_gpr (n : BitVec 3) (v : Mmx) : (s.writeMm n v).gpr = s.gpr := rfl

@[simp] theorem writeMm_rip (n : BitVec 3) (v : Mmx) : (s.writeMm n v).rip = s.rip := rfl

@[simp] theorem writeMm_rflags (n : BitVec 3) (v : Mmx) : (s.writeMm n v).rflags = s.rflags := rfl

@[simp] theorem writeMm_mxcsr (n : BitVec 3) (v : Mmx) : (s.writeMm n v).mxcsr = s.mxcsr := rfl

@[simp] theorem writeMm_x87 (n : BitVec 3) (v : Mmx) : (s.writeMm n v).x87 = s.x87 := rfl

@[simp] theorem writeMm_ctl (n : BitVec 3) (v : Mmx) : (s.writeMm n v).ctl = s.ctl := rfl

@[simp] theorem writeMm_seg (n : BitVec 3) (v : Mmx) : (s.writeMm n v).seg = s.seg := rfl

@[simp] theorem writeMm_mem (n : BitVec 3) (v : Mmx) : (s.writeMm n v).mem = s.mem := rfl

@[simp] theorem writeMm_plat (n : BitVec 3) (v : Mmx) : (s.writeMm n v).plat = s.plat := rfl

@[simp] theorem writeMm_cfg (n : BitVec 3) (v : Mmx) : (s.writeMm n v).cfg = s.cfg := rfl


/-! ## mmxAlias -/

@[simp] theorem mmxAlias_zmm (n : BitVec 3) : (s.mmxAlias n).zmm = s.zmm := rfl

@[simp] theorem mmxAlias_mm (n : BitVec 3) : (s.mmxAlias n).mm = s.mm := rfl

@[simp] theorem mmxAlias_k (n : BitVec 3) : (s.mmxAlias n).k = s.k := rfl

@[simp] theorem mmxAlias_gpr (n : BitVec 3) : (s.mmxAlias n).gpr = s.gpr := rfl

@[simp] theorem mmxAlias_rip (n : BitVec 3) : (s.mmxAlias n).rip = s.rip := rfl

@[simp] theorem mmxAlias_rflags (n : BitVec 3) : (s.mmxAlias n).rflags = s.rflags := rfl

@[simp] theorem mmxAlias_mxcsr (n : BitVec 3) : (s.mmxAlias n).mxcsr = s.mxcsr := rfl

@[simp] theorem mmxAlias_x87 (n : BitVec 3) :
    (s.mmxAlias n).x87 = { s.x87 with hi := s.x87.hi.set n.toNat 0xFFFF#16, tag := 0#16, fsw := s.x87.fsw &&& 0xC7FF#16 } := rfl

@[simp] theorem mmxAlias_ctl (n : BitVec 3) : (s.mmxAlias n).ctl = s.ctl := rfl

@[simp] theorem mmxAlias_seg (n : BitVec 3) : (s.mmxAlias n).seg = s.seg := rfl

@[simp] theorem mmxAlias_mem (n : BitVec 3) : (s.mmxAlias n).mem = s.mem := rfl

@[simp] theorem mmxAlias_plat (n : BitVec 3) : (s.mmxAlias n).plat = s.plat := rfl

@[simp] theorem mmxAlias_cfg (n : BitVec 3) : (s.mmxAlias n).cfg = s.cfg := rfl


/-! ## advance -/

@[simp] theorem advance_zmm (len : Nat) : (s.advance len).zmm = s.zmm := rfl

@[simp] theorem advance_mm (len : Nat) : (s.advance len).mm = s.mm := rfl

@[simp] theorem advance_k (len : Nat) : (s.advance len).k = s.k := rfl

@[simp] theorem advance_gpr (len : Nat) : (s.advance len).gpr = s.gpr := rfl

@[simp] theorem advance_rip (len : Nat) :
    (s.advance len).rip = s.rip + BitVec.ofNat 64 len := rfl

@[simp] theorem advance_rflags (len : Nat) : (s.advance len).rflags = s.rflags := rfl

@[simp] theorem advance_mxcsr (len : Nat) : (s.advance len).mxcsr = s.mxcsr := rfl

@[simp] theorem advance_x87 (len : Nat) : (s.advance len).x87 = s.x87 := rfl

@[simp] theorem advance_ctl (len : Nat) : (s.advance len).ctl = s.ctl := rfl

@[simp] theorem advance_seg (len : Nat) : (s.advance len).seg = s.seg := rfl

@[simp] theorem advance_mem (len : Nat) : (s.advance len).mem = s.mem := rfl

@[simp] theorem advance_plat (len : Nat) : (s.advance len).plat = s.plat := rfl

@[simp] theorem advance_cfg (len : Nat) : (s.advance len).cfg = s.cfg := rfl

/-! ## nextAnswer -/

@[simp] theorem nextAnswer_zmm : s.nextAnswer.zmm = s.zmm := rfl

@[simp] theorem nextAnswer_mm : s.nextAnswer.mm = s.mm := rfl

@[simp] theorem nextAnswer_k : s.nextAnswer.k = s.k := rfl

@[simp] theorem nextAnswer_gpr : s.nextAnswer.gpr = s.gpr := rfl

@[simp] theorem nextAnswer_rip : s.nextAnswer.rip = s.rip := rfl

@[simp] theorem nextAnswer_rflags : s.nextAnswer.rflags = s.rflags := rfl

@[simp] theorem nextAnswer_mxcsr : s.nextAnswer.mxcsr = s.mxcsr := rfl

@[simp] theorem nextAnswer_x87 : s.nextAnswer.x87 = s.x87 := rfl

@[simp] theorem nextAnswer_ctl : s.nextAnswer.ctl = s.ctl := rfl

@[simp] theorem nextAnswer_seg : s.nextAnswer.seg = s.seg := rfl

@[simp] theorem nextAnswer_mem : s.nextAnswer.mem = s.mem := rfl

@[simp] theorem nextAnswer_cfg : s.nextAnswer.cfg = s.cfg := rfl

@[simp] theorem nextAnswer_plat :
    s.nextAnswer.plat = ⟨s.plat.later.headD s.plat.now, s.plat.later.tail, s.plat.device⟩ := rfl

/-! ## mapNext -/

@[simp] theorem mapNext_next (f : State → State) : mapNext f (.next s) = .next (f s) := rfl

@[simp] theorem mapNext_fault (f : State → State) (x : Fault) : mapNext f (.fault x) = .fault x := rfl

@[simp] theorem mapNext_refused (f : State → State) (r : Refusal) : mapNext f (.refused r) = .refused r := rfl

/-- An outcome put through `f` is a next state exactly when it was one. -/
theorem mapNext_eq_next {f : State → State} {o : Host.Outcome State Fault Refusal} {t : State} :
    mapNext f o = .next t ↔ ∃ t', o = .next t' ∧ t = f t' := by
  cases o <;> simp [mapNext, eq_comm]

end Sys2Proof.Machine
end

