-- ==== Sys2Proof/Laws/Ops.lean ====
section
/-! SUPPORT. What the shared operations over registers and bits do, said once each. -/

namespace Sys2Proof.Machine

open Sys2Proof

/-! ## Registers -/

@[simp] theorem readZmm_writeZmm_same (s : State) (n : BitVec 5) (v : Zmm) : (s.writeZmm n v).readZmm n = v := by
  simp [State.readZmm]

theorem readZmm_writeZmm_other (s : State) {n m : BitVec 5} (v : Zmm) (h : m ≠ n) :
    (s.writeZmm n v).readZmm m = s.readZmm m := by
  have hne : n.toNat ≠ m.toNat := fun e => h (BitVec.eq_of_toNat_eq e.symm)
  simp [State.readZmm, hne]

@[simp] theorem readMm_writeMm_same (s : State) (n : BitVec 3) (v : Mmx) : (s.writeMm n v).readMm n = v := by
  simp [State.readMm]

theorem readMm_writeMm_other (s : State) {n m : BitVec 3} (v : Mmx) (h : m ≠ n) :
    (s.writeMm n v).readMm m = s.readMm m := by
  have hne : n.toNat ≠ m.toNat := fun e => h (BitVec.eq_of_toNat_eq e.symm)
  simp [State.readMm, hne]

@[simp] theorem readZmm_advance (s : State) (len : Nat) (n : BitVec 5) : (s.advance len).readZmm n = s.readZmm n := rfl

@[simp] theorem readMm_advance (s : State) (len : Nat) (n : BitVec 3) : (s.advance len).readMm n = s.readMm n := rfl

@[simp] theorem readMm_mmxAlias (s : State) (m n : BitVec 3) : (s.mmxAlias m).readMm n = s.readMm n := rfl

@[simp] theorem readZmm_mmxAlias (s : State) (m : BitVec 3) (n : BitVec 5) :
    (s.mmxAlias m).readZmm n = s.readZmm n := rfl

@[simp] theorem readZmm_writeMm (s : State) (m : BitVec 3) (v : Mmx) (n : BitVec 5) :
    (s.writeMm m v).readZmm n = s.readZmm n := rfl

@[simp] theorem readMm_writeZmm (s : State) (m : BitVec 5) (v : Zmm) (n : BitVec 3) :
    (s.writeZmm m v).readMm n = s.readMm n := rfl

/-- Two states with the same readable vector registers have the same register file. -/
theorem zmm_ext {s t : State} (h : ∀ n, s.readZmm n = t.readZmm n) : s.zmm = t.zmm := by
  apply Vector.ext
  intro i hi
  have := h (BitVec.ofNat 5 i)
  simpa [State.readZmm, Nat.mod_eq_of_lt (show i < 32 from hi)] using this

/-- Bits below `w` of a vector register are what its `w`-bit slice shows (10_state.md R21). -/
theorem getLsbD_vec (s : State) (w : Nat) (n : BitVec 5) (j : Nat) :
    (s.vec w n).getLsbD j = (decide (j < w) && (s.readZmm n).getLsbD j) := by
  simp [State.vec, BitVec.getLsbD_setWidth]

/-- A zeroing write: the low bits are the value, the bits above it 0 (41_vpandn_vex.md R140). -/
theorem getLsbD_writeVecZeroing_same (s : State) {w : Nat} (n : BitVec 5) (v : BitVec w) (j : Nat) :
    ((s.writeVecZeroing n v).readZmm n).getLsbD j = (decide (j < 512) && v.getLsbD j) := by
  simp [State.writeVecZeroing, BitVec.getLsbD_setWidth]

theorem readZmm_writeVecZeroing_other (s : State) {w : Nat} {n m : BitVec 5} (v : BitVec w) (h : m ≠ n) :
    (s.writeVecZeroing n v).readZmm m = s.readZmm m :=
  readZmm_writeZmm_other s _ h

/-- A keeping write: bits 127:0 are the value, the others as before (40_pandn_legacy.md R131). -/
theorem getLsbD_writeXmmKeeping_same (s : State) (n : BitVec 5) (v : BitVec 128) (j : Nat) :
    ((s.writeXmmKeeping n v).readZmm n).getLsbD j =
      if j < 128 then v.getLsbD j else (s.readZmm n).getLsbD j := by
  simp only [State.writeXmmKeeping, readZmm_writeZmm_same, BitVec.getLsbD_append]
  by_cases h : j < 128
  · simp [h]
  · simp only [h, if_false, BitVec.getLsbD_extractLsb', show 128 + (j - 128) = j by omega]
    by_cases h2 : j < 512
    · simp [show j - 128 < 384 by omega]
    · rw [BitVec.getLsbD_of_ge (s.readZmm n) j (by omega)]
      simp

theorem readZmm_writeXmmKeeping_other (s : State) {n m : BitVec 5} (v : BitVec 128) (h : m ≠ n) :
    (s.writeXmmKeeping n v).readZmm m = s.readZmm m :=
  readZmm_writeZmm_other s _ h

/-! ## The operation on bits -/

/-- The truth table of R170, a bit at a time. -/
theorem getLsbD_andn {w : Nat} (a b : BitVec w) (j : Nat) :
    (andn a b).getLsbD j = (!a.getLsbD j && b.getLsbD j) := by
  by_cases h : j < w
  · simp [andn, h]
  · simp [andn, BitVec.getLsbD_of_ge b j (by omega)]

theorem getLsbD_elem (es j : Nat) {w : Nat} (v : BitVec w) (i : Nat) :
    (elem es j v).getLsbD i = (decide (i < es) && v.getLsbD (es * j + i)) := by
  simp [elem]

/-- Bit `i` of a packed vector is bit `i % es` of element `i / es`, and 0 past the last element. -/
theorem getLsbD_packElems (es w : Nat) (f : Nat → BitVec es) (n : Nat) (hes : 0 < es) (i : Nat) (hi : i < w) :
    (packElems es w f n).getLsbD i = (decide (i < es * n) && (f (i / es)).getLsbD (i % es)) := by
  induction n with
  | zero => simp [packElems]
  | succ n ih =>
    have hmod : i % es < es := Nat.mod_lt i hes
    have hdiv : es * (i / es) + i % es = i := Nat.div_add_mod i es
    rw [packElems, BitVec.getLsbD_or, ih, BitVec.getLsbD_shiftLeft, BitVec.getLsbD_setWidth]
    have hmul : es * (n + 1) = es * n + es := by ring
    by_cases h1 : i < es * n
    · simp [h1, show i < es * (n + 1) by omega]
    · by_cases h2 : i < es * (n + 1)
      · have hn : i / es = n := by
          apply Nat.div_eq_of_lt_le
          · rw [Nat.mul_comm]; omega
          · rw [Nat.mul_comm]; exact h2
        have hm : i % es = i - es * n := by rw [hn] at hdiv; omega
        simp [h1, h2, hi, hn, hm, show i - es * n < w by omega]
      · have hge : es ≤ i - es * n := by omega
        rw [BitVec.getLsbD_of_ge (f n) (i - es * n) hge]
        simp [h1, h2]

/-- Bit `i` of a masked result (42_vpandnd_vpandnq_evex.md R156, 43_family_laws_and_absent_classes.md R174). -/
theorem getLsbD_maskedAndn (es w : Nat) (mask : Nat → Bool) (z : Bool) (old a b : BitVec w) (hes : 0 < es)
    (hdvd : es ∣ w) (i : Nat) (hi : i < w) :
    (maskedAndn es w mask z old a b).getLsbD i =
      if mask (i / es) then !a.getLsbD i && b.getLsbD i else if z then false else old.getLsbD i := by
  have hmod : i % es < es := Nat.mod_lt i hes
  have hdiv : es * (i / es) + i % es = i := Nat.div_add_mod i es
  have hw : es * (w / es) = w := Nat.mul_div_cancel' hdvd
  rw [maskedAndn, getLsbD_packElems _ _ _ _ hes _ hi, hw]
  have hel : ∀ v : BitVec w, (elem es (i / es) v).getLsbD (i % es) = v.getLsbD i := fun v => by
    rw [getLsbD_elem, hdiv, decide_eq_true hmod, Bool.true_and]
  rw [decide_eq_true hi, Bool.true_and]
  cases mask (i / es) with
  | true => rw [if_pos rfl, if_pos rfl, getLsbD_andn, hel, hel]
  | false =>
    cases z with
    | true => simp
    | false => simpa using hel old

/-- Bit `i` of a broadcast vector is bit `i % es` of its element (43_family_laws_and_absent_classes.md R173). -/
theorem getLsbD_broadcast (es w : Nat) (e : BitVec es) (hes : 0 < es) (hdvd : es ∣ w) (i : Nat) (hi : i < w) :
    (broadcast es w e).getLsbD i = e.getLsbD (i % es) := by
  rw [broadcast, getLsbD_packElems _ _ _ _ hes _ hi, Nat.mul_div_cancel' hdvd]
  simp [hi]

/-! ## The common course of a form -/

/-- `complete` takes a next state exactly when no exception comes first and the operand has a value. -/
theorem complete_eq_next {α : Type} {pre : Option Fault} {src : Got α} {k : α → State} {t : State} :
    complete pre src k = .next t ↔ pre = none ∧ ∃ v, src = .value v ∧ t = k v := by
  cases pre <;> cases src <;> simp [complete, raise, eq_comm]

/-- `complete` raises an exception exactly when one comes before the operand, or the operand raises it. -/
theorem complete_eq_fault {α : Type} {pre : Option Fault} {src : Got α} {k : α → State} {f : Fault} :
    complete pre src k = .fault f ↔ pre = some f ∨ (pre = none ∧ src = .fault f) := by
  cases pre <;> cases src <;> simp [complete, raise]

/-- `complete` refuses exactly when no exception comes first and the operand is refused. -/
theorem complete_eq_refused {α : Type} {pre : Option Fault} {src : Got α} {k : α → State} {r : Refusal} :
    complete pre src k = .refused r ↔ pre = none ∧ src = .refused r := by
  cases pre <;> cases src <;> simp [complete, raise]

theorem map_eq_value {α β : Type} {f : α → β} {g : Got α} {v : β} :
    g.map f = .value v ↔ ∃ u, g = .value u ∧ f u = v := by
  cases g <;> simp [Got.map]

theorem map_eq_fault {α β : Type} {f : α → β} {g : Got α} {x : Fault} : g.map f = .fault x ↔ g = .fault x := by
  cases g <;> simp [Got.map]

theorem map_eq_refused {α β : Type} {f : α → β} {g : Got α} {r : Refusal} :
    g.map f = .refused r ↔ g = .refused r := by
  cases g <;> simp [Got.map]

/-! ## Exceptions -/

/-- No exception of steps 1 to 3 exactly when none of their conditions holds (60_exceptions.md R204). -/
theorem preFault_eq_none {c : Cls} {feat : Bool} {vl : Nat} {res : Bool} {h : Head} {s : State} :
    preFault c feat vl res h s = none ↔
      (ctlUd c s || pfxUd c h || !feat || decide (maxvl s.cfg < vl) || res || modeUd c s) = false ∧
      s.cr0TS = false ∧ (c == .mmx && s.fswES) = false := by
  simp only [preFault]
  split_ifs with h1 h2 h3
  · rw [h1]; simp
  · simp [h2]
  · simp [h3]
  · exact iff_of_true rfl ⟨by simpa only [Bool.not_eq_true] using h1, by simpa using h2, by simpa only [Bool.not_eq_true] using h3⟩

/-- The exceptions of steps 1 to 3 are #UD, #NM and #MF (60_exceptions.md R204). -/
theorem preFault_cases {c : Cls} {feat : Bool} {vl : Nat} {res : Bool} {h : Head} {s : State} {f : Fault}
    (hf : preFault c feat vl res h s = some f) : f = .ud ∨ f = .nm ∨ (f = .mf ∧ c = .mmx) := by
  simp only [preFault] at hf
  split_ifs at hf <;> simp_all

/-- What is reported is one of the exceptions that hold (60_exceptions.md R204). -/
theorem reported_mem {p : ExcPriority} {fs : List Fault} {f : Fault} (h : reported p fs = some f) : f ∈ fs := by
  cases p with
  | inOrder => exact List.mem_of_head? h
  | anyOf pick => exact List.mem_of_getElem? h

/-- Nothing is reported exactly when no exception holds, whichever way `EXC_PRIORITY` is set. -/
theorem reported_eq_none {p : ExcPriority} {fs : List Fault} : reported p fs = none ↔ fs = [] := by
  cases p with
  | inOrder => simp [reported]
  | anyOf pick =>
    cases fs with
    | nil => simp [reported]
    | cons f fs =>
      have : pick % (f :: fs).length < (f :: fs).length := Nat.mod_lt _ (by simp)
      simp only [reported, List.getElem?_eq_getElem this]
      simp

/-- What a memory read answers when it answers a value (20_memory.md R58). -/
theorem memRead_eq_value {s : State} {q : Access} {w : Nat} {v : BitVec w} :
    memRead s q w = .value v ↔
      s.mode = .m64 ∧ operandFaults s q = [] ∧ touchesDevice s q = false ∧
      v = BitVec.ofNat w (s.readLE q.la (w / 8)) := by
  by_cases hm : s.mode = .m64
  · cases hr : reported s.cfg.excPriority (operandFaults s q) with
    | none =>
      have he := reported_eq_none.1 hr
      cases hd : touchesDevice s q <;> simp [memRead, hm, he, hd, reported_eq_none.2, eq_comm (b := v)]
    | some f =>
      have : operandFaults s q ≠ [] := fun h => by simp [reported_eq_none.2 h] at hr
      simp [memRead, hm, hr, this]
  · simp [memRead, hm]

/-- A memory read raises exactly what is reported of the operand's exceptions (60_exceptions.md R204). -/
theorem memRead_eq_fault {s : State} {q : Access} {w : Nat} {f : Fault} :
    memRead s q w = .fault f ↔ s.mode = .m64 ∧ reported s.cfg.excPriority (operandFaults s q) = some f := by
  by_cases hm : s.mode = .m64
  · cases hr : reported s.cfg.excPriority (operandFaults s q) with
    | none => cases hd : touchesDevice s q <;> simp [memRead, hm, hr, hd]
    | some g => simp [memRead, hm, hr]
  · simp [memRead, hm]

/-- A memory read is refused outside 64-bit mode, and in a device region when nothing is raised. -/
theorem memRead_eq_refused {s : State} {q : Access} {w : Nat} {r : Refusal} :
    memRead s q w = .refused r ↔
      (s.mode ≠ .m64 ∧ r = .modeNot64) ∨
      (s.mode = .m64 ∧ operandFaults s q = [] ∧ touchesDevice s q = true ∧ r = .deviceOperand) := by
  by_cases hm : s.mode = .m64
  · cases hr : reported s.cfg.excPriority (operandFaults s q) with
    | none =>
      have he := reported_eq_none.1 hr
      cases hd : touchesDevice s q <;> simp [memRead, hm, he, hd, reported_eq_none.2, eq_comm (b := r)]
    | some g =>
      have : operandFaults s q ≠ [] := fun h => by simp [reported_eq_none.2 h] at hr
      simp [memRead, hm, hr, this]
  · simp [memRead, hm, eq_comm (b := r)]

/-- A shared operation of the VEX forms: what it can do when it completes (41_vpandn_vex.md R140). -/
theorem vexAndn_eq_next {w : Nat} {feat : Bool} {h : Head} {v : Vex} {o : ModRm} {s t : State} :
    vexAndn w feat h v o s = .next t ↔
      preFault .vex feat w false h s = none ∧ ∃ b, vexSrc2 w h v o s = .value b ∧
        t = (s.writeVecZeroing (vexDst v o) (andn (s.vec w (vexSrc1 v)) b)).advance (vexLen h v o) :=
  complete_eq_next

/-- The shared operation of the EVEX forms: what it can do when it completes (42_vpandnd_vpandnq_evex.md R156). -/
theorem evexAndn_eq_next {es w : Nat} {feat : Bool} {h : Head} {e : Evex} {o : ModRm} {s t : State} :
    evexAndn es w feat h e o s = .next t ↔
      preFault .evex feat w (reservedEvex e o) h s = none ∧ ∃ b, evexSrc2 es w h e o s = .value b ∧
        t = (s.writeVecZeroing (evexDst e o) (maskedAndn es w (maskBit s e) e.z (s.vec w (evexDst e o))
          (s.vec w e.v) b)).advance (evexLen h o) :=
  complete_eq_next

end Sys2Proof.Machine
end

