-- ==== Sys2Proof/Laws/Memory.lean ====
section
/-! SUPPORT. Memory: reading after a write, the canonical form, and the bits of a little-endian read. -/

namespace Sys2Proof.Machine

open Sys2Proof

/-- An address below every listed one reads as unlisted. -/
theorem read_of_lt_all {m : Memory} {a : Nat} (h : ∀ c ∈ m, a < c.1) : m.read a = unlistedByte := by
  induction m with
  | nil => rfl
  | cons c m ih =>
    have hc : c.1 ≠ a := by have := h c (by simp); omega
    rw [Memory.read, if_neg hc]
    exact ih fun d hd => h d (by simp [hd])

/-- Every address listed after a write is the one written or was listed before. -/
theorem mem_write {m : Memory} {a : Nat} {b : Byte} {c : Host.Cell} (h : c ∈ m.write a b) :
    c = (a, b) ∧ b ≠ unlistedByte ∨ c ∈ m := by
  induction m with
  | nil =>
    simp only [Memory.write] at h
    split_ifs at h with hb
    · simp at h
    · exact .inl ⟨by simpa using h, hb⟩
  | cons d m ih =>
    simp only [Memory.write] at h
    split_ifs at h with h1 h2 hb hb
    · rcases List.mem_cons.1 h with rfl | h
      · exact .inr (by simp)
      · exact (ih h).imp id fun h => by simp [h]
    · exact .inr (by simp [h])
    · rcases List.mem_cons.1 h with h | h
      · exact .inl ⟨h, hb⟩
      · exact .inr (by simp [h])
    · exact .inr h
    · rcases List.mem_cons.1 h with h | h
      · exact .inl ⟨h, hb⟩
      · exact .inr h

/-- A write keeps the addresses strictly rising. -/
theorem write_sorted {m : Memory} {a : Nat} {b : Byte} (hs : m.Pairwise (fun x y => x.1 < y.1)) :
    (m.write a b).Pairwise (fun x y => x.1 < y.1) := by
  induction m with
  | nil => simp only [Memory.write]; split_ifs <;> simp
  | cons d m ih =>
    obtain ⟨hd, hs'⟩ := List.pairwise_cons.1 hs
    simp only [Memory.write]
    split_ifs with h1 h2 hb hb
    · refine List.pairwise_cons.2 ⟨fun c h => ?_, ih hs'⟩
      rcases mem_write h with ⟨rfl, -⟩ | h
      · exact h1
      · exact hd c h
    · exact hs'
    · exact List.pairwise_cons.2 ⟨fun c h => by have := hd c h; simp only; omega, hs'⟩
    · exact hs
    · refine List.pairwise_cons.2 ⟨fun c h => ?_, hs⟩
      rcases List.mem_cons.1 h with rfl | h
      · simp only; omega
      · have := hd c h; simp only; omega

/-- A write keeps the canonical form. -/
theorem write_wf {m : Memory} {a : Nat} {b : Byte} (hm : m.wf) (ha : a < 2 ^ 64) : Memory.wf (m.write a b) := by
  refine ⟨write_sorted hm.1, fun c h => ?_⟩
  rcases mem_write h with ⟨rfl, hb⟩ | h
  · exact ⟨ha, hb⟩
  · exact hm.2 c h

/-- A read after a write of the same address gives the byte written. -/
theorem read_write_same {m : Memory} {a : Nat} {b : Byte} (hm : m.Pairwise (fun x y => x.1 < y.1)) :
    Memory.read (m.write a b) a = b := by
  induction m with
  | nil =>
    simp only [Memory.write]
    split_ifs with hb
    · simp [Memory.read, hb]
    · simp [Memory.read]
  | cons d m ih =>
    obtain ⟨hd, hs⟩ := List.pairwise_cons.1 hm
    simp only [Memory.write]
    split_ifs with h1 h2 hb hb
    · rw [Memory.read, if_neg (by omega), ih hs]
    · rw [read_of_lt_all fun c h => by have := hd c h; omega, hb]
    · simp [Memory.read]
    · rw [read_of_lt_all, hb]
      intro c h
      rcases List.mem_cons.1 h with rfl | h
      · omega
      · have := hd c h; omega
    · simp [Memory.read]

/-- A write leaves every other address alone. -/
theorem read_write_other {m : Memory} {a x : Nat} {b : Byte} (hx : x ≠ a) :
    Memory.read (m.write a b) x = m.read x := by
  induction m with
  | nil =>
    simp only [Memory.write]
    split_ifs with hb
    · rfl
    · simp [Memory.read, hx.symm]
  | cons d m ih =>
    simp only [Memory.write]
    split_ifs with h1 h2 hb hb
    · simp [Memory.read, ih]
    · rw [Memory.read, if_neg (by omega)]
    · simp [Memory.read, hx.symm, show d.1 ≠ x by omega]
    · rfl
    · simp [Memory.read, hx.symm]

/-- Placing bytes changes nothing but memory, and keeps its canonical form. -/
theorem placeBytes_spec (bs : List Byte) (s : State) (la : Word) :
    (∃ m, s.placeBytes la bs = { s with mem := m }) ∧ (s.mem.wf → (s.placeBytes la bs).mem.wf) := by
  induction bs generalizing s la with
  | nil => exact ⟨⟨s.mem, rfl⟩, id⟩
  | cons b bs ih =>
    obtain ⟨⟨m, hm⟩, hw⟩ := ih { s with mem := s.mem.write la.toNat b } (la + 1)
    exact ⟨⟨m, hm⟩, fun h => hw (write_wf h la.isLt)⟩

/-- Placing bytes leaves every other address alone. -/
theorem byteAt_placeBytes_other {bs : List Byte} {s : State} {la a : Word}
    (h : ∀ j < bs.length, a ≠ la + BitVec.ofNat 64 j) : (s.placeBytes la bs).byteAt a = s.byteAt a := by
  induction bs generalizing s la with
  | nil => rfl
  | cons b bs ih =>
    rw [State.placeBytes, ih]
    · have h0 := h 0 (by simp)
      have : a.toNat ≠ la.toNat := fun e => h0 (by simpa using BitVec.eq_of_toNat_eq e)
      exact read_write_other this
    · intro j hj e
      refine h (j + 1) (by simpa using hj) ?_
      rw [e, BitVec.ofNat_add, BitVec.add_assoc, BitVec.add_comm (BitVec.ofNat 64 j)]
      rfl

/-- The byte at offset `k` of placed bytes, when they do not wrap onto themselves. -/
theorem byteAt_placeBytes (bs : List Byte) (s : State) (la : Word) (hw : s.mem.Pairwise (fun x y => x.1 < y.1))
    (hn : bs.length ≤ 2 ^ 64) (k : Nat) (hk : k < bs.length) :
    (s.placeBytes la bs).byteAt (la + BitVec.ofNat 64 k) = bs[k] := by
  induction bs generalizing s la k with
  | nil => simp at hk
  | cons b bs ih =>
    rw [State.placeBytes]
    cases k with
    | zero =>
      rw [byteAt_placeBytes_other]
      · simpa [State.byteAt] using read_write_same hw
      · intro j hj e
        have hj' : j + 1 < 2 ^ 64 := by simp at hn; omega
        have e' : la + 0#64 = la + (1#64 + BitVec.ofNat 64 j) := by rw [← BitVec.add_assoc]; exact e
        have := congrArg BitVec.toNat ((BitVec.add_right_inj la).1 e')
        simp at this
        omega
    | succ k =>
      have := ih { s with mem := s.mem.write la.toNat b } (la + 1) (write_sorted hw) (by simp at hn; omega) k
        (by simpa using hk)
      rw [List.getElem_cons_succ, ← this, BitVec.add_assoc]
      congr 2
      rw [Nat.add_comm, BitVec.ofNat_add]
      rfl

/-- Where the oracle has no byte of its own, it answers memory's (20_memory.md R57). -/
theorem dataAt_of_not_mem {s : State} {la : Word} (h : ∀ b, (la.toNat, b) ∉ s.plat.now.bytes) : s.dataAt la = s.byteAt la := by
  have : s.plat.now.bytes.find? (fun c => c.1 == la.toNat) = none :=
    List.find?_eq_none.2 fun c hc e => h c.2 (by rwa [← beq_iff_eq.1 e])
  rw [State.dataAt, this]

/-- The oracle's first byte for an address is what it answers (20_memory.md R57). -/
theorem dataAt_of_first {s : State} {la : Word} {b : Byte} {cs ds : List Host.Cell}
    (h : s.plat.now.bytes = cs ++ (la.toNat, b) :: ds) (hn : ∀ b', (la.toNat, b') ∉ cs) : s.dataAt la = b := by
  have hc : cs.find? (fun c => c.1 == la.toNat) = none :=
    List.find?_eq_none.2 fun c hc e => hn c.2 (by rwa [← beq_iff_eq.1 e])
  rw [State.dataAt, h, List.find?_append, hc]
  simp

/-- Bit `j` of a little-endian read is bit `j % 8` of the byte at offset `j / 8` (20_memory.md R53). -/
theorem testBit_readLE (s : State) (n : Nat) (la : Word) (j : Nat) :
    (s.readLE la n).testBit j =
      (decide (j < 8 * n) && (s.dataAt (la + BitVec.ofNat 64 (j / 8))).getLsbD (j % 8)) := by
  induction n generalizing la j with
  | zero => simp [State.readLE]
  | succ n ih =>
    have hb : (s.dataAt la).toNat < 2 ^ 8 := (s.dataAt la).isLt
    rw [State.readLE, Nat.add_comm, show (256 : Nat) = 2 ^ 8 from rfl, Nat.testBit_two_pow_mul_add _ hb]
    by_cases h8 : j < 8
    · simp [h8, show j < 8 * (n + 1) by omega, Nat.div_eq_of_lt h8, Nat.mod_eq_of_lt h8, BitVec.getLsbD]
    · rw [if_neg h8, ih]
      have hq : j / 8 = (j - 8) / 8 + 1 := by omega
      have hm : (j - 8) % 8 = j % 8 := by omega
      rw [hm, hq, Nat.add_comm ((j - 8) / 8) 1, BitVec.ofNat_add, ← BitVec.add_assoc]
      congr 1
      simp only [decide_eq_decide]
      omega

end Sys2Proof.Machine
end

