-- ==== Sys2Proof/Laws/Exec.lean ====
section
/-! SUPPORT. What an instruction can do, said once for all forms: the exceptions before its operand, those of the operand, and
the next state. -/

namespace Sys2Proof.Machine

open Sys2Proof
open Sys2Proof.Safety

/-- The reserved combination of an instruction's EVEX fields (60_exceptions.md R196). -/
def reservedOf (i : Instr) : Bool :=
  match evex? i with
  | none => false
  | some e => reservedEvex e (operands i)

/-- The exception of steps 1 to 3 of an instruction (60_exceptions.md R204). -/
def preOf (i : Instr) (s : State) : Option Fault :=
  preFault (cls i) (featuresPresent s.cfg i) (width i) (reservedOf i) (head i) s

/-- No condition of R193 to R197 holds exactly when `noUd` says so. -/
theorem noUd_iff (i : Instr) (s : State) :
    noUd i s = !(ctlUd (cls i) s || pfxUd (cls i) (head i) || !featuresPresent s.cfg i ||
      decide (maxvl s.cfg < width i) || reservedOf i || modeUd (cls i) s) := by
  have hw : decide (width i ≤ maxvl s.cfg) = !decide (maxvl s.cfg < width i) := by
    by_cases h : maxvl s.cfg < width i
    · simp [h]
    · simp [h]; omega
  cases i with
  | pandnMm h o =>
    simp only [noUd, hw]
    simp only [legal, enabled, cls, evex?, head, reservedOf, ctlUd, pfxUd, modeUd]
    cases s.cr0EM <;> cases h.pfx.contains .lock <;> cases featuresPresent s.cfg (.pandnMm h o) <;>
      cases decide (maxvl s.cfg < width (.pandnMm h o)) <;> rfl
  | pandnXmm h o =>
    simp only [noUd, hw]
    simp only [legal, enabled, cls, evex?, head, reservedOf, ctlUd, pfxUd, modeUd]
    cases s.cr0EM <;> cases s.osfxsr <;> cases h.pfx.contains .lock <;> cases featuresPresent s.cfg (.pandnXmm h o) <;>
      cases decide (maxvl s.cfg < width (.pandnXmm h o)) <;> rfl
  | vpandn128 h v o | vpandn256 h v o =>
    simp only [noUd, hw]
    simp only [legal, enabled, cls, evex?, head, reservedOf, ctlUd, pfxUd, modeUd, ← Option.not_isSome]
    generalize featuresPresent s.cfg _ = f
    generalize decide (maxvl s.cfg < width _) = d
    simp only [bne, Bool.not_or, Bool.not_not, Bool.and_true, Bool.or_false]
    ac_rfl
  | vpandnd128 h e o | vpandnd256 h e o | vpandnd512 h e o | vpandnq128 h e o | vpandnq256 h e o | vpandnq512 h e o =>
    simp only [noUd, hw]
    simp only [legal, enabled, cls, evex?, head, operands, reservedOf, reservedEvex, ctlUd, pfxUd, modeUd,
      ← Option.not_isSome]
    generalize featuresPresent s.cfg _ = f
    generalize decide (maxvl s.cfg < width _) = d
    rcases o with ⟨reg, rm | a⟩ <;>
    · simp only [bne, Bool.not_or, Bool.not_and, Bool.not_not, Bool.not_true, Bool.not_false]
      ac_rfl

/-- No exception of steps 1 to 3, in the words of the claims. -/
theorem preOf_eq_none {i : Instr} {s : State} :
    preOf i s = none ↔ noUd i s = true ∧ s.cr0TS = false ∧ (cls i = .mmx → s.fswES = false) := by
  rw [preOf, preFault_eq_none, noUd_iff]
  have : ((cls i == .mmx && s.fswES) = false) ↔ (cls i = .mmx → s.fswES = false) := by
    cases s.fswES <;> cases hc : cls i <;> simp
  rw [this]
  simp

/-- The exception of steps 1 to 3, in their order (60_exceptions.md R204). -/
theorem preOf_eq (i : Instr) (s : State) :
    preOf i s = if noUd i s = false then some .ud else if s.cr0TS then some .nm
      else if cls i == .mmx && s.fswES then some .mf else none := by
  rw [preOf, preFault, noUd_iff]
  generalize (ctlUd (cls i) s || pfxUd (cls i) (head i) || !featuresPresent s.cfg i ||
    decide (maxvl s.cfg < width i) || reservedOf i || modeUd (cls i) s) = c
  cases c <;> rfl

/-- An exception of steps 1 to 3 is raised whatever the operand is. -/
theorem exec_of_preOf {i : Instr} {s : State} {f : Fault} (h : preOf i s = some f) : exec i s = .fault f := by
  cases i <;> exact complete_eq_fault.2 (.inl h)

/-- No page fault is raised exactly when every byte that must be readable is answered with a byte. -/
theorem pageFault_eq_none {s : State} {q : Access} :
    pageFault s q = none ↔ ∀ j ∈ q.needed, s.pageFaultAt (q.byteAddr j) = none := by
  have hn : pageFaults s q = [] ↔ ∀ j ∈ q.needed, s.pageFaultAt (q.byteAddr j) = none := List.filterMap_eq_nil_iff
  rw [← hn, pageFault]
  constructor
  · intro h
    cases hl : pageFaults s q with
    | nil => rfl
    | cons a l =>
      have := List.getElem?_eq_none_iff.1 h
      have h2 := Nat.mod_lt s.plat.now.faultPick (show 0 < (pageFaults s q).length by rw [hl]; simp)
      omega
  · intro h; rw [h]; rfl

/-- A page fault that is raised is that of a byte that must be readable. -/
theorem pageFault_eq_some {s : State} {q : Access} {f : Fault} (h : pageFault s q = some f) :
    ∃ j, j < q.bytes ∧ q.need j = true ∧ s.pageFaultAt (q.byteAddr j) = some f := by
  obtain ⟨j, hj, hf⟩ := List.mem_filterMap.1 (List.mem_of_getElem? h)
  rw [Access.needed, List.mem_filter, List.mem_range] at hj
  exact ⟨j, hj.1, hj.2, hf⟩

end Sys2Proof.Machine
end

