-- ==== Sys2Proof/Laws/PerInstr.lean ====
section
/-! SUPPORT. Facts about an instruction as syntax, one lemma for each constructor of `Instr`. -/

open Sys2Proof

/-- The encoding of an instruction has as many bytes as its length says (30_encoding.md R117). -/
def Sys2Proof.Laws.EncodeLength.Statement (i : Instr) : Prop := (encode i).length = i.len

namespace Sys2Proof.Laws

theorem encodeLeg_length (h : Head) (o : ModRm) : (encodeLeg h o).length = legLen h o := by
  simp only [encodeLeg, legLen, List.length_append, head_bytes_length, modRm_bytes_length]; rfl

theorem encodeVex_length (l : Bool) (h : Head) (v : Vex) (o : ModRm) : (encodeVex l h v o).length = vexLen h v o := by
  obtain ⟨r, n, f⟩ := v
  cases f <;> simp only [encodeVex, vexLen, List.length_append, head_bytes_length, modRm_bytes_length] <;> simp +arith

theorem encodeEvex_length (w : Bool) (ll : BitVec 2) (h : Head) (e : Evex) (o : ModRm) :
    (encodeEvex w ll h e o).length = evexLen h o := by
  simp only [encodeEvex, evexLen, List.length_append, head_bytes_length, modRm_bytes_length]; rfl

theorem EncodeLength.pandnMm (h : Head) (o : ModRm) : EncodeLength.Statement (.pandnMm h o) := encodeLeg_length h o
theorem EncodeLength.pandnXmm (h : Head) (o : ModRm) : EncodeLength.Statement (.pandnXmm h o) := encodeLeg_length h o
theorem EncodeLength.vpandn128 (h : Head) (v : Vex) (o : ModRm) : EncodeLength.Statement (.vpandn128 h v o) :=
  encodeVex_length _ h v o
theorem EncodeLength.vpandn256 (h : Head) (v : Vex) (o : ModRm) : EncodeLength.Statement (.vpandn256 h v o) :=
  encodeVex_length _ h v o
theorem EncodeLength.vpandnd128 (h : Head) (e : Evex) (o : ModRm) : EncodeLength.Statement (.vpandnd128 h e o) :=
  encodeEvex_length _ _ h e o
theorem EncodeLength.vpandnd256 (h : Head) (e : Evex) (o : ModRm) : EncodeLength.Statement (.vpandnd256 h e o) :=
  encodeEvex_length _ _ h e o
theorem EncodeLength.vpandnd512 (h : Head) (e : Evex) (o : ModRm) : EncodeLength.Statement (.vpandnd512 h e o) :=
  encodeEvex_length _ _ h e o
theorem EncodeLength.vpandnq128 (h : Head) (e : Evex) (o : ModRm) : EncodeLength.Statement (.vpandnq128 h e o) :=
  encodeEvex_length _ _ h e o
theorem EncodeLength.vpandnq256 (h : Head) (e : Evex) (o : ModRm) : EncodeLength.Statement (.vpandnq256 h e o) :=
  encodeEvex_length _ _ h e o
theorem EncodeLength.vpandnq512 (h : Head) (e : Evex) (o : ModRm) : EncodeLength.Statement (.vpandnq512 h e o) :=
  encodeEvex_length _ _ h e o

end Sys2Proof.Laws
end

