-- ==== Sys2Proof/Tests/Slice0.lean ====
section
/-! SUPPORT. The model's own tests: words written out from the encodings of spec/30_encoding.md, the numeric examples of
spec/40 to 42, ill-formed terms, and for each statement with hypotheses a state and operands that meet them. -/

namespace Sys2Proof.Tests

open Sys2Proof
open Sys2Proof.Machine
open Sys2Proof.Safety

/-! ## Helpers -/

/-- The launch state (70_reset_and_hazards.md R232) from reset: `rip` = FFF0H, every general register but RDX 0. -/
def st : State := State.reset.launch

/-- `st` with CR0 as given. -/
def withCr0 (v : BitVec 64) : State := { st with ctl := { st.ctl with cr0 := v } }

/-- `st` with other parameters. -/
def withCfg (c : Config) : State := { st with cfg := c }

/-- `st` with alignment checking on: CR0.AM, EFLAGS.AC, CPL 3. -/
def stAC : State :=
  { st with rflags := 0x40002#64, ctl := { st.ctl with cr0 := 0x60040011#64, cpl := 3#2 } }

/-- `st` with RAX as given. -/
def withRax (v : Word) : State := { st with gpr := st.gpr.set 0 v }

/-- `st` with one page that is not present. -/
def unmapped (base : Nat) : State := { st with plat := ⟨⟨[], [⟨base, 0x1000, false, false, false, false⟩], 0⟩, [], []⟩ }

/-- `st` with every bit of every vector register 1. -/
def stOnes : State := { st with zmm := Vector.replicate 32 (BitVec.allOnes 512) }

def isNext : Host.Outcome State Fault Refusal → Bool
  | .next _ => true
  | .fault _ => false
  | .refused _ => false

def faultOf : Host.Outcome State Fault Refusal → Option Fault
  | .next _ => none
  | .fault f => some f
  | .refused _ => none

def refusalOf : Host.Outcome State Fault Refusal → Option Refusal
  | .next _ => none
  | .fault _ => none
  | .refused r => some r

/-- The state after one step, if there is one, with the bytes placed at `rip`. -/
def ran (bs : List Byte) (s : State) : Option State :=
  match step (s.placeBytes s.rip bs) with
  | .next t => some t
  | .fault _ => none
  | .refused _ => none

/-- Every instruction of the list gives a next state, one after the other. -/
def seqNext : List Instr → State → Bool
  | [], _ => true
  | i :: is, s =>
    match exec i s with
    | .next t => seqNext is t
    | .fault _ => false
    | .refused _ => false

def h0 : Head := ⟨[], none⟩
def hx : Head := ⟨[.opSize], none⟩
def v2 : Vex := ⟨false, 2, .two⟩
def ev (z bc : Bool) (aaa : BitVec 3) : Evex := ⟨false, false, false, false, 2, z, bc, aaa⟩
def r13 : ModRm := ⟨1, .reg 3⟩
def m1 : ModRm := ⟨1, .mem (.base 0 .none)⟩

/-- The six EVEX forms with given fields. -/
def evexForms (e : Evex) (o : ModRm) : List Instr :=
  [.vpandnd128 h0 e o, .vpandnd256 h0 e o, .vpandnd512 h0 e o, .vpandnq128 h0 e o, .vpandnq256 h0 e o, .vpandnq512 h0 e o]

/-- The ten forms with operands `o` and a writemask. -/
def forms (o : ModRm) : List Instr :=
  [.pandnMm h0 o, .pandnXmm hx o, .vpandn128 h0 v2 o, .vpandn256 h0 v2 o] ++ evexForms (ev false false 1) o

/-! ## WellFormed refuses ill-formed terms -/

theorem test_wf_forms : (forms r13 ++ forms m1).all Instr.wf = true := by decide +kernel
theorem test_ill_rm4_base : (Instr.pandnMm h0 ⟨0, .mem (.base 4 .none)⟩).wf = false := by decide +kernel
theorem test_ill_rm5_no_disp : (Instr.pandnMm h0 ⟨0, .mem (.base 5 .none)⟩).wf = false := by decide +kernel
theorem test_ill_sib_base5 : (Instr.pandnMm h0 ⟨0, .mem (.sib 0 4 5 .none)⟩).wf = false := by decide +kernel
theorem test_ill_repeated_group : (Instr.pandnMm ⟨[.seg .fs, .seg .gs], none⟩ r13).wf = false := by decide +kernel
theorem test_ill_rep : (Instr.pandnMm ⟨[.rep], none⟩ r13).wf = false := by decide +kernel
theorem test_ill_repne : (Instr.pandnXmm ⟨[.repne, .opSize], none⟩ r13).wf = false := by decide +kernel
theorem test_ill_mm_with_66 : (Instr.pandnMm hx r13).wf = false := by decide +kernel
theorem test_ill_xmm_without_66 : (Instr.pandnXmm h0 r13).wf = false := by decide +kernel
theorem test_ill_too_long :
    (Instr.vpandnd128 ⟨[.lock, .seg .fs, .opSize, .addrSize], some ⟨false, false, false, false⟩⟩ (ev false false 1)
      ⟨0, .mem (.sib 0 0 0 (.d32 0))⟩).wf = false := by decide +kernel

/-! ## Words written out from 30_encoding.md R115, one for each constructor and more -/

theorem test_decode_mm : decode [0x0F#8, 0xDF#8, 0xC1#8] = .instr (.pandnMm h0 ⟨0, .reg 1⟩) [] := by decide +kernel
theorem test_decode_xmm : decode [0x66#8, 0x0F#8, 0xDF#8, 0xC1#8] = .instr (.pandnXmm hx ⟨0, .reg 1⟩) [] := by
  decide +kernel
theorem test_decode_vex128 : decode [0xC5#8, 0xE9#8, 0xDF#8, 0xCB#8] = .instr (.vpandn128 h0 v2 r13) [] := by
  decide +kernel
theorem test_decode_vex256 : decode [0xC5#8, 0xED#8, 0xDF#8, 0xCB#8] = .instr (.vpandn256 h0 v2 r13) [] := by
  decide +kernel
theorem test_decode_d128 : decode [0x62#8, 0xF1#8, 0x6D#8, 0x09#8, 0xDF#8, 0xCB#8] =
    .instr (.vpandnd128 h0 (ev false false 1) r13) [] := by decide +kernel
theorem test_decode_d256 : decode [0x62#8, 0xF1#8, 0x6D#8, 0xA9#8, 0xDF#8, 0xCB#8] =
    .instr (.vpandnd256 h0 (ev true false 1) r13) [] := by decide +kernel
theorem test_decode_d512 : decode [0x62#8, 0xF1#8, 0x6D#8, 0xD9#8, 0xDF#8, 0x0B#8] =
    .instr (.vpandnd512 h0 (ev true true 1) ⟨1, .mem (.base 3 .none)⟩) [] := by decide +kernel
theorem test_decode_q128 : decode [0x62#8, 0xF1#8, 0xED#8, 0x0A#8, 0xDF#8, 0xCB#8] =
    .instr (.vpandnq128 h0 (ev false false 2) r13) [] := by decide +kernel
theorem test_decode_q256 : decode [0x62#8, 0xF1#8, 0xED#8, 0xBA#8, 0xDF#8, 0x4A#8, 0x01#8] =
    .instr (.vpandnq256 h0 (ev true true 2) ⟨1, .mem (.base 2 (.d8 1))⟩) [] := by decide +kernel
theorem test_decode_q512 : decode [0x62#8, 0xF1#8, 0xD5#8, 0x48#8, 0xDF#8, 0x20#8] =
    .instr (.vpandnq512 h0 ⟨false, false, false, false, 5, false, false, 0⟩ ⟨4, .mem (.base 0 .none)⟩) [] := by
  decide +kernel

/-- A 3-byte VEX prefix with all extension bits, `vvvv = 15`, and a SIB byte with `disp32` (R95, 20_memory.md R67). -/
theorem test_decode_vex3_sib : decode [0xC4#8, 0x01#8, 0x81#8, 0xDF#8, 0xBC#8, 0xC8#8, 0x78#8, 0x56#8, 0x34#8, 0x12#8] =
    .instr (.vpandn128 h0 ⟨true, 15, .three true true true⟩ ⟨7, .mem (.sib 3 1 0 (.d32 0x12345678#32))⟩) [] := by
  decide +kernel

/-- Every stored-inverted EVEX bit 0: registers 24 + 8 - 1 = 31 (R104, R105). -/
theorem test_decode_evex_high : decode [0x62#8, 0x01#8, 0x05#8, 0x40#8, 0xDF#8, 0xFF#8] =
    .instr (.vpandnd512 h0 ⟨true, true, true, true, 31, false, false, 0⟩ ⟨7, .reg 7⟩) [] := by decide +kernel

/-- `L'L = 11` raises #UD, a reserved payload bit is refused, another opcode is refused (R119, R118). -/
theorem test_decode_rejects :
    decode [0x62#8, 0xF1#8, 0x6D#8, 0x69#8, 0xDF#8, 0xCB#8] = .ud 5 ∧
    decode [0x62#8, 0xF5#8, 0x6D#8, 0x09#8, 0xDF#8, 0xCB#8] = .refuse .reservedEvex ∧
    decode [0x0F#8, 0xDE#8, 0xC1#8] = .refuse .otherOpcode ∧
    decode [0xF3#8, 0x0F#8, 0xDF#8, 0xC1#8] = .refuse .repBeforeLeg ∧
    decode [0x66#8, 0x66#8, 0x0F#8, 0xDF#8, 0xC1#8] = .refuse .repeatedPfx ∧
    decode [0x48#8, 0x66#8, 0x0F#8, 0xDF#8, 0xC1#8] = .refuse .rexNotLast ∧
    decode [0xC5#8, 0xE8#8, 0xDF#8, 0xCB#8] = .refuse .notPandn ∧
    decode [0x0F#8, 0xDF#8] = .refuse .incomplete := by decide +kernel

/-- Bytes under a #UD rule and a refusal rule at once are refused (assumption log 37). -/
theorem test_decode_overlap :
    decode [0x66#8, 0x66#8, 0xC5#8, 0xE9#8, 0xDF#8, 0xCB#8] = .refuse .repeatedPfx ∧
    decode [0x48#8, 0x66#8, 0xC5#8, 0xE9#8, 0xDF#8, 0xCB#8] = .refuse .rexNotLast ∧
    decode [0xF0#8, 0xF0#8, 0x0F#8, 0xDF#8, 0xC1#8] = .refuse .repeatedPfx := by decide +kernel

/-- The table's windows decode to their rows (R125); the XMM form's window is the MMX form's (assumption log 11). -/
theorem test_table_words :
    (decodeTableWord 24 0x0FDF00) = some (.pandnMm h0 ⟨0, .mem (.base 0 .none)⟩) ∧
    (decodeTableWord 40 0xC40101DFC0) = some (.vpandn128 h0 ⟨true, 15, .three true true false⟩ ⟨0, .reg 0⟩) ∧
    (decodeTableWord 48 0x62F1ED0ADFCB) = some (.vpandnq128 h0 (ev false false 2) r13) ∧
    (decodeTableWord 24 0x0FDE00) = none := by decide +kernel

/-- `withFetchWord` makes the very next step after reset run the word. -/
theorem test_fetch_word :
    isNext (step (State.reset.withFetchWord 24 0x0FDF00)) = true ∧
    isNext (step (State.reset.withFetchWord 48 0x62F1ED0ADFCB)) = true := by decide +kernel

/-! ## The numeric examples of spec/40 to 42 -/

/-- 40_pandn_legacy.md R130, Example, with the x87 side effects of 10_state.md R25. -/
theorem test_pandn_mm :
    (ran [0x0F#8, 0xDF#8, 0xC1#8] ((st.writeMm 0 0x00FF00FF0F0F3333#64).writeMm 1 0xFFFF0000AAAA5555#64)).map
      (fun t => (t.readMm 0, t.readMm 1, t.rip, t.x87.tag, t.x87.hi[0])) =
    some (0xFF000000A0A04444#64, 0xFFFF0000AAAA5555#64, 0xFFF3#64, 0#16, 0xFFFF#16) := by decide +kernel

/-- A memory operand read little-endian: MM1 = 0, so the result is the operand (20_memory.md R53). -/
theorem test_pandn_mm_memory :
    (ran [0x0F#8, 0xDF#8, 0x08#8] ((withRax 0x2001#64).placeBytes 0x2001#64
      [0x01#8, 0x02#8, 0x03#8, 0x04#8, 0x05#8, 0x06#8, 0x07#8, 0x08#8])).map (fun t => t.readMm 1) =
    some 0x0807060504030201#64 := by decide +kernel

/-- 40_pandn_legacy.md R131, Example: the bits above 127 are kept. -/
theorem test_pandn_xmm :
    (ran [0x66#8, 0x0F#8, 0xDF#8, 0xC1#8] ((stOnes.writeZmm 0
      (0x1#384 ++ 0x0123456789ABCDEFFEDCBA9876543210#128)).writeZmm 1
      (0x0#384 ++ 0xFFFFFFFF00000000F0F0F0F00F0F0F0F#128))).map (fun t => (t.readZmm 0, t.rip)) =
    some (0x1#384 ++ 0xFEDCBA980000000000204060090B0D0F#128, 0xFFF4#64) := by decide +kernel

/-- 41_vpandn_vex.md R140, Example: the bits above 127 are zeroed. -/
theorem test_vpandn128 :
    (ran [0xC5#8, 0xE9#8, 0xDF#8, 0xCB#8] ((stOnes.writeZmm 2
      (0x1#384 ++ 0x0123456789ABCDEFFEDCBA9876543210#128)).writeZmm 3
      (0x1#384 ++ 0xFFFFFFFF00000000F0F0F0F00F0F0F0F#128))).map (fun t => (t.readZmm 1, t.rip)) =
    some (0xFEDCBA980000000000204060090B0D0F#512, 0xFFF4#64) := by decide +kernel

/-- 41_vpandn_vex.md R141, Example. -/
theorem test_vpandn256 :
    (ran [0xC5#8, 0xED#8, 0xDF#8, 0xCB#8] (stOnes.writeZmm 2
      0x1F1E1D1C1B1A191817161514131211100F0E0D0C0B0A09080706050403020100#512)).map (fun t => (t.readZmm 1, t.rip)) =
    some (0xE0E1E2E3E4E5E6E7E8E9EAEBECEDEEEFF0F1F2F3F4F5F6F7F8F9FAFBFCFDFEFF#512, 0xFFF4#64) := by decide +kernel

/-- 42_vpandnd_vpandnq_evex.md R150, Example: merging. -/
theorem test_vpandnd128 :
    (ran [0x62#8, 0xF1#8, 0x6D#8, 0x09#8, 0xDF#8, 0xCB#8] { (((stOnes.writeZmm 2 0x0F0F0F0F0F0F0F0F0F0F0F0F0F0F0F0F#512).writeZmm 3
      0x44444444333333332222222211111111#512).writeZmm 1
      (0x1#384 ++ 0xDDDDDDDDCCCCCCCCBBBBBBBBAAAAAAAA#128)) with k := st.k.set 1 5 }).map
      (fun t => (t.readZmm 1, t.rip)) =
    some (0xDDDDDDDD30303030BBBBBBBB10101010#512, 0xFFF6#64) := by decide +kernel

/-- 42_vpandnd_vpandnq_evex.md R151, Example: zeroing. -/
theorem test_vpandnd256 :
    (ran [0x62#8, 0xF1#8, 0x6D#8, 0xA9#8, 0xDF#8, 0xCB#8] { ((stOnes.writeZmm 2
      0xFFFF0000FFFF0000FFFF0000FFFF0000FFFF0000FFFF0000FFFF0000FFFF0000#512).writeZmm 3
      0x789ABCDE6789ABCD56789ABC456789AB3456789A234567891234567801234567#512) with k := st.k.set 1 0xF0 }).map
      (fun t => (t.readZmm 1, t.rip)) =
    some (0x0000BCDE0000ABCD00009ABC000089AB00000000000000000000000000000000#512, 0xFFF6#64) := by decide +kernel

/-- 42_vpandnd_vpandnq_evex.md R152, Example: a broadcast doubleword, zeroing; elements 0 and 3. -/
theorem test_vpandnd512 :
    (ran [0x62#8, 0xF1#8, 0x6D#8, 0xD9#8, 0xDF#8, 0x0B#8] { ((stOnes.writeZmm 2
      0xFFFFFFFFEEEEEEEEDDDDDDDDCCCCCCCCBBBBBBBBAAAAAAAA99999999888888887777777766666666555555554444444433333333222222221111111100000000#512
      ).placeBytes 0x2000#64 [0xFF#8, 0x00#8, 0xFF#8, 0x00#8]) with
        k := st.k.set 1 0xAAAA, gpr := st.gpr.set 3 0x2000#64 }).map
      (fun t => (elem 32 0 (t.readZmm 1), elem 32 3 (t.readZmm 1), t.rip)) =
    some (0#32, 0x00CC00CC#32, 0xFFF6#64) := by decide +kernel

/-- 42_vpandnd_vpandnq_evex.md R153, Example: merging. -/
theorem test_vpandnq128 :
    (ran [0x62#8, 0xF1#8, 0xED#8, 0x0A#8, 0xDF#8, 0xCB#8] { (((stOnes.writeZmm 2 0xFFFFFFFF0000000000000000FFFFFFFF#512).writeZmm 3
      0xFEDCBA98765432100123456789ABCDEF#512).writeZmm 1
      0x22222222222222221111111111111111#512) with k := st.k.set 2 2 }).map (fun t => (t.readZmm 1, t.rip)) =
    some (0x00000000765432101111111111111111#512, 0xFFF6#64) := by decide +kernel

/-- 42_vpandnd_vpandnq_evex.md R154, Example: `disp8 = 1` counts quadwords under broadcast. -/
theorem test_vpandnq256 :
    (ran [0x62#8, 0xF1#8, 0xED#8, 0xBA#8, 0xDF#8, 0x4A#8, 0x01#8] { ((stOnes.writeZmm 2
      0xFFFFFFFF00000000000000000000FF0000000000000000FF0000000000000000#512).placeBytes 0x2008#64
      [0xEF#8, 0xBE#8, 0xAD#8, 0xDE#8]) with k := st.k.set 2 0xB, gpr := st.gpr.set 2 0x2000#64 }).map
      (fun t => (t.readZmm 1, t.rip)) =
    some (0x00000000DEADBEEF000000000000000000000000DEADBE0000000000DEADBEEF#512, 0xFFF7#64) := by decide +kernel

/-- 42_vpandnd_vpandnq_evex.md R155, Example: a full memory operand, no writemask. -/
theorem test_vpandnq512 :
    (ran [0x62#8, 0xF1#8, 0xD5#8, 0x48#8, 0xDF#8, 0x20#8] ((({ st with gpr := st.gpr.set 0 0x3000#64 }).writeZmm 5
      0x07070707070707070606060606060606050505050505050504040404040404040303030303030303020202020202020201010101010101010000000000000000#512).placeBytes 0x3000#64 (List.replicate 64 0xFF#8))).map (fun t => (t.readZmm 4, t.rip)) =
    some (~~~0x07070707070707070606060606060606050505050505050504040404040404040303030303030303020202020202020201010101010101010000000000000000#512, 0xFFF6#64) := by
  decide +kernel

/-! ## Witnesses: for each statement with hypotheses, states and operands that meet them -/

/-- A premise `runs`: every form, with a register, a memory, and (EVEX) a broadcast operand, under each masking. -/
theorem witness_completes :
    (forms r13 ++ forms m1 ++ evexForms (ev false false 0) r13 ++ evexForms (ev true false 1) r13 ++
      evexForms (ev true true 7) m1).all (fun i => runs i st) = true := by decide +kernel

/-- A premise `exec i s = .next t`, for every form (frames, `rip`, stores, flags, MXCSR). -/
theorem witness_next : (forms r13 ++ forms m1).all (fun i => isNext (exec i st)) = true := by decide +kernel

/-- StepWritesOnlyItsRow: a step that completes. -/
theorem witness_step_next : (ran [0x0F#8, 0xDF#8, 0xC1#8] st).isSome = true := by decide +kernel

/-- FlagsNeitherWrittenNorRead, second clause: other flags, the same AC and VM. -/
theorem witness_flags :
    (0xFFFFFFFFFFF9FFFF#64).getLsbD 18 = st.rflags.getLsbD 18 ∧
    (0xFFFFFFFFFFF9FFFF#64).getLsbD 17 = st.rflags.getLsbD 17 ∧ (0xFFFFFFFFFFF9FFFF#64) ≠ st.rflags := by decide +kernel

/-- MaskBitsAboveKlIgnored: other bits from position `KL` up, in registers of 16 and of 64 bits, for `KL` = 16 and for `KL` = 2. -/
theorem witness_mask_above :
    (∀ n : BitVec 3, ∀ j < width (.vpandnd512 h0 (ev false false 1) r13) / elemSize (.vpandnd512 h0 (ev false false 1) r13),
      (State.readK { st with k := Vector.replicate 8 0x10000, cfg := { st.cfg with kw := 64 } } n).getLsbD j =
        (st.readK n).getLsbD j) ∧
    (∀ n : BitVec 3, ∀ j < width (.vpandnq128 h0 (ev false false 1) r13) / elemSize (.vpandnq128 h0 (ev false false 1) r13),
      (State.readK { st with k := Vector.replicate 8 0xFFFC, cfg := { st.cfg with kw := 16 } } n).getLsbD j =
        (st.readK n).getLsbD j) := by decide +kernel

/-- EvexZeroesUpperBits: merging with a mask of zeros, and a bit set above the vector length. -/
theorem witness_evex_upper :
    evex? (.vpandnd128 h0 (ev false false 1) r13) = some (ev false false 1) ∧
    isNext (exec (.vpandnd128 h0 (ev false false 1) r13) stOnes) = true ∧
    (ev false false 1).z = false ∧ (ev false false 1).aaa ≠ 0#3 ∧
    (∀ j < 4, (stOnes.readK 1).getLsbD j = false) ∧
    (stOnes.readZmm (dst (.vpandnd128 h0 (ev false false 1) r13))).getLsbD 128 = true := by decide +kernel

/-- LastFormDecidesUpperBits: both orders run, for a VEX and an EVEX form. -/
theorem witness_last_form :
    width (.vpandn128 h0 v2 r13) = 128 ∧ cls (.vpandn128 h0 v2 r13) ≠ .sse ∧
    dst (.vpandn128 h0 v2 r13) = sseDst hx r13 ∧
    width (.vpandnq128 h0 (ev false false 0) r13) = 128 ∧ cls (.vpandnq128 h0 (ev false false 0) r13) ≠ .sse ∧
    dst (.vpandnq128 h0 (ev false false 0) r13) = sseDst hx r13 ∧
    seqNext [.vpandn128 h0 v2 r13, .pandnXmm hx r13, .vpandn128 h0 v2 r13] stOnes = true ∧
    seqNext [.vpandnq128 h0 (ev false false 0) r13, .pandnXmm hx r13, .vpandnq128 h0 (ev false false 0) r13] stOnes = true := by
  decide +kernel

/-- OutcomeDependsOnlyOnInputs: states that differ in MXCSR, in a register no operand names, and in bits above the width. -/
theorem witness_same_inputs :
    SameInputs (.vpandnd128 h0 (ev false false 1) r13) st
      (({ st with mxcsr := 0#32 }.writeZmm 9 7#512).writeZmm 2 (1#512 <<< 128)) := by
  refine ⟨by unfold SameControl; decide +kernel, fun _ => rfl, by decide +kernel, fun _ => ⟨by decide +kernel, fun _ => by decide +kernel, ?_⟩, ?_⟩
  · intro rm h; cases h; decide +kernel
  · intro e h _; cases h; decide +kernel

/-- AndnLaws: a bit inside the width, and a slice that ends at the width. -/
theorem witness_andn_laws : (3 < 4) ∧ 2 + 2 ≤ 4 ∧ andn (0b0011#4) 0b0101#4 = 0b0100#4 := by decide

/-- PandnTwiceIsAnd: distinct registers, and both executions complete. -/
theorem witness_twice :
    num5 false (rexR hx) 1 ≠ num5 false (rexB hx) 3 ∧ seqNext [.pandnXmm hx r13, .pandnXmm hx r13] stOnes = true := by
  decide +kernel

/-- ElementSizeIrrelevantUnmasked: no broadcast; no writemask, and a mask whose bits 15:0 are ones; the VEX form's registers
are the EVEX form's, and both complete. -/
theorem witness_element_size :
    (ev false false 0).bc = false ∧ (ev false false 0).aaa = 0#3 ∧
    (∀ j < 16, (({ st with k := st.k.set 1 0xFFFF } : State).readK (ev false false 1).aaa).getLsbD j = true) ∧
    r13.rm = .reg 3 ∧ vexDst v2 r13 = evexDst (ev false false 0) r13 ∧ vexSrc1 v2 = (ev false false 0).v ∧
    num5 false (vexB v2) 3 = num5 (ev false false 0).x (ev false false 0).b 3 ∧
    isNext (exec (.vpandn128 h0 v2 r13) stOnes) = true ∧ isNext (exec (.vpandn256 h0 v2 r13) stOnes) = true ∧
    isNext (exec (.vpandnd128 h0 (ev false false 0) r13) stOnes) = true ∧
    isNext (exec (.vpandnd256 h0 (ev false false 0) r13) stOnes) = true := by decide +kernel

/-- LiteralLoopInAnyOrder: the destination is the second source, the order is reversed, a mask with both bits. -/
theorem witness_literal_loop :
    evex? (.vpandnd128 h0 (ev false false 1) ⟨3, .reg 3⟩) = some (ev false false 1) ∧
    evexSrc2 32 128 h0 (ev false false 1) ⟨3, .reg 3⟩ stOnes = .value (BitVec.allOnes 128) ∧
    isNext (exec (.vpandnd128 h0 (ev false false 1) ⟨3, .reg 3⟩) { stOnes with k := st.k.set 1 5 }) = true ∧
    [3, 2, 1, 0].Perm (List.range (128 / 32)) := by decide +kernel

/-- The oracle's answer 55H at address 1, and after the next execution the answer AAH there (20_memory.md R57, R73). -/
def stOracle : State :=
  { st with plat := ⟨⟨[(1, 0x55#8)], [], 0⟩, [⟨[(1, 0xAA#8)], [], 0⟩], []⟩ }

/-- LittleEndianOperand, second clause: an address with an answer of its own, and one with memory's byte. -/
theorem witness_oracle :
    (∀ b, ((2 : Word).toNat, b) ∉ stOracle.plat.now.bytes) ∧
    stOracle.plat.now.bytes = [] ++ ((1 : Word).toNat, 0x55#8) :: [] ∧ stOracle.dataAt 1 = 0x55#8 := by
  refine ⟨fun b h => ?_, by decide +kernel, by decide +kernel⟩
  simp [stOracle] at h

/-- Two executions that read one address get two answers: `PANDN mm1, [rax]` twice leaves `(~ B) & A` with the two operands. -/
theorem test_oracle_changes :
    (match step (stOracle.placeBytes stOracle.rip [0x0F#8, 0xDF#8, 0x08#8, 0x0F#8, 0xDF#8, 0x08#8]) with
      | .next t => some (t.readMm 1, t.dataAt 1, (match step t with | .next u => some (u.readMm 1) | _ => none))
      | _ => none) = some (0x5500#64, 0xAA#8, some 0xAA00#64) := by decide +kernel

/-- LittleEndianOperand, NarrowReadIsLowBits, IntrinsicsMeaning: the last byte and bit, equal widths, the last bit. -/
theorem witness_little_endian : 63 < 64 ∧ 7 < 8 ∧ 8 ≤ 8 ∧ 511 < 512 ∧ 255 < 256 ∧ 127 < 128 := by decide

/-- EffectiveAddressForms and AddressSize32: with and without 67H; index number 4 (none), and 12 (R12, an index). -/
theorem witness_address_forms :
    Pfx.addrSize ∉ h0.pfx ∧ Pfx.addrSize ∈ [Pfx.addrSize] ∧ num4 false 4 = 4#4 ∧ num4 true 4 ≠ 4#4 ∧
    effAddr (withRax 0x10#64) h0 false false 16 0#64 (.base 0 (.d8 0xFF)) = 0#64 := by decide +kernel

/-- SegmentOverride: FS, GS, and neither. -/
theorem witness_segments :
    Head.wf ⟨[.seg .fs], none⟩ = true ∧ Head.wf ⟨[.seg .gs], none⟩ = true ∧ Head.wf ⟨[.seg .ss], none⟩ = true ∧
    Pfx.seg .fs ∈ [Pfx.seg .fs] ∧ Pfx.seg .gs ∈ [Pfx.seg .gs] ∧ Pfx.seg .fs ∉ [Pfx.seg .ss] ∧
    Pfx.seg .gs ∉ [Pfx.seg .ss] := by decide +kernel

/-- OperandAddressAndSize: under fault suppression the bytes of a masked-off element need not be readable, those of the element
after it must; a broadcast element must when some mask bit below `KL` is 1, and need not for a mask bit above. -/
theorem witness_need :
    let s := { withCfg { Config.reference with faultSuppression := true } with k := (st.k.set 1 2).set 2 16 }
    (accessOf (.base 0 .none) s (.vpandnd128 h0 (ev false false 1) m1)).need 3 = false ∧
    (accessOf (.base 0 .none) s (.vpandnd128 h0 (ev false false 1) m1)).need 4 = true ∧
    (accessOf (.base 0 .none) s (.vpandnd128 h0 (ev false true 1) m1)).need 0 = true ∧
    (accessOf (.base 0 .none) s (.vpandnd128 h0 (ev false true 2) m1)).need 0 = false := by decide +kernel

/-- CanonicalMeansEqualTopBits: the edges of the two canonical halves under `VA_BITS` = 48, and the ends of the range of `va`. -/
theorem witness_canonical :
    canonical 48 0x00007FFFFFFFFFFF#64 = true ∧ canonical 48 0x0000800000000000#64 = false ∧
    canonical 48 0xFFFF7FFFFFFFFFFF#64 = false ∧ canonical 48 0xFFFF800000000000#64 = true ∧
    canonical 1 0#64 = true ∧ canonical 1 1#64 = false ∧ canonical 64 0x8000000000000000#64 = true := by decide +kernel

/-- ForbiddenPrefixIsUd: LOCK on every form, 66H and REX before VEX and EVEX. -/
theorem witness_forbidden_pfx :
    faultOf (exec (.pandnMm ⟨[.lock], none⟩ r13) st) = some .ud ∧
    faultOf (exec (.vpandn128 ⟨[.opSize], none⟩ v2 r13) st) = some .ud ∧
    faultOf (exec (.vpandn256 ⟨[.rep], none⟩ v2 r13) st) = some .ud ∧
    faultOf (exec (.vpandnd128 ⟨[.repne], none⟩ (ev false false 1) r13) st) = some .ud ∧
    faultOf (exec (.vpandnq512 ⟨[], some ⟨true, false, false, false⟩⟩ (ev false false 1) r13) st) = some .ud := by
  decide +kernel

/-- MissingFeatureIsUd: no AVX2; AVX512F without AVX512VL; no MMX. -/
theorem witness_missing_feature :
    featuresPresent { Config.reference with avx2 := false } (.vpandn256 h0 v2 r13) = false ∧
    featuresPresent { Config.reference with avx512vl := false } (.vpandnd256 h0 (ev false false 1) r13) = false ∧
    featuresPresent { Config.reference with mmx := false } (.pandnMm h0 r13) = false ∧
    faultOf (exec (.vpandn256 h0 v2 r13) (withCfg { Config.reference with avx2 := false })) = some .ud := by decide +kernel

/-- ControlStateIsUd: each row of R193, one bit at a time. -/
theorem witness_control_state :
    faultOf (exec (.pandnMm h0 r13) (withCr0 0x15#64)) = some .ud ∧
    faultOf (exec (.pandnXmm hx r13) (withCr0 0x15#64)) = some .ud ∧
    faultOf (exec (.pandnXmm hx r13) { st with ctl := { st.ctl with cr4 := 0x40000#64 } }) = some .ud ∧
    faultOf (exec (.vpandn128 h0 v2 r13) { st with ctl := { st.ctl with cr4 := 0x200#64 } }) = some .ud ∧
    faultOf (exec (.vpandn128 h0 v2 r13) { st with ctl := { st.ctl with xcr0 := 0xE3#64 } }) = some .ud ∧
    faultOf (exec (.vpandnd128 h0 (ev false false 1) r13) { st with ctl := { st.ctl with xcr0 := 0xC7#64 } }) = some .ud ∧
    isNext (exec (.vpandn128 h0 v2 r13) { st with ctl := { st.ctl with xcr0 := 7#64 } }) = true := by decide +kernel

/-- ReservedEvexFields: `z` without a mask, `b` with a register, `L'L = 11` in a step after a segment override; `P0[3:2]` = 01 and
`P1[2]` = 0. -/
theorem witness_reserved_evex :
    faultOf (exec (.vpandnd128 h0 (ev true false 0) r13) st) = some .ud ∧
    faultOf (exec (.vpandnd128 h0 (ev false true 1) r13) st) = some .ud ∧
    (0xF5#8).extractLsb' 2 2 ≠ 0#2 ∧ (0x69#8).getLsbD 2 = false ∧ Head.wf ⟨[.seg .fs], none⟩ = true ∧
    (0xF1#8).extractLsb' 0 4 = 1#4 ∧ (0x6D#8).extractLsb' 0 3 = 5#3 ∧ (0x69#8).extractLsb' 5 2 = 3#2 ∧
    st.mode = .m64 ∧ st.placed 6 = true ∧
    decode [0x64#8, 0x62#8, 0xF1#8, 0x6D#8, 0x69#8, 0xDF#8] = .ud 6 ∧
    decode [0x64#8, 0x62#8, 0xF1#8, 0x6E#8, 0x69#8, 0xDF#8] = .refuse .notPandn ∧
    (st.placeBytes st.rip [0x64#8, 0x62#8, 0xF1#8, 0x6D#8, 0x69#8, 0xDF#8]).fetch =
      Head.bytes ⟨[.seg .fs], none⟩ ++ 0x62#8 :: 0xF1#8 :: 0x6D#8 :: 0x69#8 :: 0xDF#8 :: List.replicate 9 0#8 ∧
    faultOf (step (st.placeBytes st.rip [0x64#8, 0x62#8, 0xF1#8, 0x6D#8, 0x69#8, 0xDF#8])) = some .ud := by decide +kernel

/-- VexNeedsProtectedMode: real-address and virtual-8086 mode; the MMX and XMM forms run there. -/
theorem witness_modes :
    State.reset.mode = .real ∧
    ({ State.reset with ctl := { State.reset.ctl with cr0 := 1#64 }, rflags := 0x20002#64 } : State).mode = .virtual8086 ∧
    noExc (.pandnMm h0 r13) State.reset = true ∧
    noExc (.pandnXmm hx r13) { State.reset with ctl := { State.reset.ctl with cr4 := 0x200#64 } } = true := by decide +kernel

/-- TaskSwitchedIsNm: with and without a #UD. -/
theorem witness_task_switched :
    (withCr0 9#64).ctl.cr0.getLsbD 3 = true ∧ faultOf (exec (.pandnMm h0 r13) (withCr0 9#64)) = some .nm ∧
    faultOf (exec (.pandnMm ⟨[.lock], none⟩ r13) (withCr0 9#64)) = some .ud := by decide +kernel

/-- PendingX87IsMf: ES = 1 stops the MMX form and no other. -/
theorem witness_pending_x87 :
    noUd (.pandnMm h0 r13) { st with x87 := { st.x87 with fsw := 0x80#16 } } = true ∧
    faultOf (exec (.pandnMm h0 r13) { st with x87 := { st.x87 with fsw := 0x80#16 } }) = some .mf ∧
    isNext (exec (.pandnXmm hx r13) { st with x87 := { st.x87 with fsw := 0x80#16 } }) = true := by decide +kernel

/-- AlignmentCheckIsAc: address 7 faults, address 8 does not; the premises hold at 7. -/
theorem witness_alignment_check :
    preFault .mmx Config.reference.mmx 64 false h0 stAC = none ∧ stAC.mode = .m64 ∧
    (addrFault { stAC with gpr := stAC.gpr.set 0 7#64 }
      (accessOf (.base 0 .none) { stAC with gpr := stAC.gpr.set 0 7#64 } (.pandnMm h0 m1))) = none ∧
    (pageFault { stAC with gpr := stAC.gpr.set 0 7#64 }
      (accessOf (.base 0 .none) { stAC with gpr := stAC.gpr.set 0 7#64 } (.pandnMm h0 m1))) = none ∧
    faultOf (exec (.pandnMm h0 m1) { stAC with gpr := stAC.gpr.set 0 7#64 }) = some .ac0 ∧
    isNext (exec (.pandnMm h0 m1) { stAC with gpr := stAC.gpr.set 0 8#64 }) = true ∧
    isNext (exec (.vpandnd128 h0 (ev false false 1) m1) { stAC with gpr := stAC.gpr.set 0 7#64 }) = true := by decide +kernel

/-- PageFaultReport: the operand's last byte is on an absent page, whose address is reported; one byte lower it is not touched;
with two bytes there either may be reported (60_exceptions.md R202). -/
theorem witness_page_fault :
    faultOf (exec (.pandnMm h0 m1) { unmapped 0x2000 with gpr := st.gpr.set 0 0x1FF9#64 }) = some (.pf 0#6 0x2000#64) ∧
    faultOf (exec (.pandnMm h0 m1) { st with
      gpr := st.gpr.set 0 0x1FFA#64, plat := ⟨{ (unmapped 0x2000).plat.now with faultPick := 1 }, [], []⟩ }) = some (.pf 0#6 0x2001#64) ∧
    isNext (exec (.pandnMm h0 m1) { unmapped 0x2000 with gpr := st.gpr.set 0 0x1FF8#64 }) = true := by decide +kernel

/-- ExceptionPriority and AnyPriorityReportsOneThatHolds: a misaligned operand on an absent page reports #GP(0) in order, #PF when
the second of the two is picked; through SS (base RBP) a misaligned, non-canonical one reports #SS(0). -/
theorem witness_priority :
    (access (.pandnXmm hx m1) st).isSome = true ∧ st.cfg.excPriority = .inOrder ∧
    faultOf (exec (.pandnXmm hx m1) { unmapped 0x2000 with gpr := st.gpr.set 0 0x2001#64 }) = some .gp0 ∧
    faultOf (exec (.pandnXmm hx m1) { unmapped 0x2000 with
      gpr := st.gpr.set 0 0x2001#64, cfg := { Config.reference with excPriority := .anyOf 1 } }) = some (.pf 0#6 0x2001#64) ∧
    faultOf (exec (.pandnXmm hx ⟨0, .mem (.base 5 (.d8 0))⟩) { st with gpr := st.gpr.set 5 0x0000800000000001#64 }) =
      some .ss0 := by decide +kernel

/-- NoExceptionIff: the premise holds of an aligned XMM operand and fails one byte further. -/
theorem witness_no_exception :
    st.mode = .m64 ∧ noExc (.pandnXmm hx m1) (withRax 0x10#64) = true ∧ noExc (.pandnXmm hx m1) (withRax 0x11#64) = false := by
  decide +kernel

/-- RefusalsOfAnInstruction: a device operand, and a memory operand outside 64-bit mode. -/
theorem witness_refusals :
    refusalOf (exec (.vpandn128 h0 v2 m1) { st with plat := ⟨⟨[], [], 0⟩, [], [⟨15, 1⟩]⟩ }) = some .deviceOperand ∧
    isNext (exec (.vpandn128 h0 v2 m1) { st with plat := ⟨⟨[], [], 0⟩, [], [⟨16, 1⟩]⟩ }) = true ∧
    refusalOf (exec (.pandnMm h0 m1) State.reset) = some .modeNot64 := by decide +kernel

/-- PrivilegeOnlyThroughMemory: a register operand at any CPL; a memory operand at CPL 0 and 2. -/
theorem witness_privilege :
    (access (.pandnMm h0 r13) st).isNone = true ∧ ((2#2 = 3#2) ↔ (st.ctl.cpl = 3#2)) ∧
    (access (.pandnMm h0 m1) st).isSome = true := by decide +kernel

/-- Fault suppression, k1 = 0110 and an absent page at 1000H; RAX = `a`. -/
def maskedPage (a : Word) : State :=
  { unmapped 0x1000 with
    k := (Vector.replicate 8 0).set 1 6
    gpr := st.gpr.set 0 a
    cfg := { Config.reference with faultSuppression := true } }

/-- FaultSuppression: a mask of zeros and an absent page, with the parameter on and off; a mask that leaves the absent bytes
out, and one that does not; a device region is refused either way. -/
theorem witness_suppression :
    isNext (exec (.vpandnd128 h0 (ev false false 1) m1) (withCfg { Config.reference with faultSuppression := false })) = true ∧
    noUd (.vpandnd128 h0 (ev false false 1) m1) (withCfg { Config.reference with faultSuppression := true }) = true ∧
    isNext (exec (.vpandnd128 h0 (ev false false 1) m1)
      { unmapped 0 with cfg := { Config.reference with faultSuppression := true } }) = true ∧
    isNext (exec (.vpandnd128 h0 (ev false false 1) m1) (maskedPage 0xFF4#64)) = true ∧
    faultOf (exec (.vpandnd128 h0 (ev false false 1) m1) (maskedPage 0xFF8#64)) = some (.pf 0#6 0x1000#64) ∧
    touchesDevice st (accessOf (.base 0 .none) st (.vpandnd128 h0 (ev false false 1) m1)) = false ∧
    refusalOf (exec (.vpandnd128 h0 (ev false false 1) m1)
      { st with plat := ⟨⟨[], [], 0⟩, [], [⟨15, 1⟩]⟩, cfg := { Config.reference with faultSuppression := true } }) =
      some .deviceOperand ∧
    faultOf (exec (.vpandnd128 h0 (ev false false 1) m1) (unmapped 0)) = some (.pf 0#6 0#64) := by decide +kernel

/-- DecodeOfEncode, EncodeOfDecode: well-formed instructions of each form (`test_wf_forms`) and their bytes, with more after. -/
theorem witness_round_trip :
    (forms r13 ++ forms m1).all (fun i => decide (decode (encode i ++ [0x90#8]) = .instr i [0x90#8])) = true := by
  decide +kernel

/-- EncodingLengths: the shortest and the longest legal encodings of the four classes. -/
theorem witness_lengths :
    let far : ModRm := ⟨0, .mem (.sib 0 0 0 (.d32 0))⟩
    (Instr.pandnMm h0 r13).len = 3 ∧ (Instr.pandnXmm hx r13).len = 4 ∧ (Instr.vpandn128 h0 v2 r13).len = 4 ∧
    (Instr.vpandnd128 h0 (ev false false 1) r13).len = 6 ∧
    (Instr.pandnXmm ⟨[.seg .fs, .opSize, .addrSize], some ⟨false, false, false, false⟩⟩ far).len = 12 ∧
    (Instr.pandnXmm ⟨[.seg .fs, .opSize, .addrSize], some ⟨false, false, false, false⟩⟩ far).wf = true ∧
    legal (.pandnXmm ⟨[.seg .fs, .opSize, .addrSize], some ⟨false, false, false, false⟩⟩ far) = true ∧
    (Instr.vpandn128 ⟨[.seg .fs, .addrSize], none⟩ ⟨false, 2, .three false false false⟩ far).len = 12 ∧
    (Instr.vpandnd128 ⟨[.seg .fs, .addrSize], none⟩ (ev false false 1) far).len = 13 := by decide +kernel

/-- PrefixesRefused: F3H alone, F2H with 66H, and two segment overrides. -/
theorem witness_pfx_refused :
    Head.wf ⟨[.rep], none⟩ = true ∧ Pfx.rep ∈ [Pfx.rep] ∧ Head.wf ⟨[.repne, .opSize], none⟩ = true ∧
    Pfx.repne ∈ [Pfx.repne, Pfx.opSize] ∧ onePerGroup [.seg .fs, .seg .gs] = false := by decide +kernel

/-- IgnoredBits: REX bytes that differ in the ignored bits only. -/
theorem witness_ignored_bits :
    (∃ rm, r13.rm = .reg rm) ∧ (⟨true, true, false, false⟩ : Rex) ≠ ⟨false, false, false, false⟩ ∧
    isNext (exec (.pandnMm ⟨[], some ⟨true, true, true, true⟩⟩ r13) st) = true ∧
    isNext (exec (.pandnXmm ⟨[.opSize], some ⟨true, true, true, true⟩⟩ r13) st) = true ∧
    isNext (exec (.vpandn256 h0 ⟨true, 2, .three true true true⟩ r13) st) = true := by
  refine ⟨⟨3, rfl⟩, by decide, by decide +kernel, by decide +kernel, by decide +kernel⟩

/-- StepRunsDecoded, StepRunsInstructionInMemory: the bytes are in memory and canonically placed. -/
theorem witness_step :
    decode (st.placeBytes st.rip [0x0F#8, 0xDF#8, 0xC1#8]).fetch =
      .instr (.pandnMm h0 ⟨0, .reg 1⟩) (List.replicate 12 0#8) ∧
    (st.placeBytes st.rip [0x0F#8, 0xDF#8, 0xC1#8]).mode = .m64 ∧
    (st.placeBytes st.rip [0x0F#8, 0xDF#8, 0xC1#8]).placed 3 = true ∧
    (∀ j < 3, some ((st.placeBytes st.rip [0x0F#8, 0xDF#8, 0xC1#8]).byteAt (st.rip + BitVec.ofNat 64 j)) =
      (encode (.pandnMm h0 ⟨0, .reg 1⟩))[j]?) := by decide +kernel

/-- StepRefusals: another mode; bytes that the decoder refuses; the address after the last byte is not canonical (its last byte
still is), also for `L'L = 11`; the address after the last byte is 2^64. -/
theorem witness_step_refusals :
    State.reset.mode ≠ .m64 ∧
    refusalOf (step (st.placeBytes st.rip [0x0F#8, 0xDE#8, 0xC1#8])) = some (.bytes .otherOpcode) ∧
    canonical 48 (0x00007FFFFFFFFFFD#64 + 2#64) = true ∧ canonical 48 (0x00007FFFFFFFFFFD#64 + 3#64) = false ∧
    refusalOf (step (({ st with rip := 0x00007FFFFFFFFFFD#64 } : State).placeBytes 0x00007FFFFFFFFFFD#64
      [0x0F#8, 0xDF#8, 0xC1#8])) = some .placedNonCanonical ∧
    isNext (step (({ st with rip := 0x00007FFFFFFFFFFC#64 } : State).placeBytes 0x00007FFFFFFFFFFC#64
      [0x0F#8, 0xDF#8, 0xC1#8])) = true ∧
    refusalOf (step (({ st with rip := 0x00007FFFFFFFFFFB#64 } : State).placeBytes 0x00007FFFFFFFFFFB#64
      [0x62#8, 0xF1#8, 0x6D#8, 0x69#8, 0xDF#8])) = some .placedNonCanonical ∧
    refusalOf (step (({ st with rip := 0xFFFFFFFFFFFFFFFD#64 } : State).placeBytes 0xFFFFFFFFFFFFFFFD#64
      [0x0F#8, 0xDF#8, 0xC1#8])) = some .placedNonCanonical ∧
    isNext (step (({ st with rip := 0xFFFFFFFFFFFFFFFC#64 } : State).placeBytes 0xFFFFFFFFFFFFFFFC#64
      [0x0F#8, 0xDF#8, 0xC1#8])) = true := by decide +kernel

/-- ProgramRunsInOrder: two instructions in memory, with the fuel that is just enough. -/
theorem witness_program :
    let prog := [Instr.pandnMm h0 r13, Instr.pandnXmm hx r13]
    let s := st.placeBytes st.rip (bytesOf prog)
    (∀ i ∈ prog, i.wf = true) ∧ s.mode = .m64 ∧ (bytesOf prog).length = 7 ∧
    s.rip.toNat + 7 < 2 ^ 64 ∧ prog.length ≤ 2 ∧
    (∀ j ≤ 7, canonical s.cfg.vaBits (s.rip + BitVec.ofNat 64 j) = true) ∧
    (∀ j < 7, some (s.byteAt (s.rip + BitVec.ofNat 64 j)) = (bytesOf prog)[j]?) := by decide +kernel

/-- InvariantKept: a state with the invariant from which a step completes. -/
theorem witness_invariant :
    Inv (st.placeBytes st.rip [0x0F#8, 0xDF#8, 0xC1#8]) ∧
    isNext (step (st.placeBytes st.rip [0x0F#8, 0xDF#8, 0xC1#8])) = true :=
  ⟨⟨by decide +kernel, fun _ _ h => BitVec.getLsbD_of_ge _ _ (le_trans (by decide +kernel) h), by decide +kernel,
    by decide +kernel⟩, by decide +kernel⟩

/-- OnlyMmxRunsAtReset: a VEX form faults, the MMX form without LOCK completes. -/
theorem witness_reset :
    cls (.vpandn128 h0 v2 r13) ≠ .mmx ∧ faultOf (exec (.vpandn128 h0 v2 r13) State.reset) = some .ud ∧
    Pfx.lock ∉ h0.pfx ∧ isNext (exec (.pandnMm h0 r13) State.reset) = true := by decide +kernel

/-- LaunchedStateRuns: every form is legal, its features are present and its width is within MAXVL. -/
theorem witness_launched :
    (forms r13).all (fun i => legal i && featuresPresent State.reset.cfg i && decide (width i ≤ maxvl State.reset.cfg)) = true ∧
    (forms r13).all (fun i => decide ((operands i).rm = .reg 3)) = true := by decide +kernel

end Sys2Proof.Tests
end

section
/-! PROOF. What a form keeps (10_state.md R43), and the parts of the state that reach a form only through RFLAGS.AC, RFLAGS.VM
and the mask bits below `KL`: RFLAGS (R32, R34), MXCSR (R33), and the opmask registers with their width `KW` (R26, R27). -/

namespace Sys2Proof.Machine

open Sys2Proof
open Sys2Proof.Safety

/-! ## Other flags, MXCSR and masks -/

/-- Values for RFLAGS, MXCSR, the opmask registers and their width `KW`. -/
structure FlagsMasks where
  rflags : BitVec 64
  mxcsr : BitVec 32
  k : Vector Nat 8
  kw : Nat

/-- The state with other RFLAGS, MXCSR, opmask registers and `KW`. -/
def State.withFlagsMasks (s : State) (u : FlagsMasks) : State :=
  { s with rflags := u.rflags, mxcsr := u.mxcsr, k := u.k, cfg := { s.cfg with kw := u.kw } }

/-! ## What a form writes -/

/-- A form writes vector registers, MMX registers, x87 state and `rip`, and nothing else (10_state.md R43). -/
theorem exec_eq_next_frame {i : Instr} {s t : State} (h : exec i s = .next t) :
    t = { s with zmm := t.zmm, mm := t.mm, x87 := t.x87, rip := t.rip } := by
  cases i <;>
  · obtain ⟨-, v, -, rfl⟩ := complete_eq_next.1 h
    rfl

theorem exec_keeps_rflags {i : Instr} {s t : State} (h : exec i s = .next t) : t.rflags = s.rflags := by
  rw [exec_eq_next_frame h]

/-! ## Outcomes put through a function -/

theorem complete_comp {α : Type} (pre : Option Fault) (src : Got α) (k : α → State) (g : State → State) :
    complete pre src (fun v => g (k v)) = mapNext g (complete pre src k) := by
  cases pre <;> cases src <;> rfl

/-- Only the next state that the outcome holds matters. -/
theorem mapNext_congr {f g : State → State} {o : Host.Outcome State Fault Refusal}
    (h : ∀ t, o = .next t → f t = g t) : mapNext f o = mapNext g o := by
  cases o with
  | next t => simp [h t rfl]
  | fault x => rfl
  | refused r => rfl

/-! ## What a form reads of another state -/

section Reads

variable {s : State} {u : FlagsMasks}

/-! Memory and the checks that use no flag. -/

@[simp] theorem dataAt_withFlagsMasks (la : Word) : (s.withFlagsMasks u).dataAt la = s.dataAt la := rfl

@[simp] theorem readLE_withFlagsMasks (la : Word) (n : Nat) : (s.withFlagsMasks u).readLE la n = s.readLE la n := by
  induction n generalizing la with
  | zero => rfl
  | succ n ih => simp [State.readLE, ih]

@[simp] theorem addrFault_withFlagsMasks (q : Access) : addrFault (s.withFlagsMasks u) q = addrFault s q := rfl

@[simp] theorem pageFault_withFlagsMasks (q : Access) : pageFault (s.withFlagsMasks u) q = pageFault s q := rfl

@[simp] theorem touchesDevice_withFlagsMasks (q : Access) :
    touchesDevice (s.withFlagsMasks u) q = touchesDevice s q := rfl

@[simp] theorem excPriority_withFlagsMasks : (s.withFlagsMasks u).cfg.excPriority = s.cfg.excPriority := rfl

/-! What RFLAGS.VM decides: the mode. -/

theorem mode_withFlagsMasks (hVM : (s.withFlagsMasks u).flagVM = s.flagVM) : (s.withFlagsMasks u).mode = s.mode := by
  unfold State.mode
  rw [hVM]
  rfl

theorem preFault_withFlagsMasks (hVM : (s.withFlagsMasks u).flagVM = s.flagVM) (c : Cls) (feat : Bool) (vl : Nat)
    (res : Bool) (h : Head) : preFault c feat vl res h (s.withFlagsMasks u) = preFault c feat vl res h s := by
  have hmode : modeUd c (s.withFlagsMasks u) = modeUd c s := by
    unfold modeUd
    rw [mode_withFlagsMasks hVM]
  unfold preFault
  rw [hmode]
  rfl

/-! What RFLAGS.AC decides: the alignment check. -/

theorem acFault_withFlagsMasks (hAC : (s.withFlagsMasks u).flagAC = s.flagAC) (q : Access) :
    acFault (s.withFlagsMasks u) q = acFault s q := by
  unfold acFault State.alignCheck
  rw [hAC]
  rfl

theorem operandFaults_withFlagsMasks (hAC : (s.withFlagsMasks u).flagAC = s.flagAC) (q : Access) :
    operandFaults (s.withFlagsMasks u) q = operandFaults s q := by
  simp [operandFaults, acFault_withFlagsMasks hAC]

/-- A memory read uses RFLAGS.VM for the mode and RFLAGS.AC for the alignment check, no other flag and no mask beyond the
bytes that the access names. -/
theorem memRead_withFlagsMasks (hAC : (s.withFlagsMasks u).flagAC = s.flagAC)
    (hVM : (s.withFlagsMasks u).flagVM = s.flagVM) (q : Access) (w : Nat) :
    memRead (s.withFlagsMasks u) q w = memRead s q w := by
  simp [memRead, mode_withFlagsMasks hVM, operandFaults_withFlagsMasks hAC]

end Reads

/-! ## Masks -/

theorem packElems_congr {es w : Nat} {f g : Nat → BitVec es} {n : Nat} (h : ∀ j < n, f j = g j) :
    packElems es w f n = packElems es w g n := by
  induction n with
  | zero => rfl
  | succ n ih => rw [packElems, packElems, h n n.lt_succ_self, ih fun j hj => h j (by omega)]

/-- A masked result uses the mask bits below `KL` only (10_state.md R27). -/
theorem maskedAndn_congr {es w : Nat} {p p' : Nat → Bool} (h : ∀ j < w / es, p' j = p j) (z : Bool)
    (old a b : BitVec w) : maskedAndn es w p' z old a b = maskedAndn es w p z old a b :=
  packElems_congr fun j hj => by rw [h j hj]

theorem elemSize_dvd_width (i : Instr) : elemSize i ∣ width i := by
  cases i <;> simp [elemSize, width]

/-- Which bytes past the operand's last would have to be readable does not matter. -/
theorem needed_congr {q : Access} {p : Nat → Bool} (h : ∀ j < q.bytes, p j = q.need j) :
    ({ q with need := p } : Access).needed = q.needed :=
  List.filter_congr fun j hj => h j (List.mem_range.1 hj)

theorem memRead_need_congr {q : Access} {p : Nat → Bool} (h : ∀ j < q.bytes, p j = q.need j) (s : State) (w : Nat) :
    memRead s { q with need := p } w = memRead s q w := by
  have hpages : pageFault s { q with need := p } = pageFault s q := by
    unfold pageFault pageFaults
    rw [needed_congr h]
    rfl
  have haddr : addrFault s { q with need := p } = addrFault s q := by
    unfold addrFault
    rw [needed_congr h]
    rfl
  have hfaults : operandFaults s { q with need := p } = operandFaults s q := by
    unfold operandFaults
    rw [haddr, hpages]
    rfl
  unfold memRead
  rw [hfaults]
  rfl

section Forms

variable {s : State} {u : FlagsMasks} (hAC : (s.withFlagsMasks u).flagAC = s.flagAC)
  (hVM : (s.withFlagsMasks u).flagVM = s.flagVM)

include hAC hVM

/-! ## The last operand -/

theorem mmxSrc_withFlagsMasks (h : Head) (o : ModRm) : mmxSrc h o (s.withFlagsMasks u) = mmxSrc h o s := by
  unfold mmxSrc
  cases o.rm with
  | reg rm => rfl
  | mem a => exact memRead_withFlagsMasks hAC hVM _ _

theorem sseSrc_withFlagsMasks (h : Head) (o : ModRm) : sseSrc h o (s.withFlagsMasks u) = sseSrc h o s := by
  unfold sseSrc
  cases o.rm with
  | reg rm => rfl
  | mem a => exact memRead_withFlagsMasks hAC hVM _ _

theorem vexSrc2_withFlagsMasks (w : Nat) (h : Head) (v : Vex) (o : ModRm) :
    vexSrc2 w h v o (s.withFlagsMasks u) = vexSrc2 w h v o s := by
  unfold vexSrc2
  cases o.rm with
  | reg rm => rfl
  | mem a => exact memRead_withFlagsMasks hAC hVM _ _

omit hAC hVM in
/-- The bytes of an EVEX operand that must be readable depend on the mask bits below `KL` only (20_memory.md R79). -/
theorem evexAccess_need_withFlagsMasks {es w : Nat} {e : Evex} (hdvd : es ∣ w)
    (hmask : ∀ j < w / es, maskBit (s.withFlagsMasks u) e j = maskBit s e j) (h : Head) (o : ModRm) (a : Addr) :
    ∀ j < (evexAccess es w h e o a s).bytes,
      (evexAccess es w h e o a (s.withFlagsMasks u)).need j = (evexAccess es w h e o a s).need j := by
  intro j hj
  unfold evexAccess at hj ⊢
  cases hbc : e.bc with
  | true =>
    have hany : (List.range (w / es)).any (maskBit (s.withFlagsMasks u) e) = (List.range (w / es)).any (maskBit s e) :=
      Bool.eq_iff_iff.2 <| by
        simp only [List.any_eq_true, List.mem_range]
        exact exists_congr fun j => and_congr_right fun hj => by rw [hmask j hj]
    simp only [if_true, needBcast, hany]
    rfl
  | false =>
    have hlt : j < w / 8 := by simpa [hbc] using hj
    have hkl : 8 * j / es < w / es := Nat.div_lt_div_of_lt_of_dvd hdvd (by omega)
    simp only [Bool.false_eq_true, if_false, needFull, hmask _ hkl]
    rfl

theorem memRead_evexAccess_withFlagsMasks {es w : Nat} {e : Evex} (hdvd : es ∣ w)
    (hmask : ∀ j < w / es, maskBit (s.withFlagsMasks u) e j = maskBit s e j) (h : Head) (o : ModRm) (a : Addr) (n : Nat) :
    memRead (s.withFlagsMasks u) (evexAccess es w h e o a (s.withFlagsMasks u)) n =
      memRead s (evexAccess es w h e o a s) n := by
  have haccess : evexAccess es w h e o a (s.withFlagsMasks u) =
      { evexAccess es w h e o a s with need := (evexAccess es w h e o a (s.withFlagsMasks u)).need } := by
    unfold evexAccess
    cases e.bc <;> rfl
  rw [memRead_withFlagsMasks hAC hVM, haccess]
  exact memRead_need_congr (evexAccess_need_withFlagsMasks hdvd hmask h o a) s n

theorem evexSrc2_withFlagsMasks {es w : Nat} {e : Evex} (hdvd : es ∣ w)
    (hmask : ∀ j < w / es, maskBit (s.withFlagsMasks u) e j = maskBit s e j) (h : Head) (o : ModRm) :
    evexSrc2 es w h e o (s.withFlagsMasks u) = evexSrc2 es w h e o s := by
  unfold evexSrc2
  cases o.rm with
  | reg rm => rfl
  | mem a => simp only [memRead_evexAccess_withFlagsMasks hAC hVM hdvd hmask]

/-! ## The forms -/

theorem execPandnMm_withFlagsMasks (h : Head) (o : ModRm) :
    execPandnMm h o (s.withFlagsMasks u) = mapNext (·.withFlagsMasks u) (execPandnMm h o s) := by
  unfold execPandnMm
  rw [← complete_comp, preFault_withFlagsMasks hVM, mmxSrc_withFlagsMasks hAC hVM]
  rfl

theorem execPandnXmm_withFlagsMasks (h : Head) (o : ModRm) :
    execPandnXmm h o (s.withFlagsMasks u) = mapNext (·.withFlagsMasks u) (execPandnXmm h o s) := by
  unfold execPandnXmm
  rw [← complete_comp, preFault_withFlagsMasks hVM, sseSrc_withFlagsMasks hAC hVM]
  rfl

theorem vexAndn_withFlagsMasks (w : Nat) (feat : Bool) (h : Head) (v : Vex) (o : ModRm) :
    vexAndn w feat h v o (s.withFlagsMasks u) = mapNext (·.withFlagsMasks u) (vexAndn w feat h v o s) := by
  unfold vexAndn
  rw [← complete_comp, preFault_withFlagsMasks hVM, vexSrc2_withFlagsMasks hAC hVM]
  rfl

theorem evexAndn_withFlagsMasks {es w : Nat} {e : Evex} (hdvd : es ∣ w)
    (hmask : ∀ j < w / es, maskBit (s.withFlagsMasks u) e j = maskBit s e j) (feat : Bool) (h : Head) (o : ModRm) :
    evexAndn es w feat h e o (s.withFlagsMasks u) = mapNext (·.withFlagsMasks u) (evexAndn es w feat h e o s) := by
  unfold evexAndn
  rw [← complete_comp, preFault_withFlagsMasks hVM, evexSrc2_withFlagsMasks hAC hVM hdvd hmask]
  simp only [maskedAndn_congr hmask]
  rfl

/-- RFLAGS, MXCSR and the opmask registers reach an instruction only through AC, VM and the mask bits below `KL`: with others
that agree on these, it gives the same outcome, and a next state differs by the replaced parts alone. -/
theorem exec_withFlagsMasks {i : Instr} (hk : ∀ n : BitVec 3, ∀ j < width i / elemSize i,
      ((s.withFlagsMasks u).readK n).getLsbD j = (s.readK n).getLsbD j) :
    exec i (s.withFlagsMasks u) = mapNext (·.withFlagsMasks u) (exec i s) := by
  have hmask (e : Evex) : ∀ j < width i / elemSize i, maskBit (s.withFlagsMasks u) e j = maskBit s e j := by
    intro j hj
    rw [maskBit, maskBit, hk e.aaa j hj]
  cases i with
  | pandnMm h o => exact execPandnMm_withFlagsMasks hAC hVM h o
  | pandnXmm h o => exact execPandnXmm_withFlagsMasks hAC hVM h o
  | vpandn128 h v o | vpandn256 h v o => exact vexAndn_withFlagsMasks hAC hVM _ _ h v o
  | vpandnd128 h e o | vpandnd256 h e o | vpandnd512 h e o | vpandnq128 h e o | vpandnq256 h e o | vpandnq512 h e o =>
    exact evexAndn_withFlagsMasks hAC hVM (elemSize_dvd_width _) (hmask e) _ h o

end Forms

end Sys2Proof.Machine
end

section
/-! PROOF. The statements on RFLAGS (10_state.md R32) and on the opmask bits at `KL` and above (R27). -/

namespace Sys2Proof.Proofs

open Sys2Proof
open Sys2Proof.Machine

/-- Other flags with the same AC and VM change an outcome by the flags alone (10_state.md R32, R34). -/
theorem exec_withRflags (i : Instr) (s : State) (f : BitVec 64) (hAC : f.getLsbD 18 = s.rflags.getLsbD 18)
    (hVM : f.getLsbD 17 = s.rflags.getLsbD 17) :
    exec i { s with rflags := f } = mapNext (fun t => { t with rflags := f }) (exec i s) := by
  let u : FlagsMasks := ⟨f, s.mxcsr, s.k, s.cfg.kw⟩
  calc exec i { s with rflags := f }
      = mapNext (·.withFlagsMasks u) (exec i s) := exec_withFlagsMasks (u := u) hAC hVM fun _ _ _ => rfl
    _ = mapNext (fun t => { t with rflags := f }) (exec i s) := mapNext_congr fun t ht => by
        rw [exec_eq_next_frame ht]
        rfl

/-- Settles O11: no form writes RFLAGS, and the checks read AC and VM alone. -/
theorem flagsNeitherWrittenNorRead : Obligations.FlagsNeitherWrittenNorRead :=
  ⟨fun _ _ _ => exec_keeps_rflags, exec_withRflags⟩

/-- Settles O13: a result and the bytes that must be readable use the mask bits below `KL` alone. -/
theorem maskBitsAboveKlIgnored : Obligations.MaskBitsAboveKlIgnored := by
  intro i s k w hk
  let u : FlagsMasks := ⟨s.rflags, s.mxcsr, k, w⟩
  calc exec i { s with k := k, cfg := { s.cfg with kw := w } }
      = mapNext (·.withFlagsMasks u) (exec i s) := exec_withFlagsMasks (u := u) rfl rfl hk
    _ = mapNext (fun t => { t with k := k, cfg := { t.cfg with kw := w } }) (exec i s) := mapNext_congr fun t ht => by
        rw [exec_eq_next_frame ht]
        rfl

end Sys2Proof.Proofs
end

section
/-! PROOF. What an EVEX form leaves in its destination register (42_vpandnd_vpandnq_evex.md R156), and the statement on the bits
above the vector length (R158). -/

namespace Sys2Proof.Machine

open Sys2Proof
open Sys2Proof.Safety

theorem elemSize_pos (i : Instr) : 0 < elemSize i := by
  cases i <;> simp [elemSize]

theorem width_le_512 (i : Instr) : width i ≤ 512 := by
  cases i <;> simp [width]

/-- A bit below the vector length lies in an element whose number is below `KL` (10_state.md R27). -/
theorem div_elemSize_lt {i : Instr} {j : Nat} (hj : j < width i) : j / elemSize i < width i / elemSize i :=
  Nat.div_lt_div_of_lt_of_dvd (elemSize_dvd_width i) hj

/-- Under an opmask other than `k0` an element is computed exactly when its mask bit is 1. -/
theorem maskBit_of_aaa_ne_zero {e : Evex} (h : e.aaa ≠ 0#3) (s : State) (j : Nat) :
    maskBit s e j = (s.readK e.aaa).getLsbD j := by
  simp [maskBit, h]

/-- An EVEX form that completes leaves the masked result in its destination, with zeros above it (R156). -/
theorem exec_evex_readZmm_dst {i : Instr} {e : Evex} {s t : State} (he : evex? i = some e) (h : exec i s = .next t) :
    ∃ b : BitVec (width i), t.readZmm (dst i) =
      (maskedAndn (elemSize i) (width i) (maskBit s e) e.z (s.vec (width i) (dst i))
        (s.vec (width i) (src1 i)) b).setWidth 512 := by
  cases i with
  | pandnMm | pandnXmm | vpandn128 | vpandn256 => cases he
  | vpandnd128 | vpandnd256 | vpandnd512 | vpandnq128 | vpandnq256 | vpandnq512 =>
    cases he
    obtain ⟨-, b, -, rfl⟩ := evexAndn_eq_next.1 h
    exact ⟨b, readZmm_writeZmm_same s _ _⟩

/-- Bits at the vector length and above are 0 after an EVEX form, whatever the mask. -/
theorem exec_evex_upper_zero {i : Instr} {e : Evex} {s t : State} (he : evex? i = some e) (h : exec i s = .next t)
    {j : Nat} (hj : width i ≤ j) : (t.readZmm (dst i)).getLsbD j = false := by
  obtain ⟨b, hb⟩ := exec_evex_readZmm_dst he h
  rw [hb, BitVec.getLsbD_setWidth, BitVec.getLsbD_of_ge _ j hj, Bool.and_false]

/-- A bit below the vector length whose element the mask leaves out keeps its value under merging. -/
theorem exec_evex_merging_keeps {i : Instr} {e : Evex} {s t : State} (he : evex? i = some e) (h : exec i s = .next t)
    (hz : e.z = false) {j : Nat} (hj : j < width i) (hm : maskBit s e (j / elemSize i) = false) :
    (t.readZmm (dst i)).getLsbD j = (s.readZmm (dst i)).getLsbD j := by
  obtain ⟨b, hb⟩ := exec_evex_readZmm_dst he h
  have hj512 : j < 512 := Nat.lt_of_lt_of_le hj (width_le_512 i)
  rw [hb, BitVec.getLsbD_setWidth, getLsbD_maskedAndn _ _ _ _ _ _ _ (elemSize_pos i) (elemSize_dvd_width i) j hj]
  simp only [hm, hz, Bool.false_eq_true, if_false, getLsbD_vec, hj, hj512, decide_true, Bool.true_and]

end Sys2Proof.Machine

namespace Sys2Proof.Proofs

open Sys2Proof
open Sys2Proof.Machine
open Sys2Proof.Safety

/-- Settles O14: the write clears what lies above the result, and merging with a mask of zeros keeps each bit below. -/
theorem evexZeroesUpperBits : Obligations.EvexZeroesUpperBits := by
  intro i e s t he h
  refine ⟨fun j hj => exec_evex_upper_zero he h hj, fun hz haaa hmask => ⟨fun j hj => ?_, ?_⟩⟩
  · have hm : maskBit s e (j / elemSize i) = false := by
      rw [maskBit_of_aaa_ne_zero haaa, hmask _ (div_elemSize_lt hj)]
    exact exec_evex_merging_keeps he h hz hj hm
  · rintro ⟨j, hj, hset⟩ heq
    rw [← heq, exec_evex_upper_zero he h hj] at hset
    exact Bool.false_ne_true hset

end Sys2Proof.Proofs
end

section
/-! PROOF. Which exception an instruction raises, said once for all forms (60_exceptions.md R204): a #UD for each of its causes
(R193 to R195), those of steps 1 to 3, and those of the memory operand (R200 to R203). -/

namespace Sys2Proof.Machine

open Sys2Proof
open Sys2Proof.Safety

/-! ## The causes of #UD -/

theorem exec_ud_of_noUd_false {i : Instr} {s : State} (h : noUd i s = false) : exec i s = .fault .ud :=
  exec_of_preOf (by rw [preOf_eq, if_pos h])

theorem exec_ud_of_ctlUd {i : Instr} {s : State} (h : ctlUd (cls i) s = true) : exec i s = .fault .ud :=
  exec_ud_of_noUd_false (by simp [noUd_iff, h])

theorem exec_ud_of_pfxUd {i : Instr} {s : State} (h : pfxUd (cls i) (head i) = true) : exec i s = .fault .ud :=
  exec_ud_of_noUd_false (by simp [noUd_iff, h])

theorem exec_ud_of_featuresPresent_false {i : Instr} {s : State} (h : featuresPresent s.cfg i = false) :
    exec i s = .fault .ud :=
  exec_ud_of_noUd_false (by simp [noUd_iff, h])

/-- The forbidden prefixes as members of the encoding's prefixes (60_exceptions.md R194). -/
theorem pfxUd_iff {c : Cls} {h : Head} :
    pfxUd c h = true ↔ Pfx.lock ∈ h.pfx ∨
      ((c = .vex ∨ c = .evex) ∧ (Pfx.opSize ∈ h.pfx ∨ Pfx.repne ∈ h.pfx ∨ Pfx.rep ∈ h.pfx ∨ h.rex ≠ none)) := by
  cases c with
  | mmx | sse => simp [pfxUd]
  | vex | evex => simp [pfxUd, or_assoc, Option.isSome_iff_ne_none]

/-! ## Steps 1 to 3 -/

/-- CR0.TS decides between #UD and #NM, and #MF never comes before them (60_exceptions.md R204). -/
theorem preOf_of_cr0TS {i : Instr} {s : State} (h : s.cr0TS = true) :
    preOf i s = some (if noUd i s = true then .nm else .ud) := by
  rw [preOf_eq, h]
  cases noUd i s <;> rfl

theorem preOf_eq_mf {i : Instr} {s : State} :
    preOf i s = some .mf ↔ noUd i s = true ∧ s.cr0TS = false ∧ cls i = .mmx ∧ s.fswES = true := by
  rw [preOf_eq]
  cases noUd i s <;> cases s.cr0TS <;> simp

/-! ## The operand -/

theorem addrFault_eq_some {s : State} {q : Access} {f : Fault} (h : addrFault s q = some f) :
    f = if q.ss then .ss0 else .gp0 := by
  unfold addrFault at h
  split at h
  · cases h
  · exact (Option.some.inj h).symm

theorem alignFault_eq_some {q : Access} {f : Fault} (h : alignFault q = some f) : f = .gp0 := by
  unfold alignFault at h
  split at h
  · exact (Option.some.inj h).symm
  · cases h

theorem pageFaultAt_eq_some {s : State} {a : Word} {f : Fault} (h : s.pageFaultAt a = some f) : ∃ ec, f = .pf ec a := by
  unfold State.pageFaultAt at h
  split at h
  · cases h
  · exact ⟨_, (Option.some.inj h).symm⟩

theorem acFault_eq_some {s : State} {q : Access} {f : Fault} (h : acFault s q = some f) : f = .ac0 := by
  unfold acFault at h
  split at h
  · exact (Option.some.inj h).symm
  · cases h

/-- The exceptions of an operand are #SS(0), #GP(0), #PF and #AC(0) (60_exceptions.md R204 steps 4 to 7). -/
theorem operandFaults_cases {s : State} {q : Access} {f : Fault} (h : f ∈ operandFaults s q) :
    f = .ss0 ∨ f = .gp0 ∨ (∃ ec a, f = .pf ec a) ∨ f = .ac0 := by
  simp only [operandFaults, List.mem_append, Option.mem_toList] at h
  obtain ((haddr | halign) | hpage) | hac := h
  · rw [addrFault_eq_some haddr]
    cases q.ss <;> simp
  · exact .inr (.inl (alignFault_eq_some halign))
  · obtain ⟨j, -, -, hj⟩ := pageFault_eq_some hpage
    obtain ⟨ec, rfl⟩ := pageFaultAt_eq_some hj
    exact .inr (.inr (.inl ⟨ec, _, rfl⟩))
  · exact .inr (.inr (.inr (acFault_eq_some hac)))

/-! Where the last operand of each format raises an exception: in memory, where the read raises it. -/

theorem mmxSrc_eq_fault {h : Head} {o : ModRm} {s : State} {f : Fault} :
    mmxSrc h o s = .fault f ↔ ∃ a, o.rm = .mem a ∧ memRead s (mmxAccess h o a s) 64 = .fault f := by
  unfold mmxSrc
  cases o.rm <;> simp

theorem sseSrc_eq_fault {h : Head} {o : ModRm} {s : State} {f : Fault} :
    sseSrc h o s = .fault f ↔ ∃ a, o.rm = .mem a ∧ memRead s (sseAccess h o a s) 128 = .fault f := by
  unfold sseSrc
  cases o.rm <;> simp

theorem vexSrc2_eq_fault {w : Nat} {h : Head} {v : Vex} {o : ModRm} {s : State} {f : Fault} :
    vexSrc2 w h v o s = .fault f ↔ ∃ a, o.rm = .mem a ∧ memRead s (vexAccess w h v o a s) w = .fault f := by
  unfold vexSrc2
  cases o.rm <;> simp

/-- How much an EVEX form reads, an element or the whole vector, does not matter to the exceptions. -/
theorem evexSrc2_eq_fault {es w : Nat} {h : Head} {e : Evex} {o : ModRm} {s : State} {f : Fault} :
    evexSrc2 es w h e o s = .fault f ↔ ∃ a, o.rm = .mem a ∧ memRead s (evexAccess es w h e o a s) w = .fault f := by
  unfold evexSrc2
  cases o.rm <;> cases e.bc <;> simp [map_eq_fault, memRead_eq_fault]

/-- What an instruction's memory operand raises. -/
theorem access_raises_iff {i : Instr} {s : State} {f : Fault} {w : Nat} :
    (∃ q, access i s = some q ∧ s.mode = .m64 ∧ reported s.cfg.excPriority (operandFaults s q) = some f) ↔
      ∃ a, (operands i).rm = .mem a ∧ memRead s (accessOf a s i) w = .fault f := by
  unfold access
  cases (operands i).rm <;> simp [memRead_eq_fault]

/-- An instruction raises an exception exactly when it is that of steps 1 to 3, or there is none of these and it is what is
reported of the memory operand's exceptions (60_exceptions.md R204). -/
theorem exec_eq_fault {i : Instr} {s : State} {f : Fault} :
    exec i s = .fault f ↔ preOf i s = some f ∨ (preOf i s = none ∧ ∃ q, access i s = some q ∧
      s.mode = .m64 ∧ reported s.cfg.excPriority (operandFaults s q) = some f) := by
  rw [access_raises_iff (w := width i)]
  cases i with
  | pandnMm h o => exact complete_eq_fault.trans (or_congr_right (and_congr_right fun _ => mmxSrc_eq_fault))
  | pandnXmm h o => exact complete_eq_fault.trans (or_congr_right (and_congr_right fun _ => sseSrc_eq_fault))
  | vpandn128 h v o | vpandn256 h v o =>
    exact complete_eq_fault.trans (or_congr_right (and_congr_right fun _ => vexSrc2_eq_fault))
  | vpandnd128 h e o | vpandnd256 h e o | vpandnd512 h e o | vpandnq128 h e o | vpandnq256 h e o | vpandnq512 h e o =>
    exact complete_eq_fault.trans (or_congr_right (and_congr_right fun _ => evexSrc2_eq_fault))

/-- #MF comes from step 3 alone: no operand raises it. -/
theorem exec_eq_mf {i : Instr} {s : State} :
    exec i s = .fault .mf ↔ noUd i s = true ∧ s.cr0TS = false ∧ cls i = .mmx ∧ s.fswES = true := by
  rw [← preOf_eq_mf, exec_eq_fault]
  refine or_iff_left ?_
  rintro ⟨-, q, -, -, hrep⟩
  simpa using operandFaults_cases (reported_mem hrep)

end Sys2Proof.Machine
end

section
/-! PROOF. CR0 reaches the VEX and EVEX forms only through PE, TS and AM (60_exceptions.md R193, R197, R198, R203). -/

namespace Sys2Proof.Machine

open Sys2Proof
open Sys2Proof.Safety

/-- The state with another CR0. -/
def State.withCr0 (s : State) (c : BitVec 64) : State :=
  { s with ctl := { s.ctl with cr0 := c } }

section Cr0

variable {s : State} {c : BitVec 64}

/-! Memory and the checks that do not use CR0. -/

@[simp] theorem dataAt_withCr0 (la : Word) : (s.withCr0 c).dataAt la = s.dataAt la := rfl

@[simp] theorem readLE_withCr0 (la : Word) (n : Nat) : (s.withCr0 c).readLE la n = s.readLE la n := by
  induction n generalizing la with
  | zero => rfl
  | succ n ih => simp [State.readLE, ih]

@[simp] theorem addrFault_withCr0 (q : Access) : addrFault (s.withCr0 c) q = addrFault s q := rfl

@[simp] theorem pageFault_withCr0 (q : Access) : pageFault (s.withCr0 c) q = pageFault s q := rfl

@[simp] theorem touchesDevice_withCr0 (q : Access) : touchesDevice (s.withCr0 c) q = touchesDevice s q := rfl

@[simp] theorem cfg_withCr0 : (s.withCr0 c).cfg = s.cfg := rfl

/-! What PE, TS and AM decide: the mode, #NM and the alignment check. -/

theorem mode_withCr0 (hPE : (s.withCr0 c).cr0PE = s.cr0PE) : (s.withCr0 c).mode = s.mode := by
  unfold State.mode
  rw [hPE]
  rfl

theorem acFault_withCr0 (hAM : (s.withCr0 c).cr0AM = s.cr0AM) (q : Access) : acFault (s.withCr0 c) q = acFault s q := by
  unfold acFault State.alignCheck
  rw [hAM]
  rfl

theorem memRead_withCr0 (hPE : (s.withCr0 c).cr0PE = s.cr0PE) (hAM : (s.withCr0 c).cr0AM = s.cr0AM) (q : Access)
    (w : Nat) : memRead (s.withCr0 c) q w = memRead s q w := by
  simp [memRead, mode_withCr0 hPE, operandFaults, acFault_withCr0 hAM]

/-- CR0.EM is no condition of the VEX and EVEX forms (60_exceptions.md R193). -/
theorem ctlUd_withCr0 {k : Cls} (hk : k = .vex ∨ k = .evex) : ctlUd k (s.withCr0 c) = ctlUd k s := by
  obtain rfl | rfl := hk <;> rfl

theorem preFault_withCr0 {k : Cls} (hk : k = .vex ∨ k = .evex) (hPE : (s.withCr0 c).cr0PE = s.cr0PE)
    (hTS : (s.withCr0 c).cr0TS = s.cr0TS) (feat : Bool) (vl : Nat) (res : Bool) (h : Head) :
    preFault k feat vl res h (s.withCr0 c) = preFault k feat vl res h s := by
  have hmode : modeUd k (s.withCr0 c) = modeUd k s := by
    unfold modeUd
    rw [mode_withCr0 hPE]
  unfold preFault
  rw [ctlUd_withCr0 hk, hmode, hTS]
  rfl

/-! ## The VEX and EVEX forms -/

variable (hPE : (s.withCr0 c).cr0PE = s.cr0PE) (hTS : (s.withCr0 c).cr0TS = s.cr0TS)
  (hAM : (s.withCr0 c).cr0AM = s.cr0AM)

include hPE hTS hAM

omit hTS in
theorem vexSrc2_withCr0 (w : Nat) (h : Head) (v : Vex) (o : ModRm) :
    vexSrc2 w h v o (s.withCr0 c) = vexSrc2 w h v o s := by
  unfold vexSrc2
  cases o.rm with
  | reg rm => rfl
  | mem a => exact memRead_withCr0 hPE hAM _ _

omit hTS in
theorem evexSrc2_withCr0 (es w : Nat) (h : Head) (e : Evex) (o : ModRm) :
    evexSrc2 es w h e o (s.withCr0 c) = evexSrc2 es w h e o s := by
  have haccess (a : Addr) : evexAccess es w h e o a (s.withCr0 c) = evexAccess es w h e o a s := rfl
  unfold evexSrc2
  cases o.rm with
  | reg rm => rfl
  | mem a => simp only [haccess, memRead_withCr0 hPE hAM]

theorem vexAndn_withCr0 (w : Nat) (feat : Bool) (h : Head) (v : Vex) (o : ModRm) :
    vexAndn w feat h v o (s.withCr0 c) = mapNext (·.withCr0 c) (vexAndn w feat h v o s) := by
  unfold vexAndn
  rw [← complete_comp, preFault_withCr0 (.inl rfl) hPE hTS, vexSrc2_withCr0 hPE hAM]
  rfl

theorem evexAndn_withCr0 (es w : Nat) (feat : Bool) (h : Head) (e : Evex) (o : ModRm) :
    evexAndn es w feat h e o (s.withCr0 c) = mapNext (·.withCr0 c) (evexAndn es w feat h e o s) := by
  unfold evexAndn
  rw [← complete_comp, preFault_withCr0 (.inr rfl) hPE hTS, evexSrc2_withCr0 hPE hAM]
  rfl

/-- With another CR0 that agrees on PE, TS and AM, a VEX or EVEX form gives the same outcome, and a next state differs by CR0
alone. -/
theorem exec_withCr0 {i : Instr} (hi : cls i = .vex ∨ cls i = .evex) :
    exec i (s.withCr0 c) = mapNext (·.withCr0 c) (exec i s) := by
  cases i with
  | pandnMm | pandnXmm => simp [cls] at hi
  | vpandn128 h v o | vpandn256 h v o => exact vexAndn_withCr0 hPE hTS hAM _ _ h v o
  | vpandnd128 h e o | vpandnd256 h e o | vpandnd512 h e o | vpandnq128 h e o | vpandnq256 h e o | vpandnq512 h e o =>
    exact evexAndn_withCr0 hPE hTS hAM _ _ _ h e o

end Cr0

end Sys2Proof.Machine
end

section
/-! PROOF. The statements on #UD, #NM and #MF (60_exceptions.md R193 to R195, R198, R199). -/

namespace Sys2Proof.Proofs

open Sys2Proof
open Sys2Proof.Machine
open Sys2Proof.Safety

/-- Settles O35: #MF is step 3's, of the MMX form with FSW.ES = 1, and none of the operand's. -/
theorem pendingX87IsMf : Obligations.PendingX87IsMf := by
  refine ⟨fun h o s hUd hTS hES => exec_eq_mf.2 ⟨hUd, hTS, rfl, hES⟩, fun i s h => ?_⟩
  obtain ⟨-, -, hmmx, hES⟩ := exec_eq_mf.1 h
  exact ⟨hmmx, hES⟩

/-- Settles O29: the prefixes named are those that `pfxUd` tests. -/
theorem forbiddenPrefixIsUd : Obligations.ForbiddenPrefixIsUd :=
  fun _ _ h => exec_ud_of_pfxUd (pfxUd_iff.2 h)

/-- Settles O30: a missing feature is a cause of #UD by itself. -/
theorem missingFeatureIsUd : Obligations.MissingFeatureIsUd :=
  fun _ _ => exec_ud_of_featuresPresent_false

/-- Settles O31: each row is `ctlUd` of its class, and a CR0 that differs in EM alone agrees on PE, TS and AM. -/
theorem controlStateIsUd : Obligations.ControlStateIsUd := by
  intro i s
  refine ⟨fun hc h => exec_ud_of_ctlUd ?_, fun hc h => exec_ud_of_ctlUd ?_, fun hc h => exec_ud_of_ctlUd ?_,
    fun hc h => exec_ud_of_ctlUd ?_, fun hc c hbits => ?_⟩
  · simpa [hc, ctlUd, State.cr0EM] using h
  · simpa [hc, ctlUd, State.cr0EM, State.osfxsr] using h
  · simpa [hc, ctlUd, State.osxsave, State.xcr0Avx] using h
  · simpa [hc, ctlUd, State.osxsave, State.xcr0Avx, State.xcr0Avx512, or_assoc] using h
  · exact exec_withCr0 (hbits 0 (by decide)) (hbits 3 (by decide)) (hbits 18 (by decide)) hc

/-- Settles O34: after #UD, CR0.TS comes before everything else. -/
theorem taskSwitchedIsNm : Obligations.TaskSwitchedIsNm :=
  fun _ _ hTS => exec_of_preOf (preOf_of_cr0TS hTS)

end Sys2Proof.Proofs
end

section
/-! PROOF. What PANDN xmm, and what a VEX or EVEX form, leaves above its result in the destination register
(40_pandn_legacy.md R131, 41_vpandn_vex.md R140, 42_vpandnd_vpandnq_evex.md R156), and the statement on the order of two forms
(70_reset_and_hazards.md R235). -/

namespace Sys2Proof.Machine

open Sys2Proof
open Sys2Proof.Safety

/-- A zeroing write leaves 0 in every bit above the value. -/
theorem getLsbD_writeVecZeroing_of_le (s : State) {w : Nat} (n : BitVec 5) (v : BitVec w) {j : Nat} (hj : w ≤ j) :
    ((s.writeVecZeroing n v).readZmm n).getLsbD j = false := by
  rw [getLsbD_writeVecZeroing_same, BitVec.getLsbD_of_ge v j hj, Bool.and_false]

/-- A 128-bit form that is not the legacy one is the VEX form or an EVEX form. -/
theorem cls_vex_or_evex_of_width_128 {i : Instr} (hw : width i = 128) (hc : cls i ≠ .sse) :
    cls i = .vex ∨ cls i = .evex := by
  cases i with
  | pandnMm => exact absurd hw (by simp [width])
  | pandnXmm => exact absurd rfl hc
  | vpandn128 | vpandn256 => exact .inl rfl
  | vpandnd128 | vpandnd256 | vpandnd512 | vpandnq128 | vpandnq256 | vpandnq512 => exact .inr rfl

/-- A form of the EVEX class has EVEX fields. -/
theorem exists_evex_of_cls_evex {i : Instr} (hc : cls i = .evex) : ∃ e, evex? i = some e := by
  cases i with
  | pandnMm | pandnXmm | vpandn128 | vpandn256 => cases hc
  | vpandnd128 | vpandnd256 | vpandnd512 | vpandnq128 | vpandnq256 | vpandnq512 => exact ⟨_, rfl⟩

/-- PANDN xmm keeps the bits of its destination above 127 (R131). -/
theorem execPandnXmm_upper_kept {h : Head} {o : ModRm} {s t : State} (hx : exec (.pandnXmm h o) s = .next t)
    {j : Nat} (hj : 128 ≤ j) : (t.readZmm (sseDst h o)).getLsbD j = (s.readZmm (sseDst h o)).getLsbD j := by
  obtain ⟨-, src, -, rfl⟩ := complete_eq_next.1 hx
  rw [readZmm_advance, getLsbD_writeXmmKeeping_same, if_neg (Nat.not_lt.2 hj)]

/-- A VEX form that completes leaves zeros above its result (R140). -/
theorem exec_vex_upper_zero {i : Instr} {s t : State} (hc : cls i = .vex) (h : exec i s = .next t)
    {j : Nat} (hj : width i ≤ j) : (t.readZmm (dst i)).getLsbD j = false := by
  cases i with
  | pandnMm | pandnXmm | vpandnd128 | vpandnd256 | vpandnd512 | vpandnq128 | vpandnq256 | vpandnq512 => cases hc
  | vpandn128 | vpandn256 =>
    obtain ⟨-, b, -, rfl⟩ := vexAndn_eq_next.1 h
    exact getLsbD_writeVecZeroing_of_le s _ _ hj

/-- A 128-bit VEX or EVEX form that completes leaves zeros in bits 128 and above, whatever stood there. -/
theorem exec_width_128_upper_zero {i : Instr} {s t : State} (hw : width i = 128) (hc : cls i ≠ .sse)
    (h : exec i s = .next t) {j : Nat} (hj : 128 ≤ j) : (t.readZmm (dst i)).getLsbD j = false := by
  have hwj : width i ≤ j := hw ▸ hj
  obtain hvex | hevex := cls_vex_or_evex_of_width_128 hw hc
  · exact exec_vex_upper_zero hvex h hwj
  · obtain ⟨e, he⟩ := exists_evex_of_cls_evex hevex
    exact exec_evex_upper_zero he h hwj

end Sys2Proof.Machine

namespace Sys2Proof.Proofs

open Sys2Proof
open Sys2Proof.Machine
open Sys2Proof.Safety

/-- Settles O15: the zeros a VEX or EVEX form leaves survive a later PANDN xmm, and a VEX or EVEX form that comes after one
clears the bits PANDN xmm kept. -/
theorem lastFormDecidesUpperBits : Obligations.LastFormDecidesUpperBits := by
  intro h o i s t u hw hc hd
  refine ⟨fun hi hx j hj => ?_, fun hx hi j hj => ⟨?_, exec_width_128_upper_zero hw hc hi hj⟩⟩
  · calc (u.readZmm (dst i)).getLsbD j
        = (t.readZmm (dst i)).getLsbD j := by rw [hd, execPandnXmm_upper_kept hx hj]
      _ = false := exec_width_128_upper_zero hw hc hi hj
  · rw [hd, execPandnXmm_upper_kept hx hj]

end Sys2Proof.Proofs
end

section
/-! PROOF. The decoder reads back what the encoder writes, and accepts nothing else (30_encoding.md R118): the two halves of the
round trip, format by format. -/

namespace Sys2Proof

/-! ## The head and the operands -/

/-- After a head whose groups are single, the decoder looks at the opcode part. -/
theorem decode_head_bytes {h : Head} (hw : h.wf = true) {b : Byte} (hp : Pfx.ofByte b = none) (hr : Rex.ofByte b = none)
    (bs : List Byte) : decode (h.bytes ++ b :: bs) = decodeBody h (b :: bs) := by
  obtain ⟨hpfx, hrex⟩ := takeHead_bytes h bs hp hr
  rw [decode, hpfx]
  simp only [hrex]
  exact if_pos hw

/-- What the decoder accepts begins with the bytes of a head whose groups are single. -/
theorem decode_split_head (bs : List Byte) (hr : decode bs ≠ .refuse .repeatedPfx) :
    ∃ (h : Head) (cs : List Byte), h.wf = true ∧ bs = h.bytes ++ cs ∧ decode bs = decodeBody h cs := by
  unfold decode at hr ⊢
  split at hr
  next hw =>
    rw [if_pos hw]
    exact ⟨⟨(takePfx bs).1, (takeRex (takePfx bs).2).1⟩, _, hw, (takeHead_spec bs).symm, rfl⟩
  next => exact absurd rfl hr

theorem fit_eq_instr {i j : Instr} {bs rest : List Byte} :
    fit i bs = .instr j rest ↔ i = j ∧ bs = rest ∧ i.len ≤ 15 := by
  unfold fit
  split
  next hle => simp [hle]
  next hgt => simp [hgt]

theorem withOperands_bytes {o : ModRm} (hw : o.wf = true) (row : ModRm → Instr) (rest : List Byte) :
    withOperands row (o.bytes ++ rest) = fit (row o) rest := by
  rw [withOperands, takeModRm_bytes hw]

theorem withOperands_eq_instr {row : ModRm → Instr} {bs rest : List Byte} {i : Instr}
    (h : withOperands row bs = .instr i rest) :
    ∃ o : ModRm, i = row o ∧ o.wf = true ∧ o.bytes ++ rest = bs ∧ i.len ≤ 15 := by
  unfold withOperands at h
  cases hm : takeModRm bs with
  | none => simp [hm] at h
  | some p =>
    rw [hm] at h
    obtain ⟨rfl, rfl, hlen⟩ := fit_eq_instr.1 h
    obtain ⟨hbytes, hwf⟩ := takeModRm_spec hm
    exact ⟨p.1, rfl, hwf, hbytes, hlen⟩

/-! ## The payload bytes of VEX and EVEX (R95, R96, R104, R105) -/

/-- The last payload byte of both VEX forms: a bit, the complemented `vvvv`, L and `pp = 01`. -/
def vexLast (t : Bool) (n : BitVec 4) (l : Bool) : Byte := BitVec.ofBool t ++ ~~~n ++ BitVec.ofBool l ++ 1#2

/-- The first payload byte of the 3-byte VEX form. -/
def vexFirst (r x b : Bool) : Byte :=
  BitVec.ofBool (!r) ++ BitVec.ofBool (!x) ++ BitVec.ofBool (!b) ++ 1#5

theorem vexLast_fields (t : Bool) (n : BitVec 4) (l : Bool) :
    (vexLast t n l).extractLsb' 0 2 = 1#2 ∧ (vexLast t n l).getLsbD 2 = l ∧ (vexLast t n l).getLsbD 7 = t ∧
      ~~~((vexLast t n l).extractLsb' 3 4) = n := by
  revert t n l
  decide

theorem vexLast_of_fields (p : Byte) : p.extractLsb' 0 2 = 1#2 →
    vexLast (p.getLsbD 7) (~~~(p.extractLsb' 3 4)) (p.getLsbD 2) = p := by
  revert p
  decide

theorem vexFirst_fields (r x b : Bool) :
    (vexFirst r x b).extractLsb' 0 5 = 1#5 ∧ (!(vexFirst r x b).getLsbD 7) = r ∧ (!(vexFirst r x b).getLsbD 6) = x ∧
      (!(vexFirst r x b).getLsbD 5) = b := by
  revert r x b
  decide

theorem vexFirst_of_fields (p : Byte) : p.extractLsb' 0 5 = 1#5 →
    vexFirst (!p.getLsbD 7) (!p.getLsbD 6) (!p.getLsbD 5) = p := by
  revert p
  decide

/-- `P0` of an EVEX encoding. -/
def evexP0 (r x b rHi : Bool) : Byte :=
  BitVec.ofBool (!r) ++ BitVec.ofBool (!x) ++ BitVec.ofBool (!b) ++ BitVec.ofBool (!rHi) ++ 0#2 ++ 1#2

/-- `P1` of an EVEX encoding, with the low four bits of the first source's number. -/
def evexP1 (w : Bool) (n : BitVec 4) : Byte := BitVec.ofBool w ++ ~~~n ++ 1#1 ++ 1#2

/-- `P2` of an EVEX encoding, with the high bit of the first source's number. -/
def evexP2 (z : Bool) (ll : BitVec 2) (bc : Bool) (m : BitVec 1) (aaa : BitVec 3) : Byte :=
  BitVec.ofBool z ++ ll ++ BitVec.ofBool bc ++ ~~~m ++ aaa

theorem evexP0_fields (r x b rHi : Bool) :
    (evexP0 r x b rHi).extractLsb' 2 2 = 0#2 ∧ (evexP0 r x b rHi).extractLsb' 0 2 = 1#2 ∧
      (!(evexP0 r x b rHi).getLsbD 7) = r ∧ (!(evexP0 r x b rHi).getLsbD 6) = x ∧
      (!(evexP0 r x b rHi).getLsbD 5) = b ∧ (!(evexP0 r x b rHi).getLsbD 4) = rHi := by
  revert r x b rHi
  decide

theorem evexP1_fields (w : Bool) (n : BitVec 4) :
    (evexP1 w n).getLsbD 2 = true ∧ (evexP1 w n).extractLsb' 0 2 = 1#2 ∧ (evexP1 w n).getLsbD 7 = w ∧
      (evexP1 w n).extractLsb' 3 4 = ~~~n := by
  revert w n
  decide

theorem evexP2_fields (z : Bool) (ll : BitVec 2) (bc : Bool) (m : BitVec 1) (aaa : BitVec 3) :
    (evexP2 z ll bc m aaa).extractLsb' 5 2 = ll ∧ (evexP2 z ll bc m aaa).getLsbD 7 = z ∧
      (evexP2 z ll bc m aaa).getLsbD 4 = bc ∧ (evexP2 z ll bc m aaa).extractLsb' 3 1 = ~~~m ∧
      (evexP2 z ll bc m aaa).extractLsb' 0 3 = aaa := by
  revert z ll bc m aaa
  decide

theorem evexP0_of_fields (p : Byte) : p.extractLsb' 2 2 = 0#2 → p.extractLsb' 0 2 = 1#2 →
    evexP0 (!p.getLsbD 7) (!p.getLsbD 6) (!p.getLsbD 5) (!p.getLsbD 4) = p := by
  revert p
  decide

theorem evexP1_of_fields (p : Byte) : p.getLsbD 2 = true → p.extractLsb' 0 2 = 1#2 →
    evexP1 (p.getLsbD 7) (~~~(p.extractLsb' 3 4)) = p := by
  revert p
  decide

theorem evexP2_of_fields (p : Byte) :
    evexP2 (p.getLsbD 7) (p.extractLsb' 5 2) (p.getLsbD 4) (~~~(p.extractLsb' 3 1)) (p.extractLsb' 0 3) = p := by
  revert p
  decide

/-- The number of the first source, taken apart and put together (R105). -/
theorem evexSource_join (v : BitVec 5) : ~~~(~~~(v.extractLsb' 4 1) ++ ~~~(v.extractLsb' 0 4)) = v := by
  revert v
  decide

/-- The number of the first source, put together and taken apart (R105). -/
theorem evexSource_split (m : BitVec 1) (n : BitVec 4) :
    (~~~(m ++ n)).extractLsb' 4 1 = ~~~m ∧ (~~~(m ++ n)).extractLsb' 0 4 = ~~~n := by
  revert m n
  decide

theorem evexFields_payload (w : Bool) (ll : BitVec 2) (e : Evex) :
    evexFields (evexP0 e.r e.x e.b e.rHi) (evexP1 w (e.v.extractLsb' 0 4))
      (evexP2 e.z ll e.bc (e.v.extractLsb' 4 1) e.aaa) = e := by
  obtain ⟨-, -, hr, hx, hb, hrHi⟩ := evexP0_fields e.r e.x e.b e.rHi
  obtain ⟨-, -, -, hlow⟩ := evexP1_fields w (e.v.extractLsb' 0 4)
  obtain ⟨-, hz, hbc, hhigh, haaa⟩ := evexP2_fields e.z ll e.bc (e.v.extractLsb' 4 1) e.aaa
  simp only [evexFields, hr, hx, hb, hrHi, hlow, hhigh, hz, hbc, haaa, evexSource_join]

theorem payload_evexFields {p0 p1 p2 : Byte} (hres : p0.extractLsb' 2 2 = 0#2) (hmap : p0.extractLsb' 0 2 = 1#2)
    (hone : p1.getLsbD 2 = true) (hpp : p1.extractLsb' 0 2 = 1#2) :
    evexP0 (evexFields p0 p1 p2).r (evexFields p0 p1 p2).x (evexFields p0 p1 p2).b (evexFields p0 p1 p2).rHi = p0 ∧
      evexP1 (p1.getLsbD 7) ((evexFields p0 p1 p2).v.extractLsb' 0 4) = p1 ∧
      evexP2 (evexFields p0 p1 p2).z (p2.extractLsb' 5 2) (evexFields p0 p1 p2).bc
        ((evexFields p0 p1 p2).v.extractLsb' 4 1) (evexFields p0 p1 p2).aaa = p2 := by
  obtain ⟨hhigh, hlow⟩ := evexSource_split (p2.extractLsb' 3 1) (p1.extractLsb' 3 4)
  refine ⟨evexP0_of_fields p0 hres hmap, ?_, ?_⟩
  · rw [evexFields, hlow, evexP1_of_fields p1 hone hpp]
  · rw [evexFields, hhigh, evexP2_of_fields p2]

/-! ## The bytes of each format, in one list -/

theorem encodeLeg_append (h : Head) (o : ModRm) (rest : List Byte) :
    encodeLeg h o ++ rest = h.bytes ++ 0x0F#8 :: 0xDF#8 :: (o.bytes ++ rest) := by
  simp [encodeLeg]

theorem encodeVex_two_append (l : Bool) (h : Head) (r : Bool) (n : BitVec 4) (o : ModRm) (rest : List Byte) :
    encodeVex l h ⟨r, n, .two⟩ o ++ rest =
      h.bytes ++ 0xC5#8 :: vexLast (!r) n l :: 0xDF#8 :: (o.bytes ++ rest) := by
  simp [encodeVex, vexLast]

theorem encodeVex_three_append (l : Bool) (h : Head) (r x b w : Bool) (n : BitVec 4) (o : ModRm) (rest : List Byte) :
    encodeVex l h ⟨r, n, .three x b w⟩ o ++ rest =
      h.bytes ++ 0xC4#8 :: vexFirst r x b :: vexLast w n l :: 0xDF#8 :: (o.bytes ++ rest) := by
  simp [encodeVex, vexLast, vexFirst]

theorem encodeEvex_append (w : Bool) (ll : BitVec 2) (h : Head) (e : Evex) (o : ModRm) (rest : List Byte) :
    encodeEvex w ll h e o ++ rest =
      h.bytes ++ 0x62#8 :: evexP0 e.r e.x e.b e.rHi :: evexP1 w (e.v.extractLsb' 0 4) ::
        evexP2 e.z ll e.bc (e.v.extractLsb' 4 1) e.aaa :: 0xDF#8 :: (o.bytes ++ rest) := by
  simp [encodeEvex, evexP0, evexP1, evexP2]

/-! ## Decoding an encoding, format by format -/

theorem decode_encodeLeg {xmm : Bool} {h : Head} {o : ModRm} (hw : legWf xmm h o = true) (rest : List Byte) :
    decode (encodeLeg h o ++ rest) = fit (if xmm then .pandnXmm h o else .pandnMm h o) rest := by
  simp only [legWf, Bool.and_eq_true, Bool.not_eq_true', beq_iff_eq] at hw
  obtain ⟨⟨⟨⟨hh, hne⟩, hrep⟩, hop⟩, ho⟩ := hw
  rw [encodeLeg_append]
  calc decode (h.bytes ++ 0x0F#8 :: 0xDF#8 :: (o.bytes ++ rest))
      = decodeLeg h (0xDF#8 :: (o.bytes ++ rest)) := decode_head_bytes hh rfl rfl _
    _ = fit (if xmm then .pandnXmm h o else .pandnMm h o) rest := by
      simp only [decodeLeg, hne, hrep, hop, withOperands_bytes ho]
      cases xmm <;> rfl

theorem decode_encodeVex {h : Head} {o : ModRm} (hh : h.wf = true) (ho : o.wf = true) (l : Bool) (v : Vex)
    (rest : List Byte) : decode (encodeVex l h v o ++ rest) = fit (vexRow l h v o) rest := by
  obtain ⟨r, n, form⟩ := v
  cases form with
  | two =>
    obtain ⟨hpp, hl, hr, hn⟩ := vexLast_fields (!r) n l
    rw [encodeVex_two_append]
    calc decode (h.bytes ++ 0xC5#8 :: vexLast (!r) n l :: 0xDF#8 :: (o.bytes ++ rest))
        = decodeVex2 h (vexLast (!r) n l :: 0xDF#8 :: (o.bytes ++ rest)) := decode_head_bytes hh rfl rfl _
      _ = fit (vexRow l h ⟨r, n, .two⟩ o) rest := by
        simp only [decodeVex2, hpp, hl, hr, hn, withOperands_bytes ho, Bool.not_not, ne_eq, not_true_eq_false, or_self,
          if_false]
  | three x b w =>
    obtain ⟨hmap, hr, hx, hb⟩ := vexFirst_fields r x b
    obtain ⟨hpp, hl, hw, hn⟩ := vexLast_fields w n l
    rw [encodeVex_three_append]
    calc decode (h.bytes ++ 0xC4#8 :: vexFirst r x b :: vexLast w n l :: 0xDF#8 :: (o.bytes ++ rest))
        = decodeVex3 h (vexFirst r x b :: vexLast w n l :: 0xDF#8 :: (o.bytes ++ rest)) :=
        decode_head_bytes hh rfl rfl _
      _ = fit (vexRow l h ⟨r, n, .three x b w⟩ o) rest := by
        simp only [decodeVex3, hmap, hr, hx, hb, hpp, hl, hw, hn, withOperands_bytes ho, ne_eq, not_true_eq_false,
          or_self, if_false]

theorem decode_encodeEvex {h : Head} {o : ModRm} (hh : h.wf = true) (ho : o.wf = true) (w : Bool) {ll : BitVec 2}
    (hll : ll ≠ 3#2) (e : Evex) (rest : List Byte) :
    decode (encodeEvex w ll h e o ++ rest) = fit (evexRow w ll h e o) rest := by
  have hfields := evexFields_payload w ll e
  obtain ⟨hres, hmap, -⟩ := evexP0_fields e.r e.x e.b e.rHi
  obtain ⟨hone, hpp, hw, -⟩ := evexP1_fields w (e.v.extractLsb' 0 4)
  obtain ⟨hlen, -⟩ := evexP2_fields e.z ll e.bc (e.v.extractLsb' 4 1) e.aaa
  let p0 := evexP0 e.r e.x e.b e.rHi
  let p1 := evexP1 w (e.v.extractLsb' 0 4)
  let p2 := evexP2 e.z ll e.bc (e.v.extractLsb' 4 1) e.aaa
  rw [encodeEvex_append]
  calc decode (h.bytes ++ 0x62#8 :: p0 :: p1 :: p2 :: 0xDF#8 :: (o.bytes ++ rest))
      = decodeEvex h (p0 :: p1 :: p2 :: 0xDF#8 :: (o.bytes ++ rest)) := decode_head_bytes hh rfl rfl _
    _ = fit (evexRow w ll h e o) rest := by
      simp only [decodeEvex, p0, p1, p2, hres, hmap, hone, hpp, hw, hlen, hll, hfields, withOperands_bytes ho, ne_eq,
        not_true_eq_false, Bool.true_eq_false, or_self, if_false]

/-! ## Encoding what was decoded, format by format -/

theorem encode_of_decodeLeg {h : Head} {bs rest : List Byte} {i : Instr} (hh : h.wf = true)
    (hd : decodeLeg h bs = .instr i rest) : encode i ++ rest = h.bytes ++ 0x0F#8 :: bs ∧ i.wf = true := by
  cases bs with
  | nil => cases hd
  | cons op cs =>
    simp only [decodeLeg] at hd
    split_ifs at hd with hop hrep hsize
    · simp only [Bool.or_eq_true, not_or, Bool.not_eq_true] at hrep
      obtain ⟨o, rfl, ho, rfl, hlen⟩ := withOperands_eq_instr hd
      refine ⟨by rw [not_not.1 hop]; exact encodeLeg_append h o rest, ?_⟩
      simp only [Instr.wf, legWf, hlen, hh, hrep, hsize, ho]
      rfl
    · simp only [Bool.or_eq_true, not_or, Bool.not_eq_true] at hrep hsize
      obtain ⟨o, rfl, ho, rfl, hlen⟩ := withOperands_eq_instr hd
      refine ⟨by rw [not_not.1 hop]; exact encodeLeg_append h o rest, ?_⟩
      simp only [Instr.wf, legWf, hlen, hh, hrep, hsize, ho]
      rfl

theorem encode_vexRow (l : Bool) (h : Head) (v : Vex) (o : ModRm) : encode (vexRow l h v o) = encodeVex l h v o := by
  cases l <;> rfl

theorem wf_vexRow {l : Bool} {h : Head} {v : Vex} {o : ModRm} (hh : h.wf = true) (ho : o.wf = true)
    (hlen : (vexRow l h v o).len ≤ 15) : (vexRow l h v o).wf = true := by
  cases l <;> exact Bool.and_eq_true_iff.2 ⟨decide_eq_true hlen, Bool.and_eq_true_iff.2 ⟨hh, ho⟩⟩

theorem encode_of_decodeVex2 {h : Head} {bs rest : List Byte} {i : Instr} (hh : h.wf = true)
    (hd : decodeVex2 h bs = .instr i rest) : encode i ++ rest = h.bytes ++ 0xC5#8 :: bs ∧ i.wf = true := by
  match bs, hd with
  | p :: op :: cs, hd =>
    simp only [decodeVex2] at hd
    split_ifs at hd with hbad
    obtain ⟨hpp, hop⟩ := not_or.1 hbad
    obtain ⟨o, rfl, ho, rfl, hlen⟩ := withOperands_eq_instr hd
    refine ⟨?_, wf_vexRow hh ho hlen⟩
    have hp := vexLast_of_fields p (not_not.1 hpp)
    rw [encode_vexRow, encodeVex_two_append, Bool.not_not, hp, not_not.1 hop]

theorem encode_of_decodeVex3 {h : Head} {bs rest : List Byte} {i : Instr} (hh : h.wf = true)
    (hd : decodeVex3 h bs = .instr i rest) : encode i ++ rest = h.bytes ++ 0xC4#8 :: bs ∧ i.wf = true := by
  match bs, hd with
  | p0 :: p1 :: op :: cs, hd =>
    simp only [decodeVex3] at hd
    split_ifs at hd with hbad
    obtain ⟨hmap, hbad⟩ := not_or.1 hbad
    obtain ⟨hpp, hop⟩ := not_or.1 hbad
    obtain ⟨o, rfl, ho, rfl, hlen⟩ := withOperands_eq_instr hd
    refine ⟨?_, wf_vexRow hh ho hlen⟩
    have hp0 := vexFirst_of_fields p0 (not_not.1 hmap)
    have hp1 := vexLast_of_fields p1 (not_not.1 hpp)
    rw [encode_vexRow, encodeVex_three_append, hp0, hp1, not_not.1 hop]

theorem encode_evexRow (w : Bool) {ll : BitVec 2} (hll : ll ≠ 3#2) (h : Head) (e : Evex) (o : ModRm) :
    encode (evexRow w ll h e o) = encodeEvex w ll h e o := by
  have hcases : ll = 0#2 ∨ ll = 1#2 ∨ ll = 2#2 := by
    revert ll
    decide
  obtain rfl | rfl | rfl := hcases <;> cases w <;> rfl

theorem wf_evexRow {w : Bool} {ll : BitVec 2} {h : Head} {e : Evex} {o : ModRm} (hh : h.wf = true) (ho : o.wf = true)
    (hlen : (evexRow w ll h e o).len ≤ 15) : (evexRow w ll h e o).wf = true := by
  revert hlen
  unfold evexRow
  split_ifs <;> exact fun hlen => Bool.and_eq_true_iff.2 ⟨decide_eq_true hlen, Bool.and_eq_true_iff.2 ⟨hh, ho⟩⟩

theorem encode_of_decodeEvex {h : Head} {bs rest : List Byte} {i : Instr} (hh : h.wf = true)
    (hd : decodeEvex h bs = .instr i rest) : encode i ++ rest = h.bytes ++ 0x62#8 :: bs ∧ i.wf = true := by
  match bs, hd with
  | p0 :: p1 :: p2 :: op :: cs, hd =>
    simp only [decodeEvex] at hd
    split_ifs at hd with hres hbad hll
    obtain ⟨hres, hone⟩ := not_or.1 hres
    obtain ⟨hmap, hbad⟩ := not_or.1 hbad
    obtain ⟨hpp, hop⟩ := not_or.1 hbad
    obtain ⟨o, rfl, ho, rfl, hlen⟩ := withOperands_eq_instr hd
    refine ⟨?_, wf_evexRow hh ho hlen⟩
    obtain ⟨hp0, hp1, hp2⟩ := payload_evexFields (p2 := p2) (not_not.1 hres) (not_not.1 hmap)
      (Bool.eq_true_of_not_eq_false hone) (not_not.1 hpp)
    rw [encode_evexRow _ hll, encodeEvex_append, hp0, hp1, hp2, not_not.1 hop]

theorem encode_of_decodeBody {h : Head} {bs rest : List Byte} {i : Instr} (hh : h.wf = true)
    (hd : decodeBody h bs = .instr i rest) : encode i ++ rest = h.bytes ++ bs ∧ i.wf = true := by
  cases bs with
  | nil => cases hd
  | cons b cs =>
    simp only [decodeBody] at hd
    split_ifs at hd with hleg hvex2 hvex3 hevex
    · exact hleg ▸ encode_of_decodeLeg hh hd
    · exact hvex2 ▸ encode_of_decodeVex2 hh hd
    · exact hvex3 ▸ encode_of_decodeVex3 hh hd
    · exact hevex ▸ encode_of_decodeEvex hh hd

end Sys2Proof

namespace Sys2Proof.Proofs

open Sys2Proof

/-- Settles O44: each format's encoding decodes to the row it was written for, and a well-formed length fits. -/
theorem decodeOfEncode : Obligations.DecodeOfEncode := by
  intro i rest hwf
  obtain ⟨hlen, hform⟩ := Bool.and_eq_true_iff.1 hwf
  have hlen := of_decide_eq_true hlen
  have hfit : fit i rest = .instr i rest := if_pos hlen
  rw [← hfit]
  cases i with
  | pandnMm h o | pandnXmm h o => exact decode_encodeLeg hform rest
  | vpandn128 h v o | vpandn256 h v o =>
    obtain ⟨hh, ho⟩ := Bool.and_eq_true_iff.1 hform
    exact decode_encodeVex hh ho _ v rest
  | vpandnd128 h e o | vpandnd256 h e o | vpandnd512 h e o | vpandnq128 h e o | vpandnq256 h e o | vpandnq512 h e o =>
    obtain ⟨hh, ho⟩ := Bool.and_eq_true_iff.1 hform
    exact decode_encodeEvex hh ho _ (by decide) e rest

/-- Settles O45: the head read is the head's bytes, and each format's decoder accepts the encoder's bytes only. -/
theorem encodeOfDecode : Obligations.EncodeOfDecode := by
  intro bs rest i hd
  obtain ⟨h, cs, hh, hbs, hbody⟩ := decode_split_head bs (by rw [hd]; exact Decoded.noConfusion)
  rw [hbs]
  exact encode_of_decodeBody hh (hbody ▸ hd)

end Sys2Proof.Proofs
end

section
/-! PROOF. The lengths of encodings (30_encoding.md R117), the opcode table's windows (R125), and the bytes that are refused or
raise #UD (R84, R86, R119). -/

namespace Sys2Proof

open Sys2Proof.Safety

/-! ## Lengths -/

theorem modRm_len_bounds (o : ModRm) : 1 ≤ o.len ∧ o.len ≤ 6 := by
  have hdisp (d : Disp) : d.len ≤ 4 := by cases d <;> simp [Disp.len]
  obtain ⟨reg, rm⟩ := o
  cases rm with
  | reg rm => simp [ModRm.len]
  | mem a =>
    cases a with
    | base rm d | sib sc ix b d =>
      have := hdisp d
      simp only [ModRm.len, Addr.len]
      omega
    | ripRel d | sibNoBase sc ix d => simp [ModRm.len, Addr.len]

/-- The prefixes of a head whose groups are single are no more than the groups they can be of (R84). -/
theorem pfx_length_le {h : Head} (hw : h.wf = true) {gs : List PfxGroup} (hgs : ∀ p ∈ h.pfx, p.group ∈ gs) :
    h.pfx.length ≤ gs.length := by
  have hnodup : (h.pfx.map Pfx.group).Nodup := of_decide_eq_true hw
  have hsub : h.pfx.map Pfx.group ⊆ gs := fun g hg => by
    obtain ⟨p, hp, rfl⟩ := List.mem_map.1 hg
    exact hgs p hp
  simpa using (hnodup.subperm hsub).length_le

/-- Without LOCK, F2H and F3H the first group is empty (R84). -/
theorem group_mem_of_no_lockRep {h : Head} (hlock : Pfx.lock ∉ h.pfx) (hne : Pfx.repne ∉ h.pfx) (hrep : Pfx.rep ∉ h.pfx)
    {p : Pfx} (hp : p ∈ h.pfx) : p.group ∈ [PfxGroup.segment, .addrSize, .opSize] := by
  cases p with
  | lock => exact absurd hp hlock
  | repne => exact absurd hp hne
  | rep => exact absurd hp hrep
  | seg | opSize | addrSize => simp [Pfx.group]

/-- Without 66H too, two groups are left (R84). -/
theorem group_mem_of_no_lockRep_opSize {h : Head} (hlock : Pfx.lock ∉ h.pfx) (hne : Pfx.repne ∉ h.pfx)
    (hrep : Pfx.rep ∉ h.pfx) (hsize : Pfx.opSize ∉ h.pfx) {p : Pfx} (hp : p ∈ h.pfx) :
    p.group ∈ [PfxGroup.segment, .addrSize] := by
  cases p with
  | lock => exact absurd hp hlock
  | repne => exact absurd hp hne
  | rep => exact absurd hp hrep
  | opSize => exact absurd hp hsize
  | seg | addrSize => simp [Pfx.group]

theorem head_len_le (h : Head) : h.pfx.length ≤ h.len ∧ h.len ≤ h.pfx.length + 1 := by
  unfold Head.len
  split <;> omega

theorem head_len_of_no_rex {h : Head} (hr : h.rex = none) : h.len = h.pfx.length := by
  simp [Head.len, hr]

/-- A LEG form has no F2H and F3H, has 66H as its form says, and has well-formed operands (R85, R86). -/
theorem legWf_iff {xmm : Bool} {h : Head} {o : ModRm} : legWf xmm h o = true ↔
    h.wf = true ∧ Pfx.repne ∉ h.pfx ∧ Pfx.rep ∉ h.pfx ∧ (Pfx.opSize ∈ h.pfx ↔ xmm = true) ∧ o.wf = true := by
  cases xmm <;> simp [legWf, and_assoc]

theorem legLen_bounds_mmx {h : Head} {o : ModRm} (hw : legWf false h o = true) (hlock : Pfx.lock ∉ h.pfx) :
    3 ≤ legLen h o ∧ legLen h o ≤ 12 := by
  obtain ⟨hh, hne, hrep, hsize, -⟩ := legWf_iff.1 hw
  have hpfx := pfx_length_le hh fun p => group_mem_of_no_lockRep_opSize hlock hne hrep (by simp [hsize])
  have hmodrm := modRm_len_bounds o
  have hhead := head_len_le h
  simp only [legLen, List.length_cons, List.length_nil] at *
  omega

theorem legLen_bounds_sse {h : Head} {o : ModRm} (hw : legWf true h o = true) (hlock : Pfx.lock ∉ h.pfx) :
    4 ≤ legLen h o ∧ legLen h o ≤ 12 := by
  obtain ⟨hh, hne, hrep, hsize, -⟩ := legWf_iff.1 hw
  have hpfx := pfx_length_le hh fun p => group_mem_of_no_lockRep hlock hne hrep
  have hpos : 0 < h.pfx.length := List.length_pos_of_mem (hsize.2 rfl)
  have hmodrm := modRm_len_bounds o
  have hhead := head_len_le h
  simp only [legLen, List.length_cons, List.length_nil] at *
  omega

/-- A VEX or EVEX form whose head raises no #UD has at most two bytes before its opcode part. -/
theorem head_len_le_two {i : Instr} (hw : (head i).wf = true) (hl : legal i = true) (hc : cls i = .vex ∨ cls i = .evex) :
    (head i).len ≤ 2 := by
  have hno : Pfx.lock ∉ (head i).pfx ∧ Pfx.opSize ∉ (head i).pfx ∧ Pfx.repne ∉ (head i).pfx ∧
      Pfx.rep ∉ (head i).pfx ∧ (head i).rex = none := by
    simp only [legal, Bool.and_eq_true, Bool.not_eq_true', ← Bool.not_eq_true, List.contains_iff_mem] at hl
    obtain ⟨⟨hlock, hclass⟩, -⟩ := hl
    obtain hc | hc := hc <;>
    · simp only [hc, Bool.and_eq_true, Bool.not_eq_true', ← Bool.not_eq_true, List.contains_iff_mem,
        Option.isNone_iff_eq_none, and_assoc] at hclass
      exact ⟨hlock, hclass⟩
  obtain ⟨hlock, hsize, hne, hrep, hrex⟩ := hno
  rw [head_len_of_no_rex hrex]
  exact pfx_length_le hw fun p => group_mem_of_no_lockRep_opSize hlock hne hrep hsize

theorem vexLen_bounds {h : Head} {v : Vex} {o : ModRm} (hh : h.len ≤ 2) : 4 ≤ vexLen h v o ∧ vexLen h v o ≤ 12 := by
  have hmodrm := modRm_len_bounds o
  unfold vexLen
  cases v.form <;> simp only <;> omega

theorem evexLen_bounds {h : Head} {o : ModRm} (hh : h.len ≤ 2) : 6 ≤ evexLen h o ∧ evexLen h o ≤ 13 := by
  have hmodrm := modRm_len_bounds o
  unfold evexLen
  omega

/-- The head of a well-formed instruction has single groups, whatever its format (R84). -/
theorem head_wf {i : Instr} (hw : i.wf = true) : (head i).wf = true := by
  have hform := (Bool.and_eq_true_iff.1 hw).2
  cases i with
  | pandnMm h o | pandnXmm h o => exact (legWf_iff.1 hform).1
  | vpandn128 h v o | vpandn256 h v o => exact (Bool.and_eq_true_iff.1 hform).1
  | vpandnd128 h e o | vpandnd256 h e o | vpandnd512 h e o | vpandnq128 h e o | vpandnq256 h e o | vpandnq512 h e o =>
    exact (Bool.and_eq_true_iff.1 hform).1

theorem not_lock_of_legal {i : Instr} (hl : legal i = true) : Pfx.lock ∉ (head i).pfx := by
  simp only [legal, Bool.and_eq_true, Bool.not_eq_true', ← Bool.not_eq_true, List.contains_iff_mem] at hl
  exact hl.1.1

theorem encode_length (i : Instr) : (encode i).length = i.len := by
  cases i with
  | pandnMm h o | pandnXmm h o => exact Laws.encodeLeg_length h o
  | vpandn128 h v o | vpandn256 h v o => exact Laws.encodeVex_length _ h v o
  | vpandnd128 h e o | vpandnd256 h e o | vpandnd512 h e o | vpandnq128 h e o | vpandnq256 h e o | vpandnq512 h e o =>
    exact Laws.encodeEvex_length _ _ h e o

/-! ## The opcode table's windows (R125) -/

/-- Every operand field begins with a ModRM byte (R90). -/
theorem modRm_bytes_cons (o : ModRm) : ∃ (m : Byte) (bs : List Byte), o.bytes = m :: bs := by
  obtain ⟨reg, rm⟩ := o
  cases rm with
  | reg rm => exact ⟨_, _, rfl⟩
  | mem a => exact ⟨_, _, rfl⟩

/-- The bytes of an encoding from its opcode part on. -/
theorem drop_head_bytes (h : Head) (bs : List Byte) : (h.bytes ++ bs).drop h.len = bs := by
  rw [← head_bytes_length, List.drop_left]

theorem vexLast_masked (t : Bool) (n : BitVec 4) (l : Bool) :
    0x07#8 &&& vexLast t n l = if l then 0x05#8 else 0x01#8 := by
  revert t n l
  decide

theorem vexFirst_masked (r x b : Bool) : 0x1F#8 &&& vexFirst r x b = 0x01#8 := by
  revert r x b
  decide

theorem evexP0_masked (r x b rHi : Bool) : 0x0F#8 &&& evexP0 r x b rHi = 0x01#8 := by
  revert r x b rHi
  decide

theorem evexP1_masked (w : Bool) (n : BitVec 4) : 0x87#8 &&& evexP1 w n = if w then 0x85#8 else 0x05#8 := by
  revert w n
  decide

theorem evexP2_masked (z : Bool) (ll : BitVec 2) (bc : Bool) (m : BitVec 1) (aaa : BitVec 3) :
    0x60#8 &&& evexP2 z ll bc m aaa = 0#1 ++ ll ++ 0#5 := by
  revert z ll bc m aaa
  decide

theorem window_encodeLeg (h : Head) (o : ModRm) :
    List.zipWith (fun m b => m &&& b) [0xFF#8, 0xFF#8, 0x00#8] (((encodeLeg h o).drop h.len).take 3) =
      [0x0F#8, 0xDF#8, 0x00#8] := by
  obtain ⟨m, bs, hm⟩ := modRm_bytes_cons o
  have hbytes := encodeLeg_append h o []
  rw [List.append_nil] at hbytes
  rw [hbytes, drop_head_bytes, hm]
  simp

theorem window_encodeVex_two (l : Bool) (h : Head) (r : Bool) (n : BitVec 4) (o : ModRm) :
    List.zipWith (fun m b => m &&& b) [0xFF#8, 0x07#8, 0xFF#8, 0x00#8]
      (((encodeVex l h ⟨r, n, .two⟩ o).drop h.len).take 4) =
      [0xC5#8, if l then 0x05#8 else 0x01#8, 0xDF#8, 0x00#8] := by
  obtain ⟨m, bs, hm⟩ := modRm_bytes_cons o
  have hbytes := encodeVex_two_append l h r n o []
  rw [List.append_nil] at hbytes
  rw [hbytes, drop_head_bytes, hm]
  simp [vexLast_masked]

theorem window_encodeVex_three (l : Bool) (h : Head) (r x b w : Bool) (n : BitVec 4) (o : ModRm) :
    List.zipWith (fun m b => m &&& b) [0xFF#8, 0x1F#8, 0x07#8, 0xFF#8, 0x00#8]
      (((encodeVex l h ⟨r, n, .three x b w⟩ o).drop h.len).take 5) =
      [0xC4#8, 0x01#8, if l then 0x05#8 else 0x01#8, 0xDF#8, 0x00#8] := by
  obtain ⟨m, bs, hm⟩ := modRm_bytes_cons o
  have hbytes := encodeVex_three_append l h r x b w n o []
  rw [List.append_nil] at hbytes
  rw [hbytes, drop_head_bytes, hm]
  simp [vexLast_masked, vexFirst_masked]

theorem window_encodeEvex (w : Bool) (ll : BitVec 2) (h : Head) (e : Evex) (o : ModRm) :
    List.zipWith (fun m b => m &&& b) [0xFF#8, 0x0F#8, 0x87#8, 0x60#8, 0xFF#8, 0x00#8]
      (((encodeEvex w ll h e o).drop h.len).take 6) =
      [0x62#8, 0x01#8, if w then 0x85#8 else 0x05#8, 0#1 ++ ll ++ 0#5, 0xDF#8, 0x00#8] := by
  obtain ⟨m, bs, hm⟩ := modRm_bytes_cons o
  have hbytes := encodeEvex_append w ll h e o []
  rw [List.append_nil] at hbytes
  rw [hbytes, drop_head_bytes, hm]
  simp [evexP0_masked, evexP1_masked, evexP2_masked]

/-! ## Refused bytes and #UD -/

/-- The groups of the prefixes read include those of the prefixes written. -/
theorem takePfx_bytes_append (ps : List Pfx) (bs : List Byte) :
    (takePfx (ps.map Pfx.byte ++ bs)).1 = ps ++ (takePfx bs).1 := by
  induction ps with
  | nil => rfl
  | cons p ps ih => simp [takePfx, ih]

theorem onePerGroup_append_false {ps : List Pfx} (hps : onePerGroup ps = false) (qs : List Pfx) :
    onePerGroup (ps ++ qs) = false := by
  unfold onePerGroup at *
  simp only [decide_eq_false_iff_not, List.map_append] at *
  exact fun hnodup => hps hnodup.of_append_left

theorem evexP0_fixed_iff (p : Byte) :
    p.extractLsb' 0 4 = 1#4 ↔ p.extractLsb' 2 2 = 0#2 ∧ p.extractLsb' 0 2 = 1#2 := by
  revert p
  decide

theorem evexP1_fixed_iff (p : Byte) :
    p.extractLsb' 0 3 = 5#3 ↔ p.getLsbD 2 = true ∧ p.extractLsb' 0 2 = 1#2 := by
  revert p
  decide

theorem withOperands_ne_ud (row : ModRm → Instr) (bs : List Byte) (n : Nat) : withOperands row bs ≠ .ud n := by
  unfold withOperands fit
  split
  · exact Decoded.noConfusion
  · split <;> exact Decoded.noConfusion

theorem decodeLeg_ne_ud (h : Head) (bs : List Byte) (n : Nat) : decodeLeg h bs ≠ .ud n := by
  cases bs with
  | nil => exact Decoded.noConfusion
  | cons op cs =>
    simp only [decodeLeg]
    split_ifs
    · exact Decoded.noConfusion
    · exact Decoded.noConfusion
    · exact withOperands_ne_ud _ _ n
    · exact withOperands_ne_ud _ _ n

theorem decodeVex2_ne_ud (h : Head) (bs : List Byte) (n : Nat) : decodeVex2 h bs ≠ .ud n := by
  unfold decodeVex2
  split
  · split_ifs
    · exact Decoded.noConfusion
    · exact withOperands_ne_ud _ _ n
  · exact Decoded.noConfusion

theorem decodeVex3_ne_ud (h : Head) (bs : List Byte) (n : Nat) : decodeVex3 h bs ≠ .ud n := by
  unfold decodeVex3
  split
  · split_ifs
    · exact Decoded.noConfusion
    · exact withOperands_ne_ud _ _ n
  · exact Decoded.noConfusion

/-- The bytes after 62H that stand for the reserved vector length (R119). -/
def ReservedLength (bs : List Byte) : Prop :=
  ∃ (p0 p1 p2 : Byte) (rest : List Byte), bs = p0 :: p1 :: p2 :: 0xDF#8 :: rest ∧
    p0.extractLsb' 0 4 = 1#4 ∧ p1.extractLsb' 0 3 = 5#3 ∧ p2.extractLsb' 5 2 = 3#2

theorem decodeEvex_of_reservedLength {bs : List Byte} (hb : ReservedLength bs) (h : Head) :
    decodeEvex h bs = .ud (h.len + 5) := by
  obtain ⟨p0, p1, p2, rest, rfl, hp0, hp1, hll⟩ := hb
  obtain ⟨hres, hmap⟩ := (evexP0_fixed_iff p0).1 hp0
  obtain ⟨hone, hpp⟩ := (evexP1_fixed_iff p1).1 hp1
  simp only [decodeEvex, hres, hmap, hone, hpp, hll, ne_eq, not_true_eq_false, Bool.true_eq_false, or_self, if_false,
    if_true]

theorem reservedLength_of_decodeEvex {h : Head} {bs : List Byte} {n : Nat} (hd : decodeEvex h bs = .ud n) :
    ReservedLength bs ∧ n = h.len + 5 := by
  match bs, hd with
  | p0 :: p1 :: p2 :: op :: rest, hd =>
    simp only [decodeEvex] at hd
    split_ifs at hd with hres hbad hll
    · obtain ⟨hres, hone⟩ := not_or.1 hres
      obtain ⟨hmap, hbad⟩ := not_or.1 hbad
      obtain ⟨hpp, hop⟩ := not_or.1 hbad
      refine ⟨⟨p0, p1, p2, rest, by rw [not_not.1 hop], ?_, ?_, hll⟩, (Decoded.ud.inj hd).symm⟩
      · exact (evexP0_fixed_iff p0).2 ⟨not_not.1 hres, not_not.1 hmap⟩
      · exact (evexP1_fixed_iff p1).2 ⟨Bool.eq_true_of_not_eq_false hone, not_not.1 hpp⟩
    · exact absurd hd (withOperands_ne_ud _ _ n)

/-- Of the opcode parts only an EVEX one makes the decoder answer #UD. -/
theorem decodeBody_eq_ud {h : Head} {bs : List Byte} {n : Nat} (hd : decodeBody h bs = .ud n) :
    ∃ cs, bs = 0x62#8 :: cs ∧ ReservedLength cs ∧ n = h.len + 5 := by
  cases bs with
  | nil => cases hd
  | cons b cs =>
    simp only [decodeBody] at hd
    split_ifs at hd with hleg hvex2 hvex3 hevex
    · exact absurd hd (decodeLeg_ne_ud h cs n)
    · exact absurd hd (decodeVex2_ne_ud h cs n)
    · exact absurd hd (decodeVex3_ne_ud h cs n)
    · exact ⟨cs, by rw [hevex], reservedLength_of_decodeEvex hd⟩

/-- The decoder answers #UD for a head with single groups before an EVEX part with `L'L = 11`, and for nothing else. -/
theorem decode_eq_ud {bs : List Byte} {n : Nat} : decode bs = .ud n ↔
    ∃ (h : Head) (cs : List Byte), h.wf = true ∧ n = h.len + 5 ∧ bs = h.bytes ++ 0x62#8 :: cs ∧ ReservedLength cs := by
  constructor
  · intro hd
    obtain ⟨h, ds, hw, rfl, hbody⟩ := decode_split_head bs (by rw [hd]; exact Decoded.noConfusion)
    obtain ⟨cs, rfl, hres, hn⟩ := decodeBody_eq_ud (hbody ▸ hd)
    exact ⟨h, cs, hw, hn, rfl, hres⟩
  · rintro ⟨h, cs, hw, rfl, rfl, hres⟩
    rw [decode_head_bytes hw rfl rfl]
    exact decodeEvex_of_reservedLength hres h

end Sys2Proof

namespace Sys2Proof.Machine

open Sys2Proof

/-- An instruction with a reserved combination of EVEX fields raises #UD in every state. -/
theorem exec_ud_of_reservedOf {i : Instr} {s : State} (h : reservedOf i = true) : exec i s = .fault .ud :=
  exec_ud_of_noUd_false (by simp [noUd_iff, h])

end Sys2Proof.Machine

namespace Sys2Proof.Proofs

open Sys2Proof
open Sys2Proof.Machine
open Sys2Proof.Safety

/-- Settles O46: the groups that a legal head can use bound its bytes, and ModRM, SIB and displacement have one to six. -/
theorem encodingLengths : Obligations.EncodingLengths := by
  refine ⟨encode_length, fun i hwf hl => ?_⟩
  cases i with
  | pandnMm h o => exact legLen_bounds_mmx (Bool.and_eq_true_iff.1 hwf).2 (not_lock_of_legal hl)
  | pandnXmm h o => exact legLen_bounds_sse (Bool.and_eq_true_iff.1 hwf).2 (not_lock_of_legal hl)
  | vpandn128 h v o | vpandn256 h v o =>
    exact vexLen_bounds (head_len_le_two (head_wf hwf) hl (.inl rfl))
  | vpandnd128 h e o | vpandnd256 h e o | vpandnd512 h e o | vpandnq128 h e o | vpandnq256 h e o | vpandnq512 h e o =>
    exact evexLen_bounds (head_len_le_two (head_wf hwf) hl (.inr rfl))

/-- Settles O48: the mask leaves the bits of an encoding that its format fixes. -/
theorem windowMatchesTable : Obligations.WindowMatchesTable := by
  intro i
  cases i with
  | pandnMm h o | pandnXmm h o => exact window_encodeLeg h o
  | vpandn128 h v o | vpandn256 h v o =>
    obtain ⟨r, n, form⟩ := v
    cases form with
    | two => exact window_encodeVex_two _ h r n o
    | three x b w => exact window_encodeVex_three _ h r x b w n o
  | vpandnd128 h e o | vpandnd256 h e o | vpandnd512 h e o | vpandnq128 h e o | vpandnq256 h e o | vpandnq512 h e o =>
    exact window_encodeEvex _ _ h e o

/-- Settles O49: the decoder run on the ten words. -/
theorem decodesWrittenWords : Obligations.DecodesWrittenWords := by
  unfold Obligations.DecodesWrittenWords
  decide

/-- Settles O47: F2H and F3H are tested once the opcode is read, and what follows two prefixes of a group cannot undo them. -/
theorem prefixesRefused : Obligations.PrefixesRefused := by
  refine ⟨fun h rest hw hrep => ?_, fun ps rest hps => ?_⟩
  · have hcontains : (h.pfx.contains .repne || h.pfx.contains .rep) = true := by simpa using hrep
    calc decode (h.bytes ++ 0x0F#8 :: 0xDF#8 :: rest)
        = decodeLeg h (0xDF#8 :: rest) := decode_head_bytes hw rfl rfl _
      _ = .refuse .repBeforeLeg := by simp only [decodeLeg, hcontains, ne_eq, not_true_eq_false, if_false, if_true]
  · rw [decode, takePfx_bytes_append, onePerGroup_append_false hps]
    rfl

/-- Settles O32: the reserved fields of an instruction are `reservedOf`; of bytes, the decoder tests `P0[3:2]` and `P1[2]` before
the vector length, and `L'L = 11` is its only #UD. -/
theorem reservedEvexFields : Obligations.ReservedEvexFields := by
  refine ⟨fun i e s he hres => exec_ud_of_reservedOf ?_, fun h p0 p1 p2 op rest hw hbad => ?_,
    fun h p0 p1 p2 rest s hw hp0 hp1 hll hfetch hmode hplaced => ?_, fun bs n => ?_⟩
  · simp only [reservedOf, he, reservedEvex, Bool.or_eq_true, Bool.and_eq_true, beq_iff_eq]
    refine hres.imp_right fun hbc => ⟨hbc.1, ?_⟩
    obtain ⟨-, rm, hrm⟩ := hbc
    rw [hrm]
  · calc decode (h.bytes ++ 0x62#8 :: p0 :: p1 :: p2 :: op :: rest)
        = decodeEvex h (p0 :: p1 :: p2 :: op :: rest) := decode_head_bytes hw rfl rfl _
      _ = .refuse .reservedEvex := by simp only [decodeEvex, hbad, if_true]
  · have hd : decode s.fetch = .ud (h.len + 5) :=
      decode_eq_ud.2 ⟨h, _, hw, rfl, hfetch, p0, p1, p2, rest, rfl, hp0, hp1, hll⟩
    rw [step, if_pos hmode, hd, runDecoded, if_pos hplaced]
    rfl
  · rw [decode_eq_ud]
    constructor
    · rintro ⟨h, cs, hw, hn, hbs, p0, p1, p2, rest, rfl, hfixed⟩
      exact ⟨h, p0, p1, p2, rest, hw, hn, hbs, hfixed⟩
    · rintro ⟨h, p0, p1, p2, rest, hw, hn, hbs, hfixed⟩
      exact ⟨h, _, hw, hn, hbs, p0, p1, p2, rest, rfl, hfixed⟩

end Sys2Proof.Proofs
end

section
/-! PROOF. An instruction as one course (60_exceptions.md R204, R206): the exceptions of steps 1 to 3, the second source, one
update of the state. What each part is, said once for the ten forms. -/

namespace Sys2Proof.Machine

open Sys2Proof
open Sys2Proof.Safety

/-! ## The course of an instruction -/

/-- The second source of an instruction, of its width (00_scope.md R13). -/
def srcOf (i : Instr) (s : State) : Got (BitVec (width i)) :=
  match i with
  | .pandnMm h o => mmxSrc h o s
  | .pandnXmm h o => sseSrc h o s
  | .vpandn128 h v o => vexSrc2 128 h v o s
  | .vpandn256 h v o => vexSrc2 256 h v o s
  | .vpandnd128 h e o => evexSrc2 32 128 h e o s
  | .vpandnd256 h e o => evexSrc2 32 256 h e o s
  | .vpandnd512 h e o => evexSrc2 32 512 h e o s
  | .vpandnq128 h e o => evexSrc2 64 128 h e o s
  | .vpandnq256 h e o => evexSrc2 64 256 h e o s
  | .vpandnq512 h e o => evexSrc2 64 512 h e o s

/-- The update of PANDN xmm (40_pandn_legacy.md R131). -/
def sseEffect (h : Head) (o : ModRm) (s : State) (b : BitVec 128) : State :=
  (s.writeXmmKeeping (sseDst h o) (andn (s.vec 128 (sseDst h o)) b)).advance (legLen h o)

/-- The update of a VEX form of `w` bits (41_vpandn_vex.md R140). -/
def vexEffect (w : Nat) (h : Head) (v : Vex) (o : ModRm) (s : State) (b : BitVec w) : State :=
  (s.writeVecZeroing (vexDst v o) (andn (s.vec w (vexSrc1 v)) b)).advance (vexLen h v o)

/-- The update of an EVEX form (42_vpandnd_vpandnq_evex.md R156). -/
def evexEffect (es w : Nat) (h : Head) (e : Evex) (o : ModRm) (s : State) (b : BitVec w) : State :=
  (s.writeVecZeroing (evexDst e o)
    (maskedAndn es w (maskBit s e) e.z (s.vec w (evexDst e o)) (s.vec w e.v) b)).advance (evexLen h o)

/-- What an instruction does with its second source when it raises nothing. -/
def effectOf (i : Instr) (s : State) : BitVec (width i) → State :=
  match i with
  | .pandnMm h o => fun b => ((s.writeMm o.reg (andn (s.readMm o.reg) b)).mmxAlias o.reg).advance (legLen h o)
  | .pandnXmm h o => sseEffect h o s
  | .vpandn128 h v o => vexEffect 128 h v o s
  | .vpandn256 h v o => vexEffect 256 h v o s
  | .vpandnd128 h e o => evexEffect 32 128 h e o s
  | .vpandnd256 h e o => evexEffect 32 256 h e o s
  | .vpandnd512 h e o => evexEffect 32 512 h e o s
  | .vpandnq128 h e o => evexEffect 64 128 h e o s
  | .vpandnq256 h e o => evexEffect 64 256 h e o s
  | .vpandnq512 h e o => evexEffect 64 512 h e o s

/-- Every form takes the common course. -/
theorem exec_eq_complete (i : Instr) (s : State) : exec i s = complete (preOf i s) (srcOf i s) (effectOf i s) := by
  cases i <;> rfl

theorem exec_eq_next {i : Instr} {s t : State} :
    exec i s = .next t ↔ preOf i s = none ∧ ∃ b, srcOf i s = .value b ∧ t = effectOf i s b := by
  rw [exec_eq_complete, complete_eq_next]

theorem exec_eq_refused {i : Instr} {s : State} {r : Refusal} :
    exec i s = .refused r ↔ preOf i s = none ∧ srcOf i s = .refused r := by
  rw [exec_eq_complete, complete_eq_refused]

/-! ## The memory read -/

/-- A read that answers a value: in 64-bit mode, with no exception, outside the device regions (20_memory.md R58). -/
def Readable (s : State) (q : Access) : Prop :=
  s.mode = .m64 ∧ operandFaults s q = [] ∧ touchesDevice s q = false

/-- Bit `j` of the bytes that the oracle answers for an operand (20_memory.md R53). -/
def Access.bit (q : Access) (s : State) (j : Nat) : Bool := (s.dataAt (q.byteAddr (j / 8))).getLsbD (j % 8)

theorem getLsbD_readLE (s : State) (q : Access) {w : Nat} (hw : 8 ∣ w) {j : Nat} (hj : j < w) :
    (BitVec.ofNat w (s.readLE q.la (w / 8))).getLsbD j = q.bit s j := by
  have hlt : j < 8 * (w / 8) := by rwa [Nat.mul_div_cancel' hw]
  rw [BitVec.getLsbD_ofNat, testBit_readLE, decide_eq_true hj, decide_eq_true hlt, Bool.true_and, Bool.true_and]
  rfl

theorem value_eq_iff {w : Nat} {u v : BitVec w} :
    Got.value u = .value v ↔ ∀ j < w, v.getLsbD j = u.getLsbD j := by
  rw [Got.value.injEq]
  exact ⟨fun h _ _ => by rw [h], fun h => (BitVec.eq_of_getLsbD_eq h).symm⟩

/-- What a memory read answers, bit by bit. -/
theorem memRead_eq_value_iff {s : State} {q : Access} {w : Nat} (hw : 8 ∣ w) {v : BitVec w} :
    memRead s q w = .value v ↔ Readable s q ∧ ∀ j < w, v.getLsbD j = q.bit s j := by
  have hbits : v = BitVec.ofNat w (s.readLE q.la (w / 8)) ↔ ∀ j < w, v.getLsbD j = q.bit s j := by
    constructor
    · rintro rfl j hj
      exact getLsbD_readLE s q hw hj
    · exact fun h => BitVec.eq_of_getLsbD_eq fun j hj => by rw [h j hj, getLsbD_readLE s q hw hj]
  rw [memRead_eq_value, hbits, Readable, and_assoc, and_assoc]

/-- What the read of a broadcast element answers, bit by bit (42_vpandnd_vpandnq_evex.md R156). -/
theorem memRead_broadcast_eq_value_iff {s : State} {q : Access} {es w : Nat} (hes : 0 < es) (h8 : 8 ∣ es) (hdvd : es ∣ w)
    {v : BitVec w} : (memRead s q es).map (broadcast es w) = .value v ↔
      Readable s q ∧ ∀ j < w, v.getLsbD j = q.bit s (j % es) := by
  rw [map_eq_value]
  constructor
  · rintro ⟨u, hu, rfl⟩
    obtain ⟨hq, hbits⟩ := (memRead_eq_value_iff h8).1 hu
    refine ⟨hq, fun j hj => ?_⟩
    rw [getLsbD_broadcast es w u hes hdvd j hj, hbits _ (Nat.mod_lt j hes)]
  · rintro ⟨hq, hbits⟩
    refine ⟨_, (memRead_eq_value_iff h8).2 ⟨hq, fun j hj => getLsbD_readLE s q h8 hj⟩, ?_⟩
    refine BitVec.eq_of_getLsbD_eq fun j hj => ?_
    rw [getLsbD_broadcast es w _ hes hdvd j hj, getLsbD_readLE s q h8 (Nat.mod_lt j hes), hbits j hj]

/-! ## The second source, bit by bit -/

/-- Bit `j` of the second source of an instruction, in the words of the claims. -/
def srcBit (i : Instr) (s : State) (j : Nat) : Bool :=
  match i with
  | .pandnMm h o => mmxSrcBit h o s j
  | .pandnXmm _ _ => src2Bit i s j
  | .vpandn128 _ _ _ => src2Bit i s j
  | .vpandn256 _ _ _ => src2Bit i s j
  | .vpandnd128 _ _ _ => src2Bit i s j
  | .vpandnd256 _ _ _ => src2Bit i s j
  | .vpandnd512 _ _ _ => src2Bit i s j
  | .vpandnq128 _ _ _ => src2Bit i s j
  | .vpandnq256 _ _ _ => src2Bit i s j
  | .vpandnq512 _ _ _ => src2Bit i s j

theorem srcBit_of_ne_mmx {i : Instr} (hc : cls i ≠ .mmx) (s : State) (j : Nat) : srcBit i s j = src2Bit i s j := by
  cases i with
  | pandnMm => exact absurd rfl hc
  | _ => rfl

theorem vec_value_iff {s : State} {w : Nat} {n : BitVec 5} {v : BitVec w} :
    Got.value (s.vec w n) = .value v ↔ ∀ j < w, v.getLsbD j = (s.readZmm n).getLsbD j := by
  rw [value_eq_iff]
  refine forall₂_congr fun j hj => ?_
  rw [getLsbD_vec, decide_eq_true hj, Bool.true_and]

theorem evexSrc2_mem_eq_value {es w : Nat} {h : Head} {e : Evex} {reg : BitVec 3} {a : Addr} {s : State}
    (hes : 0 < es) (h8 : 8 ∣ es) (hdvd : es ∣ w) {v : BitVec w} :
    evexSrc2 es w h e ⟨reg, .mem a⟩ s = .value v ↔ Readable s (evexAccess es w h e ⟨reg, .mem a⟩ a s) ∧
      ∀ j < w, v.getLsbD j = if e.bc then
        (s.dataAt ((evexAccess es w h e ⟨reg, .mem a⟩ a s).byteAddr (j % es / 8))).getLsbD (j % 8)
        else (evexAccess es w h e ⟨reg, .mem a⟩ a s).bit s j := by
  unfold evexSrc2
  cases hbc : e.bc with
  | true =>
    refine (memRead_broadcast_eq_value_iff hes h8 hdvd).trans (and_congr_right fun _ => forall₂_congr fun j _ => ?_)
    rw [Access.bit, Nat.mod_mod_of_dvd j h8, if_pos rfl]
  | false => exact memRead_eq_value_iff (h8.trans hdvd)

theorem evexSrc2_mem_eq_refused {es w : Nat} {h : Head} {e : Evex} {reg : BitVec 3} {a : Addr} {s : State}
    {r : Refusal} : evexSrc2 es w h e ⟨reg, .mem a⟩ s = .refused r ↔
      (s.mode ≠ .m64 ∧ r = .modeNot64) ∨
      (s.mode = .m64 ∧ operandFaults s (evexAccess es w h e ⟨reg, .mem a⟩ a s) = [] ∧
        touchesDevice s (evexAccess es w h e ⟨reg, .mem a⟩ a s) = true ∧ r = .deviceOperand) := by
  unfold evexSrc2
  cases e.bc with
  | true => exact map_eq_refused.trans memRead_eq_refused
  | false => exact memRead_eq_refused

theorem access_of_reg {i : Instr} {rm : BitVec 3} (hrm : (operands i).rm = .reg rm) (s : State) : access i s = none := by
  rw [access, hrm]

theorem access_of_mem {i : Instr} {a : Addr} (hrm : (operands i).rm = .mem a) (s : State) :
    access i s = some (accessOf a s i) := by
  rw [access, hrm]

/-- A register is the second source as it is. -/
theorem srcOf_reg_eq_value {i : Instr} {rm : BitVec 3} (hrm : (operands i).rm = .reg rm) {s : State}
    {v : BitVec (width i)} : srcOf i s = .value v ↔ ∀ j < width i, v.getLsbD j = srcBit i s j := by
  cases i with
  | pandnMm h o =>
    obtain ⟨reg, _⟩ := o
    cases hrm
    exact value_eq_iff
  | pandnXmm h o | vpandn128 h v o | vpandn256 h v o | vpandnd128 h v o | vpandnd256 h v o | vpandnd512 h v o
  | vpandnq128 h v o | vpandnq256 h v o | vpandnq512 h v o =>
    obtain ⟨reg, _⟩ := o
    cases hrm
    exact vec_value_iff

/-- A memory operand is the second source when it is readable: the bytes that the oracle answers, or the broadcast element. -/
theorem srcOf_mem_eq_value {i : Instr} {a : Addr} (hrm : (operands i).rm = .mem a) {s : State} {v : BitVec (width i)} :
    srcOf i s = .value v ↔ Readable s (accessOf a s i) ∧ ∀ j < width i, v.getLsbD j = srcBit i s j := by
  cases i with
  | pandnMm h o | pandnXmm h o | vpandn128 h v o | vpandn256 h v o =>
    obtain ⟨reg, _⟩ := o
    cases hrm
    exact memRead_eq_value_iff (by decide)
  | vpandnd128 h e o | vpandnd256 h e o | vpandnd512 h e o | vpandnq128 h e o | vpandnq256 h e o | vpandnq512 h e o =>
    obtain ⟨reg, _⟩ := o
    cases hrm
    exact evexSrc2_mem_eq_value (by decide) (by decide) (by decide)

/-- What the second source is when an instruction gets it: each bit what `srcBit` says, and a memory operand readable. -/
theorem srcOf_eq_value {i : Instr} {s : State} {v : BitVec (width i)} : srcOf i s = .value v ↔
    (∀ q, access i s = some q → Readable s q) ∧ ∀ j < width i, v.getLsbD j = srcBit i s j := by
  cases hrm : (operands i).rm with
  | reg rm => simp [srcOf_reg_eq_value hrm, access_of_reg hrm]
  | mem a => simp [srcOf_mem_eq_value hrm, access_of_mem hrm]

/-- The second source is refused with its memory operand: outside 64-bit mode, and in a device region when nothing is raised. -/
theorem srcOf_eq_refused {i : Instr} {s : State} {r : Refusal} : srcOf i s = .refused r ↔
    ∃ q, access i s = some q ∧ ((s.mode ≠ .m64 ∧ r = .modeNot64) ∨
      (s.mode = .m64 ∧ operandFaults s q = [] ∧ touchesDevice s q = true ∧ r = .deviceOperand)) := by
  cases hrm : (operands i).rm with
  | reg rm =>
    have hvalue : ∃ v, srcOf i s = .value v :=
      ⟨BitVec.ofFnLE fun j => srcBit i s j, (srcOf_reg_eq_value hrm).2 fun j hj => by
        rw [BitVec.getLsbD_ofFnLE, dif_pos hj]⟩
    obtain ⟨v, hv⟩ := hvalue
    simp [hv, access_of_reg hrm]
  | mem a =>
    simp only [access_of_mem hrm, Option.some.injEq, exists_eq_left']
    cases i with
    | pandnMm h o | pandnXmm h o | vpandn128 h v o | vpandn256 h v o =>
      obtain ⟨reg, _⟩ := o
      cases hrm
      exact memRead_eq_refused
    | vpandnd128 h e o | vpandnd256 h e o | vpandnd512 h e o | vpandnq128 h e o | vpandnq256 h e o | vpandnq512 h e o =>
      obtain ⟨reg, _⟩ := o
      cases hrm
      exact evexSrc2_mem_eq_refused

/-- An instruction whose operand can be read has a second source. -/
theorem exists_srcOf_eq_value {i : Instr} {s : State} (h : ∀ q, access i s = some q → Readable s q) :
    ∃ v, srcOf i s = .value v ∧ ∀ j < width i, v.getLsbD j = srcBit i s j := by
  have hbits (j : Nat) (hj : j < width i) :
      (BitVec.ofFnLE fun j : Fin (width i) => srcBit i s j).getLsbD j = srcBit i s j := by
    rw [BitVec.getLsbD_ofFnLE, dif_pos hj]
  exact ⟨_, srcOf_eq_value.2 ⟨h, hbits⟩, hbits⟩

/-! ## The checks of the operand -/

/-- The XMM form has the 16-byte rule and the MMX form the alignment check, no other form has either (20_memory.md R61). -/
theorem accessOf_checks (a : Addr) (s : State) (i : Instr) :
    (accessOf a s i).align16 = (cls i == .sse) ∧ (accessOf a s i).checkAC = (cls i == .mmx) := by
  have hevex (es w : Nat) (h : Head) (e : Evex) (o : ModRm) :
      (evexAccess es w h e o a s).align16 = false ∧ (evexAccess es w h e o a s).checkAC = false := by
    unfold evexAccess
    split <;> exact ⟨rfl, rfl⟩
  cases i with
  | pandnMm | pandnXmm | vpandn128 | vpandn256 => exact ⟨rfl, rfl⟩
  | vpandnd128 h e o | vpandnd256 h e o | vpandnd512 h e o | vpandnq128 h e o | vpandnq256 h e o | vpandnq512 h e o =>
    exact hevex _ _ h e o

theorem access_checks {i : Instr} {s : State} {q : Access} (hq : access i s = some q) :
    q.align16 = (cls i == .sse) ∧ q.checkAC = (cls i == .mmx) := by
  cases hrm : (operands i).rm with
  | reg rm => rw [access_of_reg hrm] at hq; cases hq
  | mem a =>
    rw [access_of_mem hrm] at hq
    cases hq
    exact accessOf_checks a s i

theorem addrFault_eq_none {s : State} {q : Access} :
    addrFault s q = none ↔ ∀ j ∈ q.needed, canonical s.cfg.vaBits (q.byteAddr j) = true := by
  unfold addrFault
  split
  next h => simpa using h
  next h => simpa using h

theorem alignFault_eq_none {q : Access} : alignFault q = none ↔ (q.align16 = true → q.la.toNat % 16 = 0) := by
  unfold alignFault
  split
  next h => simpa using h
  next h => simpa using h

theorem acFault_eq_none {s : State} {q : Access} :
    acFault s q = none ↔ (q.checkAC = true → s.alignCheck = true → q.la.toNat % 8 = 0) := by
  unfold acFault
  split
  next h => simpa [and_assoc] using h
  next h => simpa using h

theorem operandFaults_eq_nil {s : State} {q : Access} : operandFaults s q = [] ↔
    addrFault s q = none ∧ alignFault q = none ∧ pageFault s q = none ∧ acFault s q = none := by
  simp [operandFaults]

/-- Item 4 of the no-fault premise says that the operand raises nothing (60_exceptions.md R212). -/
theorem operandOk_iff {i : Instr} {s : State} {q : Access} (hq : access i s = some q) :
    operandOk (cls i) q s = true ↔ operandFaults s q = [] := by
  obtain ⟨halign, hac⟩ := access_checks hq
  rw [operandFaults_eq_nil, addrFault_eq_none, alignFault_eq_none, pageFault_eq_none, acFault_eq_none, halign, hac]
  simp only [operandOk, Bool.and_eq_true, and_assoc]
  refine and_congr (by simp) (and_congr ?_ (and_congr (by simp) ?_))
  · cases cls i <;> simp
  · cases cls i <;> simp [State.alignCheck, imp_iff_not_or, or_assoc]

/-- The no-fault premise: nothing is raised before the operand, and nothing by it (60_exceptions.md R212). -/
theorem noExc_iff {i : Instr} {s : State} : noExc i s = true ↔
    preOf i s = none ∧ ∀ q, access i s = some q → operandFaults s q = [] := by
  have hpre : (noUd i s && !s.cr0TS && !(cls i == .mmx && s.fswES)) = true ↔ preOf i s = none := by
    rw [preOf_eq]
    cases noUd i s <;> cases s.cr0TS <;> cases (cls i == .mmx && s.fswES) <;> simp
  rw [noExc, Bool.and_eq_true, hpre]
  refine and_congr_right fun _ => ?_
  cases hq : access i s with
  | none => simp
  | some q => simp [operandOk_iff hq]

/-- The model runs an instruction when nothing is raised before the operand and the operand is readable. -/
theorem runs_iff {i : Instr} {s : State} : runs i s = true ↔
    preOf i s = none ∧ ∀ q, access i s = some q → Readable s q := by
  rw [runs, Bool.and_eq_true, noExc_iff, and_assoc]
  refine and_congr_right fun _ => ?_
  cases hq : access i s with
  | none => simp
  | some q =>
    simp only [Option.some.injEq, forall_eq', Readable, Bool.and_eq_true, beq_iff_eq, Bool.not_eq_true']
    exact and_left_comm

/-- An instruction whose premise holds completes, with the second source that the claims describe. -/
theorem exec_of_runs {i : Instr} {s : State} (h : runs i s = true) :
    ∃ b : BitVec (width i), (∀ j < width i, b.getLsbD j = srcBit i s j) ∧ exec i s = .next (effectOf i s b) := by
  obtain ⟨hpre, hq⟩ := runs_iff.1 h
  obtain ⟨b, hb, hbits⟩ := exists_srcOf_eq_value hq
  exact ⟨b, hbits, exec_eq_next.2 ⟨hpre, b, hb, rfl⟩⟩

/-! ## The update, bit by bit -/

@[simp] theorem effectOf_rip (i : Instr) (s : State) (b : BitVec (width i)) :
    (effectOf i s b).rip = s.rip + BitVec.ofNat 64 i.len := by
  cases i <;> rfl

/-- Element `j / elemSize i` of the destination is computed: always, but where a writemask leaves it out (R156). -/
def selects (i : Instr) (s : State) (j : Nat) : Bool :=
  match evex? i with
  | none => true
  | some e => maskBit s e (j / elemSize i)

/-- Elements that the writemask leaves out become 0 (R156). -/
def zeroes (i : Instr) : Bool :=
  match evex? i with
  | none => false
  | some e => e.z

/-- Bit `j` of the first source, the complemented one: the MMX register, or the vector register `src1`. -/
def src1Bit (i : Instr) (s : State) (j : Nat) : Bool :=
  match i with
  | .pandnMm _ o => (s.readMm o.reg).getLsbD j
  | .pandnXmm _ _ => (s.readZmm (src1 i)).getLsbD j
  | .vpandn128 _ _ _ => (s.readZmm (src1 i)).getLsbD j
  | .vpandn256 _ _ _ => (s.readZmm (src1 i)).getLsbD j
  | .vpandnd128 _ _ _ => (s.readZmm (src1 i)).getLsbD j
  | .vpandnd256 _ _ _ => (s.readZmm (src1 i)).getLsbD j
  | .vpandnd512 _ _ _ => (s.readZmm (src1 i)).getLsbD j
  | .vpandnq128 _ _ _ => (s.readZmm (src1 i)).getLsbD j
  | .vpandnq256 _ _ _ => (s.readZmm (src1 i)).getLsbD j
  | .vpandnq512 _ _ _ => (s.readZmm (src1 i)).getLsbD j

theorem src1Bit_of_ne_mmx {i : Instr} (hc : cls i ≠ .mmx) (s : State) (j : Nat) :
    src1Bit i s j = (s.readZmm (src1 i)).getLsbD j := by
  cases i with
  | pandnMm => exact absurd rfl hc
  | _ => rfl

theorem resultBit_of_ne_mmx {i : Instr} (hc : cls i ≠ .mmx) (s : State) (j : Nat) :
    resultBit i s j = (s.readZmm (dst i)).getLsbD j := by
  cases i with
  | pandnMm => exact absurd rfl hc
  | _ => rfl

theorem getLsbD_vec_of_lt (s : State) {w j : Nat} (n : BitVec 5) (hj : j < w) :
    (s.vec w n).getLsbD j = (s.readZmm n).getLsbD j := by
  rw [getLsbD_vec, decide_eq_true hj, Bool.true_and]

theorem sseEffect_bit (h : Head) (o : ModRm) (s : State) (b : BitVec 128) {j : Nat} (hj : j < 128) :
    ((sseEffect h o s b).readZmm (sseDst h o)).getLsbD j =
      (!(s.readZmm (sseDst h o)).getLsbD j && b.getLsbD j) := by
  rw [sseEffect, readZmm_advance, getLsbD_writeXmmKeeping_same, if_pos hj, getLsbD_andn, getLsbD_vec_of_lt s _ hj]

theorem vexEffect_bit {w : Nat} (hw : w ≤ 512) (h : Head) (v : Vex) (o : ModRm) (s : State) (b : BitVec w) {j : Nat}
    (hj : j < w) : ((vexEffect w h v o s b).readZmm (vexDst v o)).getLsbD j =
      (!(s.readZmm (vexSrc1 v)).getLsbD j && b.getLsbD j) := by
  rw [vexEffect, readZmm_advance, getLsbD_writeVecZeroing_same, getLsbD_andn, getLsbD_vec_of_lt s _ hj,
    decide_eq_true (by omega), Bool.true_and]

theorem evexEffect_bit {es w : Nat} (hes : 0 < es) (hdvd : es ∣ w) (hw : w ≤ 512) (h : Head) (e : Evex) (o : ModRm)
    (s : State) (b : BitVec w) {j : Nat} (hj : j < w) :
    ((evexEffect es w h e o s b).readZmm (evexDst e o)).getLsbD j =
      if maskBit s e (j / es) then !(s.readZmm e.v).getLsbD j && b.getLsbD j
      else if e.z then false else (s.readZmm (evexDst e o)).getLsbD j := by
  rw [evexEffect, readZmm_advance, getLsbD_writeVecZeroing_same, getLsbD_maskedAndn es w _ _ _ _ _ hes hdvd j hj,
    getLsbD_vec_of_lt s _ hj, getLsbD_vec_of_lt s _ hj, decide_eq_true (by omega), Bool.true_and]

/-- Every bit that an instruction computes, for all forms at once: the AND NOT of the sources where the mask selects it, else
0 or the old bit. -/
theorem resultBit_effectOf (i : Instr) (s : State) (b : BitVec (width i)) {j : Nat} (hj : j < width i) :
    resultBit i (effectOf i s b) j = if selects i s j then !src1Bit i s j && b.getLsbD j
      else if zeroes i then false else resultBit i s j := by
  cases i with
  | pandnMm h o =>
    refine (congrArg (BitVec.getLsbD · j) (readMm_writeMm_same s o.reg _)).trans ?_
    exact getLsbD_andn _ _ j
  | pandnXmm h o => exact sseEffect_bit h o s b hj
  | vpandn128 h v o | vpandn256 h v o => exact vexEffect_bit (width_le_512 _) h v o s b hj
  | vpandnd128 h e o | vpandnd256 h e o | vpandnd512 h e o | vpandnq128 h e o | vpandnq256 h e o | vpandnq512 h e o =>
    exact evexEffect_bit (elemSize_pos _) (elemSize_dvd_width _) (width_le_512 _) h e o s b hj

/-! ## The frame -/

/-- A vector form writes its destination register and `rip` alone (10_state.md R43). -/
theorem effectOf_vector {i : Instr} (hc : cls i ≠ .mmx) (s : State) (b : BitVec (width i)) :
    effectOf i s b = (s.writeZmm (dst i) ((effectOf i s b).readZmm (dst i))).advance i.len := by
  have hwrite (n : BitVec 5) (v : Zmm) (len : Nat) : (s.writeZmm n v).advance len =
      (s.writeZmm n (((s.writeZmm n v).advance len).readZmm n)).advance len := by
    rw [readZmm_advance, readZmm_writeZmm_same]
  cases i with
  | pandnMm => exact absurd rfl hc
  | _ => exact hwrite _ _ _

theorem exec_vector_eq_next {i : Instr} {s t : State} (hc : cls i ≠ .mmx) (h : exec i s = .next t) :
    t = (s.writeZmm (dst i) (t.readZmm (dst i))).advance i.len := by
  obtain ⟨-, b, -, rfl⟩ := exec_eq_next.1 h
  exact effectOf_vector hc s b

theorem exec_keeps_readZmm {i : Instr} {s t : State} (hc : cls i ≠ .mmx) (h : exec i s = .next t) {n : BitVec 5}
    (hn : n ≠ dst i) : t.readZmm n = s.readZmm n := by
  rw [exec_vector_eq_next hc h, readZmm_advance, readZmm_writeZmm_other s _ hn]

/-- The MMX form writes its register, the x87 state that it aliases, and `rip` alone (10_state.md R25, R43). -/
theorem exec_pandnMm_eq_next {h : Head} {o : ModRm} {s t : State} (hx : exec (.pandnMm h o) s = .next t) :
    t = ((s.writeMm o.reg (t.readMm o.reg)).mmxAlias o.reg).advance (legLen h o) := by
  obtain ⟨-, b, -, rfl⟩ := exec_eq_next.1 hx
  have hread : (effectOf (.pandnMm h o) s b).readMm o.reg = andn (s.readMm o.reg) b := readMm_writeMm_same s o.reg _
  rw [hread]
  rfl

theorem exec_pandnMm_keeps_readMm {h : Head} {o : ModRm} {s t : State} (hx : exec (.pandnMm h o) s = .next t)
    {n : BitVec 3} (hn : n ≠ o.reg) : t.readMm n = s.readMm n := by
  rw [exec_pandnMm_eq_next hx, readMm_advance, readMm_mmxAlias, readMm_writeMm_other s _ hn]

/-- An instruction of the MMX class is PANDN mm. -/
theorem eq_pandnMm_of_cls {i : Instr} (hc : cls i = .mmx) : i = .pandnMm (head i) (operands i) := by
  cases i with
  | pandnMm => rfl
  | _ => cases hc

end Sys2Proof.Machine
end

section
/-! PROOF. The results of the forms (40_pandn_legacy.md, 41_vpandn_vex.md, 42_vpandnd_vpandnq_evex.md), their frames (10_state.md
R43), and the laws that follow on the machine (43_family_laws_and_absent_classes.md R171, R175). -/

namespace Sys2Proof.Machine

open Sys2Proof
open Sys2Proof.Safety

/-! ## Results -/

/-- Every bit that an instruction has computed when it completes. -/
theorem exec_next_bit {i : Instr} {s t : State} (h : exec i s = .next t) {j : Nat} (hj : j < width i) :
    resultBit i t j = if selects i s j then !src1Bit i s j && srcBit i s j
      else if zeroes i then false else resultBit i s j := by
  obtain ⟨-, b, hb, rfl⟩ := exec_eq_next.1 h
  rw [resultBit_effectOf i s b hj, (srcOf_eq_value.1 hb).2 j hj]

theorem exec_next_rip {i : Instr} {s t : State} (h : exec i s = .next t) :
    t.rip = s.rip + BitVec.ofNat 64 i.len := by
  obtain ⟨-, b, -, rfl⟩ := exec_eq_next.1 h
  exact effectOf_rip i s b

/-- An instruction whose premise holds completes. -/
theorem exists_next_of_runs {i : Instr} {s : State} (h : runs i s = true) : ∃ t, exec i s = .next t := by
  obtain ⟨b, -, hx⟩ := exec_of_runs h
  exact ⟨_, hx⟩

theorem maskBit_eq_true_iff {s : State} {e : Evex} {j : Nat} :
    maskBit s e j = true ↔ e.aaa = 0#3 ∨ (s.readK e.aaa).getLsbD j = true := by
  simp [maskBit]

/-- Every bit that an EVEX form has computed, in the words of the claims (42_vpandnd_vpandnq_evex.md R156). -/
theorem exec_evex_next_bit {i : Instr} {e : Evex} {s t : State} (he : evex? i = some e) (h : exec i s = .next t)
    {j : Nat} (hj : j < width i) : (t.readZmm (dst i)).getLsbD j =
      if e.aaa = 0#3 ∨ (s.readK e.aaa).getLsbD (j / elemSize i) = true then
        (!(s.readZmm (src1 i)).getLsbD j && src2Bit i s j)
      else if e.z = true then false
      else (s.readZmm (dst i)).getLsbD j := by
  have hc : cls i ≠ .mmx := by
    rintro hc
    rw [eq_pandnMm_of_cls hc] at he
    cases he
  have hbit := exec_next_bit h hj
  simp only [selects, zeroes, he, maskBit_eq_true_iff] at hbit
  rw [resultBit_of_ne_mmx hc, resultBit_of_ne_mmx hc, src1Bit_of_ne_mmx hc, srcBit_of_ne_mmx hc] at hbit
  exact hbit

/-! ## x87 state -/

/-- What the MMX form leaves of the status word: TOP is cleared, the other bits are kept (10_state.md R25). -/
theorem getLsbD_fsw_mmxAlias (s : State) (n : BitVec 3) (j : Nat) :
    (s.mmxAlias n).x87.fsw.getLsbD j = (s.x87.fsw.getLsbD j && !decide (11 ≤ j ∧ j ≤ 13)) := by
  have hmask : ∀ j : Fin 16, (0xC7FF#16).getLsbD j = !decide (11 ≤ j.val ∧ j.val ≤ 13) := by decide
  have hand : (s.mmxAlias n).x87.fsw.getLsbD j = (s.x87.fsw.getLsbD j && (0xC7FF#16).getLsbD j) := BitVec.getLsbD_and
  rw [hand]
  by_cases hj : j < 16
  · rw [hmask ⟨j, hj⟩]
  · rw [BitVec.getLsbD_of_ge s.x87.fsw j (by omega), Bool.false_and, Bool.false_and]

theorem hi_mmxAlias (s : State) (n : BitVec 3) (m : Fin 8) :
    (s.mmxAlias n).x87.hi[m] = if m.val = n.toNat then 0xFFFF#16 else s.x87.hi[m] := by
  have hset : (s.mmxAlias n).x87.hi = s.x87.hi.set n.toNat 0xFFFF#16 := rfl
  rw [hset]
  simp [Vector.getElem_set, eq_comm]

/-- The x87 state after PANDN mm is the marked one of R25. -/
theorem exec_pandnMm_x87 {h : Head} {o : ModRm} {s t : State} (hx : exec (.pandnMm h o) s = .next t) :
    t.x87 = (s.mmxAlias o.reg).x87 := by
  rw [exec_pandnMm_eq_next hx]
  rfl

theorem exec_vector_x87 {i : Instr} {s t : State} (hc : cls i ≠ .mmx) (h : exec i s = .next t) : t.x87 = s.x87 := by
  rw [exec_vector_eq_next hc h]
  rfl

/-- No form changes bits 7:0 of the x87 status word, the exception flags among them (10_state.md R33). -/
theorem exec_keeps_fsw_low {i : Instr} {s t : State} (h : exec i s = .next t) {j : Nat} (hj : j < 8) :
    t.x87.fsw.getLsbD j = s.x87.fsw.getLsbD j := by
  by_cases hc : cls i = .mmx
  · rw [eq_pandnMm_of_cls hc] at h
    rw [exec_pandnMm_x87 h, getLsbD_fsw_mmxAlias, decide_eq_false (by omega), Bool.not_false, Bool.and_true]
  · rw [exec_vector_x87 hc h]

theorem exec_keeps_mxcsr {i : Instr} {s t : State} (h : exec i s = .next t) : t.mxcsr = s.mxcsr := by
  rw [exec_eq_next_frame h]

theorem exec_keeps_mem {i : Instr} {s t : State} (h : exec i s = .next t) : t.mem = s.mem := by
  rw [exec_eq_next_frame h]

end Sys2Proof.Machine

namespace Sys2Proof.Proofs

open Sys2Proof
open Sys2Proof.Machine
open Sys2Proof.Safety

/-- Settles O1: no mask leaves a bit of the MMX form out. -/
theorem pandnMmCompletes : Obligations.PandnMmCompletes := by
  intro h o s hr
  obtain ⟨t, hx⟩ := exists_next_of_runs hr
  exact ⟨t, hx, fun j hj => exec_next_bit (i := .pandnMm h o) hx hj, exec_next_rip hx⟩

/-- Settles O2: the first source is the destination, and the write keeps what lies above. -/
theorem pandnXmmCompletes : Obligations.PandnXmmCompletes := by
  intro h o s hr
  obtain ⟨t, hx⟩ := exists_next_of_runs hr
  exact ⟨t, hx, fun j hj => exec_next_bit (i := .pandnXmm h o) hx hj, fun j hj => execPandnXmm_upper_kept hx hj,
    exec_next_rip hx⟩

/-- Settles O3: no mask leaves a bit of a VEX form out, and the write zeroes what lies above. -/
theorem vpandnCompletes : Obligations.VpandnCompletes := by
  intro h v o s i hi hr
  obtain ⟨t, hx⟩ := exists_next_of_runs hr
  simp only [List.mem_cons, List.not_mem_nil, or_false] at hi
  obtain rfl | rfl := hi <;>
  exact ⟨t, hx, fun j hj => exec_next_bit hx hj, fun j hj => exec_vex_upper_zero rfl hx hj, exec_next_rip hx⟩

/-- Settles O4: each of the six forms is the masked operation at its element size and width. -/
theorem evexFormsComplete : Obligations.EvexFormsComplete := by
  intro h e o s i hi hr
  obtain ⟨t, hx⟩ := exists_next_of_runs hr
  simp only [List.mem_cons, List.not_mem_nil, or_false] at hi
  obtain rfl | rfl | rfl | rfl | rfl | rfl := hi <;>
  exact ⟨t, hx, fun j hj => exec_evex_next_bit rfl hx hj, fun j hj => exec_evex_upper_zero rfl hx hj, exec_next_rip hx⟩

/-- Settles O5: the x87 state after PANDN mm is the marked one. -/
theorem pandnMmMarksX87 : Obligations.PandnMmMarksX87 := by
  intro h o s hr
  obtain ⟨t, hx⟩ := exists_next_of_runs hr
  refine ⟨t, hx, ?_⟩
  rw [exec_pandnMm_x87 hx]
  exact ⟨rfl, getLsbD_fsw_mmxAlias s o.reg, hi_mmxAlias s o.reg, rfl, rfl⟩

/-- Settles O6: the MMX form's update leaves every other field as it is. -/
theorem pandnMmFrame : Obligations.PandnMmFrame := by
  intro h o s t hx
  refine ⟨fun n hn => exec_pandnMm_keeps_readMm hx hn, ?_⟩
  rw [exec_pandnMm_eq_next hx]
  exact ⟨rfl, rfl, rfl, rfl, rfl, rfl, rfl, rfl, rfl, fun _ => rfl⟩

/-- Settles O7: a vector form's update is one register write and the move of `rip`. -/
theorem vectorFormsFrame : Obligations.VectorFormsFrame := by
  intro i s t hc hx
  refine ⟨?_, fun n hn => exec_keeps_readZmm hc hx hn⟩
  rw [exec_vector_eq_next hc hx]
  exact ⟨rfl, rfl, rfl, rfl, rfl, rfl, rfl, rfl, rfl, rfl, fun _ => rfl⟩

/-- Settles O8: every update ends with the move of `rip`. -/
theorem ripAdvancesByLength : Obligations.RipAdvancesByLength :=
  fun _ _ _ => exec_next_rip

/-- Settles O9: memory is no part of what a form writes. -/
theorem noFormStores : Obligations.NoFormStores := by
  intro i s t hx a
  rw [exec_keeps_mem hx]

/-- Other MXCSR bits change an outcome by MXCSR alone (10_state.md R33). -/
theorem exec_withMxcsr (i : Instr) (s : State) (m : BitVec 32) :
    exec i { s with mxcsr := m } = mapNext (fun t => { t with mxcsr := m }) (exec i s) := by
  let u : FlagsMasks := ⟨s.rflags, m, s.k, s.cfg.kw⟩
  calc exec i { s with mxcsr := m }
      = mapNext (·.withFlagsMasks u) (exec i s) := exec_withFlagsMasks (u := u) rfl rfl fun _ _ _ => rfl
    _ = mapNext (fun t => { t with mxcsr := m }) (exec i s) := mapNext_congr fun t ht => by
        rw [exec_eq_next_frame ht]
        rfl

/-- Settles O12: MXCSR is neither in what a form writes nor in what it reads, and the x87 marking keeps bits 7:0. -/
theorem mxcsrNeitherWrittenNorRead : Obligations.MxcsrNeitherWrittenNorRead :=
  ⟨fun _ _ _ hx => ⟨exec_keeps_mxcsr hx, fun _ hj => exec_keeps_fsw_low hx hj⟩, exec_withMxcsr⟩

end Sys2Proof.Proofs
end

section
/-! PROOF. The laws of the one function (43_family_laws_and_absent_classes.md R170, R171), what the intrinsics return (R180), and
what the laws say of the machine: PANDN twice, the element size without a mask, and the source's loop (R157, R159, R175). -/

namespace Sys2Proof.Machine

open Sys2Proof
open Sys2Proof.Safety

/-! ## The one function -/

theorem andn_extractLsb' {w : Nat} (a b : BitVec w) (lo n : Nat) :
    (andn a b).extractLsb' lo n = andn (a.extractLsb' lo n) (b.extractLsb' lo n) := by
  refine BitVec.eq_of_getLsbD_eq fun j hj => ?_
  simp only [BitVec.getLsbD_extractLsb', getLsbD_andn, decide_eq_true hj, Bool.true_and]

/-- A mask of ones computes every element. -/
theorem maskedAndn_of_all_ones {es w : Nat} {mask : Nat → Bool} (hes : 0 < es) (hdvd : es ∣ w)
    (hmask : ∀ j < w / es, mask j = true) (z : Bool) (old a b : BitVec w) : maskedAndn es w mask z old a b = andn a b := by
  refine BitVec.eq_of_getLsbD_eq fun j hj => ?_
  rw [getLsbD_maskedAndn es w mask z old a b hes hdvd j hj, hmask _ (Nat.div_lt_div_of_lt_of_dvd hdvd hj), if_pos rfl,
    getLsbD_andn]

/-- Bit `j` of a merging result (R174). -/
theorem getLsbD_maskedAndn_merging (es w : Nat) (mask : Nat → Bool) (old a b : BitVec w) (hes : 0 < es) (hdvd : es ∣ w)
    (j : Nat) (hj : j < w) : (maskedAndn es w mask false old a b).getLsbD j =
      if mask (j / es) then (~~~a &&& b).getLsbD j else old.getLsbD j := by
  rw [getLsbD_maskedAndn es w mask false old a b hes hdvd j hj, ← getLsbD_andn]
  rfl

/-- Bit `j` of a zeroing result (R174). -/
theorem getLsbD_maskedAndn_zeroing (es w : Nat) (mask : Nat → Bool) (old a b : BitVec w) (hes : 0 < es) (hdvd : es ∣ w)
    (j : Nat) (hj : j < w) : (maskedAndn es w mask true old a b).getLsbD j =
      (mask (j / es) && (~~~a &&& b).getLsbD j) := by
  rw [getLsbD_maskedAndn es w mask true old a b hes hdvd j hj, ← getLsbD_andn]
  cases mask (j / es) <;> rfl

/-! ## PANDN twice -/

/-- Every bit that PANDN xmm with a register operand has computed. -/
theorem exec_pandnXmm_reg_bit {h : Head} {reg rm : BitVec 3} {s t : State}
    (hx : exec (.pandnXmm h ⟨reg, .reg rm⟩) s = .next t) {j : Nat} (hj : j < 128) :
    (t.readZmm (num5 false (rexR h) reg)).getLsbD j =
      (!(s.readZmm (num5 false (rexR h) reg)).getLsbD j && (s.readZmm (num5 false (rexB h) rm)).getLsbD j) :=
  exec_next_bit (i := .pandnXmm h ⟨reg, .reg rm⟩) hx hj

/-! ## The element size -/

theorem cls_ne_mmx_of_evex {i : Instr} {e : Evex} (he : evex? i = some e) : cls i ≠ .mmx := by
  cases i with
  | pandnMm | pandnXmm | vpandn128 | vpandn256 => cases he
  | vpandnd128 | vpandnd256 | vpandnd512 | vpandnq128 | vpandnq256 | vpandnq512 => exact Cls.noConfusion

theorem evex?_of_cls_vex {i : Instr} (hc : cls i = .vex) : evex? i = none := by
  cases i with
  | vpandn128 | vpandn256 => rfl
  | pandnMm | pandnXmm | vpandnd128 | vpandnd256 | vpandnd512 | vpandnq128 | vpandnq256 | vpandnq512 => cases hc

theorem src2Bit_of_reg {i : Instr} {rm : BitVec 3} (hrm : (operands i).rm = .reg rm) (s : State) (j : Nat) :
    src2Bit i s j = (s.readZmm (rmVec rm i)).getLsbD j := by
  rw [src2Bit, hrm]


theorem maskBit_of_ones {s : State} {e : Evex} (h : e.aaa = 0#3 ∨ ∀ j < 16, (s.readK e.aaa).getLsbD j = true) {j : Nat}
    (hj : j < 16) : maskBit s e j = true :=
  maskBit_eq_true_iff.2 (h.imp_right fun hones => hones j hj)

/-- Under a mask of ones every byte of a full operand must be readable, whatever the element size (20_memory.md R79). -/
theorem needFull_of_ones {s : State} {e : Evex} (hmask : ∀ j < 16, maskBit s e j = true) {es j : Nat}
    (hes : 32 ≤ es) (hj : j < 64) : needFull s e es j = true := by
  have hlt : 8 * j / es < 16 := by
    rw [Nat.div_lt_iff_lt_mul (by omega)]
    omega
  rw [needFull, hmask _ hlt, Bool.or_true]

/-- Under a mask of ones, and without broadcast, the element size does not enter the second source. -/
theorem evexSrc2_of_ones {s : State} {e : Evex} (hbc : e.bc = false) (hmask : ∀ j < 16, maskBit s e j = true) {w : Nat}
    (hw : w ≤ 512) (h : Head) (o : ModRm) : evexSrc2 32 w h e o s = evexSrc2 64 w h e o s := by
  unfold evexSrc2
  cases o.rm with
  | reg rm => rfl
  | mem a =>
    let q := evexAccess 64 w h e o a s
    have haccess : evexAccess 32 w h e o a s = { q with need := needFull s e 32 } := by
      simp [evexAccess, q, hbc]
    have hneed : ∀ j < q.bytes, needFull s e 32 j = q.need j := by
      intro j hj
      have hbytes : q.bytes = w / 8 := by simp [q, evexAccess, hbc]
      have hneed : q.need = needFull s e 64 := by simp [q, evexAccess, hbc]
      have hlt : j < 64 := by omega
      rw [hneed, needFull_of_ones hmask (by decide) hlt, needFull_of_ones hmask (by decide) hlt]
    simp only [hbc, Bool.false_eq_true, if_false, haccess]
    exact memRead_need_congr hneed s w

theorem evexAndn_of_ones {s : State} {e : Evex} (hbc : e.bc = false) (hmask : ∀ j < 16, maskBit s e j = true) {w : Nat}
    (hdvd : 64 ∣ w) (hw : w ≤ 512) (feat : Bool) (h : Head) (o : ModRm) :
    evexAndn 32 w feat h e o s = evexAndn 64 w feat h e o s := by
  have hkl {es : Nat} (hes : 32 ≤ es) : ∀ j < w / es, maskBit s e j = true := fun j hj =>
    hmask j (Nat.lt_of_lt_of_le hj ((Nat.div_le_div hw hes (by decide)).trans (by decide)))
  unfold evexAndn
  rw [evexSrc2_of_ones hbc hmask hw]
  simp only [maskedAndn_of_all_ones (by decide) ((by decide : 32 ∣ 64).trans hdvd) (hkl (le_refl 32)),
    maskedAndn_of_all_ones (by decide) hdvd (hkl (by decide : 32 ≤ 64))]

/-- A VEX and an EVEX form with the same registers leave the same destination when the mask selects every element. -/
theorem readZmm_vex_eq_evex {i i' : Instr} {e : Evex} {s t t' : State} {rm rm' : BitVec 3} (hi : cls i = .vex)
    (he : evex? i' = some e) (hw : width i' = width i) (hd : dst i = dst i') (hs1 : src1 i = src1 i')
    (hrm : (operands i').rm = .reg rm) (hrm' : (operands i).rm = .reg rm') (hr : rmVec rm' i = rmVec rm i')
    (hmask : ∀ j < width i, selects i' s j = true)
    (hx : exec i s = .next t) (hx' : exec i' s = .next t') : t'.readZmm (dst i') = t.readZmm (dst i') := by
  have hc : cls i ≠ .mmx := by simp [hi]
  have hc' : cls i' ≠ .mmx := cls_ne_mmx_of_evex he
  have hsel : ∀ j, selects i s j = true := fun j => by simp [selects, evex?_of_cls_vex hi]
  refine BitVec.eq_of_getLsbD_eq fun j _ => ?_
  by_cases hj : j < width i
  · have hbit := exec_next_bit hx hj
    have hbit' := exec_next_bit hx' (hw ▸ hj)
    rw [hsel, if_pos rfl, resultBit_of_ne_mmx hc, src1Bit_of_ne_mmx hc, srcBit_of_ne_mmx hc, src2Bit_of_reg hrm'] at hbit
    rw [hmask j hj, if_pos rfl, resultBit_of_ne_mmx hc', src1Bit_of_ne_mmx hc', srcBit_of_ne_mmx hc',
      src2Bit_of_reg hrm] at hbit'
    rw [hbit', ← hd, hbit, hs1, hr]
  · rw [exec_evex_upper_zero he hx' (by omega), ← hd, exec_vex_upper_zero hi hx (by omega)]

/-! ## The source's loop (42_vpandnd_vpandnq_evex.md R156, R157) -/

@[simp] theorem writeZmm_readZmm (s : State) (n : BitVec 5) : s.writeZmm n (s.readZmm n) = s := by
  have hset : s.zmm.set n.toNat (s.readZmm n) = s.zmm := by simp [State.readZmm]
  rw [State.writeZmm, hset]

@[simp] theorem writeZmm_writeZmm (s : State) (n : BitVec 5) (u v : Zmm) :
    (s.writeZmm n u).writeZmm n v = s.writeZmm n v := by
  simp [State.writeZmm]

/-- Which bits are an element's (00_scope.md R10). -/
theorem div_eq_iff_mem_element {es : Nat} (hes : 0 < es) (i j : Nat) : i / es = j ↔ es * j ≤ i ∧ i < es * j + es := by
  have hdiv := Nat.div_add_mod i es
  have hmod := Nat.mod_lt i hes
  constructor
  · rintro rfl
    omega
  · rintro ⟨hlo, hhi⟩
    exact Nat.div_eq_of_lt_le (by rwa [Nat.mul_comm]) (by rw [Nat.mul_comm, Nat.mul_succ]; exact hhi)

theorem mod_eq_sub_of_div_eq {es i j : Nat} (h : i / es = j) : i % es = i - es * j := by
  rw [← h, Nat.mod_eq_sub]

/-- An element value moved to its place: its bits there, 0 elsewhere. -/
theorem getLsbD_placedElem {es : Nat} (hes : 0 < es) (j : Nat) (v : BitVec es) {i : Nat} (hi : i < 512) :
    (v.setWidth 512 <<< (es * j)).getLsbD i = (decide (i / es = j) && v.getLsbD (i % es)) := by
  rw [BitVec.getLsbD_shiftLeft, BitVec.getLsbD_setWidth, decide_eq_true hi, decide_eq_true (by omega : i - es * j < 512),
    Bool.true_and, Bool.true_and]
  by_cases hij : i / es = j
  · have hlo := ((div_eq_iff_mem_element hes i j).1 hij).1
    rw [mod_eq_sub_of_div_eq hij, decide_eq_false (by omega), decide_eq_true hij, Bool.not_false]
  · rw [decide_eq_false hij, Bool.false_and]
    by_cases hlo : es * j ≤ i
    · have hhi : es ≤ i - es * j := by
        have := mt (div_eq_iff_mem_element hes i j).2 hij
        omega
      rw [BitVec.getLsbD_of_ge v _ hhi, Bool.and_false]
    · rw [decide_eq_true (by omega), Bool.not_true, Bool.false_and]

/-- Assigning an element changes its bits and no other (R157). -/
theorem getLsbD_setElem {es : Nat} (hes : 0 < es) (s : State) (n : BitVec 5) (j : Nat) (v : BitVec es) {i : Nat}
    (hi : i < 512) : ((setElem es s n j v).readZmm n).getLsbD i =
      if i / es = j then v.getLsbD (i % es) else (s.readZmm n).getLsbD i := by
  have hones : (BitVec.allOnes es).getLsbD (i % es) = true := by
    rw [BitVec.getLsbD_allOnes, decide_eq_true (Nat.mod_lt i hes)]
  rw [setElem, readZmm_writeZmm_same, BitVec.getLsbD_or, BitVec.getLsbD_and, BitVec.getLsbD_not,
    getLsbD_placedElem hes j _ hi, getLsbD_placedElem hes j _ hi, hones, decide_eq_true hi]
  by_cases hij : i / es = j <;> simp [hij]

/-- Bit `i % es` of the element that bit `i` lies in. -/
theorem getLsbD_elem_mod {es i j : Nat} (hes : 0 < es) (h : i / es = j) {w : Nat} (v : BitVec w) :
    (elem es j v).getLsbD (i % es) = v.getLsbD i := by
  rw [getLsbD_elem, decide_eq_true (Nat.mod_lt i hes), Bool.true_and, ← h, Nat.div_add_mod]

section Loop

/-- The second source of the loop: a register as it stands, or the fixed operand. -/
def loopSrc (r : Option (BitVec 5)) (m : BitVec 512) (s : State) : Zmm :=
  match r with
  | some x => s.readZmm x
  | none => m

/-- Bit `i` that the loop gives the destination, from the registers before it. -/
def loopBit (es : Nat) (mask : Nat → Bool) (z : Bool) (d v : BitVec 5) (r : Option (BitVec 5)) (m : BitVec 512)
    (s : State) (i : Nat) : Bool :=
  if mask (i / es) then !(s.readZmm v).getLsbD i && (loopSrc r m s).getLsbD i
  else if z then false else (s.readZmm d).getLsbD i

variable {es : Nat} (hes : 0 < es) (mask : Nat → Bool) (z : Bool) (d v : BitVec 5) (r : Option (BitVec 5))
  (m : BitVec 512)

theorem iteration_frame (j : Nat) (s : State) :
    iteration es mask z d v r m j s = s.writeZmm d ((iteration es mask z d v r m j s).readZmm d) := by
  unfold iteration
  split_ifs
  · rw [setElem, readZmm_writeZmm_same]
  · rw [setElem, readZmm_writeZmm_same]
  · rw [writeZmm_readZmm]

theorem loop_frame (js : List Nat) (s : State) :
    loop es mask z d v r m js s = s.writeZmm d ((loop es mask z d v r m js s).readZmm d) := by
  induction js generalizing s with
  | nil => exact (writeZmm_readZmm s d).symm
  | cons j js ih =>
    rw [loop, ih, iteration_frame, writeZmm_writeZmm, readZmm_writeZmm_same]

include hes

/-- What an iteration leaves in the destination: its own element's bits, the others kept. -/
theorem getLsbD_iteration (j : Nat) (s : State) {i : Nat} (hi : i < 512) :
    ((iteration es mask z d v r m j s).readZmm d).getLsbD i =
      if i / es = j then loopBit es mask z d v r m s i else (s.readZmm d).getLsbD i := by
  by_cases hij : i / es = j
  · rw [if_pos hij, loopBit, hij]
    unfold iteration
    split_ifs
    · rw [getLsbD_setElem hes s d j _ hi, if_pos hij, getLsbD_andn, getLsbD_elem_mod hes hij, getLsbD_elem_mod hes hij]
      rfl
    · rw [getLsbD_setElem hes s d j _ hi, if_pos hij, BitVec.getLsbD_zero]
    · rfl
  · rw [if_neg hij]
    unfold iteration
    split_ifs
    · rw [getLsbD_setElem hes s d j _ hi, if_neg hij]
    · rw [getLsbD_setElem hes s d j _ hi, if_neg hij]
    · rfl

/-- No register has a bit outside the element changed by an iteration, the destination or not. -/
theorem iteration_keeps (j : Nat) (s : State) (n : BitVec 5) {i : Nat} (hi : i < 512) (hij : i / es ≠ j) :
    ((iteration es mask z d v r m j s).readZmm n).getLsbD i = (s.readZmm n).getLsbD i := by
  by_cases hn : n = d
  · rw [hn, getLsbD_iteration hes mask z d v r m j s hi, if_neg hij]
  · rw [iteration_frame, readZmm_writeZmm_other s _ hn]

/-- An iteration of another element does not change what bit `i` will get: the iterations are independent (R175). -/
theorem loopBit_iteration (j : Nat) (s : State) {i : Nat} (hi : i < 512) (hij : i / es ≠ j) :
    loopBit es mask z d v r m (iteration es mask z d v r m j s) i = loopBit es mask z d v r m s i := by
  have hkeeps := fun n => iteration_keeps hes mask z d v r m j s n hi hij
  have hsrc : (loopSrc r m (iteration es mask z d v r m j s)).getLsbD i = (loopSrc r m s).getLsbD i := by
    cases r with
    | none => rfl
    | some x => exact hkeeps x
  simp only [loopBit, hkeeps, hsrc]

/-- Iterations in any order give each bit of their elements its value, once. -/
theorem getLsbD_loop {js : List Nat} (hjs : js.Nodup) (s : State) {i : Nat} (hi : i < 512) :
    ((loop es mask z d v r m js s).readZmm d).getLsbD i =
      if i / es ∈ js then loopBit es mask z d v r m s i else (s.readZmm d).getLsbD i := by
  induction js generalizing s with
  | nil => rfl
  | cons j js ih =>
    obtain ⟨hnot, hjs⟩ := List.nodup_cons.1 hjs
    rw [loop, ih hjs]
    by_cases hmem : i / es ∈ js
    · have hij : i / es ≠ j := fun h => hnot (h ▸ hmem)
      rw [if_pos hmem, if_pos (List.mem_cons_of_mem j hmem), loopBit_iteration hes mask z d v r m j s hi hij]
    · rw [if_neg hmem, getLsbD_iteration hes mask z d v r m j s hi]
      simp only [List.mem_cons, hmem, or_false]

end Loop

/-- The second source of an EVEX form, as its class of instructions gets it. -/
theorem srcOf_eq_evexSrc2 {i : Instr} {e : Evex} (he : evex? i = some e) (s : State) :
    srcOf i s = evexSrc2 (elemSize i) (width i) (head i) e (operands i) s := by
  cases i with
  | pandnMm | pandnXmm | vpandn128 | vpandn256 => cases he
  | vpandnd128 | vpandnd256 | vpandnd512 | vpandnq128 | vpandnq256 | vpandnq512 =>
    cases he
    rfl

theorem src1_of_evex {i : Instr} {e : Evex} (he : evex? i = some e) : src1 i = e.v := by
  cases i with
  | pandnMm | pandnXmm | vpandn128 | vpandn256 => cases he
  | vpandnd128 | vpandnd256 | vpandnd512 | vpandnq128 | vpandnq256 | vpandnq512 =>
    cases he
    rfl

/-- The loop's second source shows the bits that the form gets, whether it is a register or not. -/
theorem getLsbD_loopSrc {i : Instr} {s : State} {b : BitVec (width i)} (hc : cls i ≠ .mmx) (hb : srcOf i s = .value b)
    {j : Nat} (hj : j < width i) : (loopSrc (src2Reg i) (b.setWidth 512) s).getLsbD j = b.getLsbD j := by
  cases hrm : (operands i).rm with
  | reg rm =>
    have hsrc : src2Reg i = some (rmVec rm i) := by rw [src2Reg, hrm]
    rw [(srcOf_reg_eq_value hrm).1 hb j hj, srcBit_of_ne_mmx hc, src2Bit_of_reg hrm, hsrc]
    rfl
  | mem a =>
    have hsrc : src2Reg i = none := by rw [src2Reg, hrm]
    have hj512 : j < 512 := Nat.lt_of_lt_of_le hj (width_le_512 i)
    rw [hsrc, loopSrc, BitVec.getLsbD_setWidth, decide_eq_true hj512, Bool.true_and]

end Sys2Proof.Machine

namespace Sys2Proof.Proofs

open Sys2Proof
open Sys2Proof.Machine
open Sys2Proof.Safety

/-- Settles O17: every law holds at each bit. -/
theorem andnLaws : Obligations.AndnLaws := by
  intro w a b
  refine ⟨fun j _ => by simp [getLsbD_andn], ?_, ?_, ?_, ?_, ?_, fun j _ => ?_, ?_, ?_, ?_, ?_,
    fun lo n _ => andn_extractLsb' a b lo n⟩
  case refine_6 =>
    rw [getLsbD_andn, getLsbD_andn]
    cases a.getLsbD j <;> cases b.getLsbD j <;> decide
  all_goals
    refine BitVec.eq_of_getLsbD_eq fun j hj => ?_
    simp only [getLsbD_andn, BitVec.getLsbD_and, BitVec.getLsbD_or, BitVec.getLsbD_not, BitVec.getLsbD_zero,
      BitVec.getLsbD_allOnes, decide_eq_true hj]
    cases a.getLsbD j <;> cases b.getLsbD j <;> rfl

/-- Settles O18: `!(!d && r) && r` is `d && r`, and the source register is not the one written. -/
theorem pandnTwiceIsAnd : Obligations.PandnTwiceIsAnd := by
  intro h reg rm s t u hne hst htu
  refine BitVec.eq_of_getLsbD_eq fun j hj => ?_
  have hkept : t.readZmm (num5 false (rexB h) rm) = s.readZmm (num5 false (rexB h) rm) :=
    exec_keeps_readZmm (i := .pandnXmm h ⟨reg, .reg rm⟩) Cls.noConfusion hst (Ne.symm hne)
  rw [BitVec.getLsbD_and, getLsbD_vec_of_lt _ _ hj, getLsbD_vec_of_lt _ _ hj, getLsbD_vec_of_lt _ _ hj,
    exec_pandnXmm_reg_bit htu hj, exec_pandnXmm_reg_bit hst hj, hkept]
  cases (s.readZmm (num5 false (rexR h) reg)).getLsbD j <;>
    cases (s.readZmm (num5 false (rexB h) rm)).getLsbD j <;> rfl

/-- Settles O19: under a mask of ones every element is computed, and the bits of a vector are the same in elements of any size. -/
theorem elementSizeIrrelevantUnmasked : Obligations.ElementSizeIrrelevantUnmasked := by
  intro h e o s hbc hones
  have hmask : ∀ j < 16, maskBit s e j = true := fun j hj => maskBit_of_ones hones hj
  refine ⟨fun p hp => ?_, fun h' v o' t t' rm rm' hrm hrm' hd hs1 hr p hp hx hx' => ?_⟩
  · simp only [List.mem_cons, List.not_mem_nil, or_false] at hp
    obtain rfl | rfl | rfl := hp <;>
    exact evexAndn_of_ones hbc hmask (by decide) (by decide) _ h o
  · simp only [List.mem_cons, List.not_mem_nil, or_false] at hp
    obtain rfl | rfl := hp
    · exact readZmm_vex_eq_evex (i := .vpandn128 h' v o') (i' := .vpandnd128 h e o) rfl rfl rfl hd hs1 hrm hrm' hr
        (fun j hj => hmask (j / 32) (by simp only [width] at hj; omega)) hx hx'
    · exact readZmm_vex_eq_evex (i := .vpandn256 h' v o') (i' := .vpandnd256 h e o) rfl rfl rfl hd hs1 hrm hrm' hr
        (fun j hj => hmask (j / 32) (by simp only [width] at hj; omega)) hx hx'

/-- Settles O20: an iteration touches its own element alone, so that in any order each element is computed from the old
registers. -/
theorem literalLoopInAnyOrder : Obligations.LiteralLoopInAnyOrder := by
  intro i e s t b js he hb hx hjs
  rw [← srcOf_eq_evexSrc2 he] at hb
  obtain ⟨-, b', hb', rfl⟩ := exec_eq_next.1 hx
  obtain rfl : b = b' := Got.value.inj (hb.symm.trans hb')
  have hc := cls_ne_mmx_of_evex he
  have hnodup : js.Nodup := hjs.nodup_iff.2 List.nodup_range
  rw [effectOf_vector hc, literalEvex, loop_frame, writeZmm_writeZmm, readZmm_writeZmm_same]
  congr 2
  refine BitVec.eq_of_getLsbD_eq fun j hj => ?_
  rw [BitVec.getLsbD_setWidth, BitVec.getLsbD_setWidth, decide_eq_true hj, Bool.true_and]
  by_cases hjw : j < width i
  · have hmem : j / elemSize i ∈ js := hjs.mem_iff.2 (List.mem_range.2 (div_elemSize_lt hjw))
    rw [decide_eq_true hjw, Bool.true_and, getLsbD_loop (elemSize_pos i) _ _ _ _ _ _ hnodup s hj, if_pos hmem, loopBit,
      getLsbD_loopSrc hc hb hjw, ← resultBit_of_ne_mmx hc, ← resultBit_of_ne_mmx hc, resultBit_effectOf i s b hjw,
      src1Bit_of_ne_mmx hc, src1_of_evex he]
    simp only [selects, zeroes, he]
  · rw [exec_evex_upper_zero he hx (by omega), decide_eq_false hjw, Bool.false_and]

/-- Settles O21: an unmasked one is `andn` itself, a masked one `maskedAndn` at its element size. -/
theorem intrinsicsMeaning : Obligations.IntrinsicsMeaning :=
  ⟨fun _ _ => rfl, fun _ _ => rfl, fun _ _ => rfl, fun _ _ => rfl, fun _ _ => rfl,
    fun s _ a b => getLsbD_maskedAndn_merging 32 512 _ s a b (by decide) (by decide),
    fun _ a b => getLsbD_maskedAndn_zeroing 32 512 _ _ a b (by decide) (by decide),
    fun s _ a b => getLsbD_maskedAndn_merging 32 256 _ s a b (by decide) (by decide),
    fun _ a b => getLsbD_maskedAndn_zeroing 32 256 _ _ a b (by decide) (by decide),
    fun s _ a b => getLsbD_maskedAndn_merging 32 128 _ s a b (by decide) (by decide),
    fun _ a b => getLsbD_maskedAndn_zeroing 32 128 _ _ a b (by decide) (by decide),
    fun s _ a b => getLsbD_maskedAndn_merging 64 512 _ s a b (by decide) (by decide),
    fun _ a b => getLsbD_maskedAndn_zeroing 64 512 _ _ a b (by decide) (by decide),
    fun s _ a b => getLsbD_maskedAndn_merging 64 256 _ s a b (by decide) (by decide),
    fun _ a b => getLsbD_maskedAndn_zeroing 64 256 _ _ a b (by decide) (by decide),
    fun s _ a b => getLsbD_maskedAndn_merging 64 128 _ s a b (by decide) (by decide),
    fun _ a b => getLsbD_maskedAndn_zeroing 64 128 _ _ a b (by decide) (by decide)⟩

end Sys2Proof.Proofs
end

section
/-! PROOF. Memory operands: the bytes read (20_memory.md R53, R55, R57), the effective and linear address (R64 to R70), the
canonical check, and the read that each form makes of its operand (R50, R61, R68, R79). -/

namespace Sys2Proof.Machine

open Sys2Proof
open Sys2Proof.Safety

/-! ## Canonical addresses (R69) -/

theorem canonical_iff_toNat {va : Nat} {a : Word} : canonical va a = true ↔
    a.toNat >>> (va - 1) = 0 ∨ a.toNat >>> (va - 1) = 2 ^ (65 - va) - 1 := by
  simp [canonical]

/-- The bits of an address from `va - 1` up are 0 exactly when the shifted address is 0. -/
theorem shiftRight_eq_zero_iff_bits {n : Nat} (a : Word) :
    a.toNat >>> n = 0 ↔ ∀ j, n ≤ j → j < 64 → a.getLsbD j = false := by
  constructor
  · intro h j hnj _
    have hbit : (a.toNat >>> n).testBit (j - n) = a.getLsbD j := by
      rw [Nat.testBit_shiftRight, Nat.add_sub_cancel' hnj]
      rfl
    rw [← hbit, h, Nat.zero_testBit]
  · intro h
    refine Nat.eq_of_testBit_eq fun k => ?_
    rw [Nat.testBit_shiftRight, Nat.zero_testBit]
    by_cases hk : n + k < 64
    · exact h (n + k) (by omega) hk
    · exact BitVec.getLsbD_of_ge a (n + k) (by omega)

/-- They are 1 exactly when the shifted address is all ones. -/
theorem shiftRight_eq_ones_iff_bits {n : Nat} (hn : n < 64) (a : Word) :
    a.toNat >>> n = 2 ^ (64 - n) - 1 ↔ ∀ j, n ≤ j → j < 64 → a.getLsbD j = true := by
  constructor
  · intro h j hnj hj
    have hbit : (a.toNat >>> n).testBit (j - n) = a.getLsbD j := by
      rw [Nat.testBit_shiftRight, Nat.add_sub_cancel' hnj]
      rfl
    rw [← hbit, h, Nat.testBit_two_pow_sub_one, decide_eq_true (by omega)]
  · intro h
    refine Nat.eq_of_testBit_eq fun k => ?_
    rw [Nat.testBit_shiftRight, Nat.testBit_two_pow_sub_one]
    by_cases hk : n + k < 64
    · rw [decide_eq_true (by omega)]
      exact h (n + k) (by omega) hk
    · rw [decide_eq_false (by omega)]
      exact BitVec.getLsbD_of_ge a (n + k) (by omega)

/-! ## The segment (R69) -/

/-- Of the prefixes of a head at most one is a segment override (30_encoding.md R84). -/
theorem eq_of_seg_mem {ps : List Pfx} (hw : onePerGroup ps = true) {o o' : SegOvr} (ho : Pfx.seg o ∈ ps)
    (ho' : Pfx.seg o' ∈ ps) : o = o' :=
  Pfx.seg.inj (List.inj_on_of_nodup_map (of_decide_eq_true hw) ho ho' rfl)

/-- The override found is the one that a head has. -/
theorem segOverride_eq_some {h : Head} (hw : h.wf = true) (o : SegOvr) :
    segOverride h = some o ↔ Pfx.seg o ∈ h.pfx := by
  have hfound (o' : SegOvr) (ho' : segOverride h = some o') : Pfx.seg o' ∈ h.pfx := by
    obtain ⟨p, hp, hpo⟩ := List.exists_of_findSome?_eq_some ho'
    cases p with
    | seg o'' =>
      cases hpo
      exact hp
    | lock | repne | rep | opSize | addrSize => cases hpo
  refine ⟨hfound o, fun ho => ?_⟩
  cases hs : segOverride h with
  | none => exact absurd (List.findSome?_eq_none_iff.1 hs _ ho) (by simp)
  | some o' => rw [eq_of_seg_mem hw (hfound o' hs) ho]

theorem segOverride_ne_fs_gs {h : Head} (hw : h.wf = true) (hfs : Pfx.seg .fs ∉ h.pfx) (hgs : Pfx.seg .gs ∉ h.pfx) :
    segOverride h ≠ some .fs ∧ segOverride h ≠ some .gs :=
  ⟨mt (segOverride_eq_some hw .fs).1 hfs, mt (segOverride_eq_some hw .gs).1 hgs⟩

theorem segBase_of_fs {h : Head} (ho : segOverride h = some .fs) (s : State) : segBase s h = s.seg.fs.base := by
  rw [segBase, ho]

theorem segBase_of_gs {h : Head} (ho : segOverride h = some .gs) (s : State) : segBase s h = s.seg.gs.base := by
  rw [segBase, ho]

theorem usesSS_of_fs_or_gs {h : Head} (ho : segOverride h = some .fs ∨ segOverride h = some .gs) (b : Bool) (a : Addr) :
    usesSS h b a = false := by
  obtain ho | ho := ho <;> rw [usesSS, ho, Bool.and_false]

/-- Any other override, or none, leaves the base 0 and the default segment. -/
theorem segment_of_other {h : Head} (hfs : segOverride h ≠ some .fs) (hgs : segOverride h ≠ some .gs) (s : State)
    (b : Bool) (a : Addr) : segBase s h = 0#64 ∧ usesSS h b a = defaultSS b a := by
  unfold segBase usesSS
  cases ho : segOverride h with
  | none => simp
  | some o =>
    cases o with
    | fs => exact absurd ho hfs
    | gs => exact absurd ho hgs
    | es | cs | ss | ds => simp

theorem num4_eq_four (b : Bool) (n : BitVec 3) : num4 b n = 4#4 ↔ b = false ∧ n = 4#3 := by
  revert b n
  decide

theorem num4_eq_five (b : Bool) (n : BitVec 3) : num4 b n = 5#4 ↔ b = false ∧ n = 5#3 := by
  revert b n
  decide

/-! ## The effective address (R65 to R70) -/

theorem addr32_iff {h : Head} : addr32 h = true ↔ Pfx.addrSize ∈ h.pfx := by
  simp [addr32]

theorem effAddr_of_not_addr32 {h : Head} (hno : Pfx.addrSize ∉ h.pfx) (s : State) (x b : Bool) (n8 : Nat) (next : Word)
    (a : Addr) : effAddr s h x b n8 next a = addrSum s x b n8 next a :=
  if_neg (mt addr32_iff.1 hno)

theorem effAddr_of_addr32 {h : Head} (hp : Pfx.addrSize ∈ h.pfx) (s : State) (x b : Bool) (n8 : Nat) (next : Word)
    (a : Addr) : effAddr s h x b n8 next a = ((addrSum s x b n8 next a).setWidth 32).setWidth 64 :=
  if_pos (addr32_iff.2 hp)

theorem indexTerm_of_four {x : Bool} {ix : BitVec 3} (hix : num4 x ix = 4#4) (s : State) (sc : BitVec 2) :
    indexTerm s x sc ix = 0#64 :=
  if_pos hix

/-- The scale multiplies by 1, 2, 4 or 8 (R67). -/
theorem indexTerm_of_ne_four {x : Bool} {ix : BitVec 3} (hix : num4 x ix ≠ 4#4) (s : State) (sc : BitVec 2) :
    indexTerm s x sc ix = s.readGpr (num4 x ix) * BitVec.ofNat 64 (2 ^ sc.toNat) := by
  have hpow : ∀ sc : BitVec 2, BitVec.twoPow 64 sc.toNat = BitVec.ofNat 64 (2 ^ sc.toNat) := by decide
  rw [indexTerm, if_neg hix, BitVec.shiftLeft_eq_mul_twoPow, hpow]

theorem setWidth_shiftLeft_32 (u : Word) (n : Nat) : (u <<< n).setWidth 32 = u.setWidth 32 <<< n := by
  refine BitVec.eq_of_getLsbD_eq fun j hj => ?_
  rw [BitVec.getLsbD_setWidth, BitVec.getLsbD_shiftLeft, BitVec.getLsbD_shiftLeft, BitVec.getLsbD_setWidth,
    decide_eq_true hj, decide_eq_true (by omega : j < 64), decide_eq_true (by omega : j - n < 32), Bool.true_and,
    Bool.true_and, Bool.true_and]

theorem setWidth_signExtend_32 (d : BitVec 32) : (d.signExtend 64).setWidth 32 = d := by
  refine BitVec.eq_of_getLsbD_eq fun j hj => ?_
  rw [BitVec.getLsbD_setWidth, BitVec.getLsbD_signExtend, decide_eq_true hj, decide_eq_true (by omega : j < 64),
    if_pos hj, Bool.true_and, Bool.true_and]

/-- The low half of the index term is the index term of the low half (R70). -/
theorem setWidth_indexTerm (s : State) (x : Bool) (sc : BitVec 2) (ix : BitVec 3) :
    (indexTerm s x sc ix).setWidth 32 =
      if num4 x ix = 4#4 then 0#32 else (s.readGpr (num4 x ix)).setWidth 32 <<< sc.toNat := by
  unfold indexTerm
  split
  · rfl
  · exact setWidth_shiftLeft_32 _ _

/-! ## The read of each form -/

/-- The number that a 1-byte displacement of a form counts in (R68): the operand's bytes in the EVEX forms, else 1. -/
def dispScale (i : Instr) (n : Nat) : Nat := if (evex? i).isSome = true then n else 1

theorem accessOf_bytes (a : Addr) (s : State) (i : Instr) :
    (accessOf a s i).bytes = if bcast i = true then elemSize i / 8 else width i / 8 := by
  have hevex (es w : Nat) (h : Head) (e : Evex) (o : ModRm) :
      (evexAccess es w h e o a s).bytes = if e.bc = true then es / 8 else w / 8 := by
    unfold evexAccess
    split <;> rfl
  cases i with
  | pandnMm | pandnXmm => simp [accessOf, mmxAccess, sseAccess, bcast, evex?, width]
  | vpandn128 | vpandn256 => rfl
  | vpandnd128 | vpandnd256 | vpandnd512 | vpandnq128 | vpandnq256 | vpandnq512 => exact hevex _ _ _ _ _

/-- Where a memory operand lies (R50, R68, R69). -/
theorem accessOf_la (a : Addr) (s : State) (i : Instr) :
    (accessOf a s i).la = segBase s (head i) + effAddr s (head i) (extX i) (extB i)
      (dispScale i (accessOf a s i).bytes) (s.rip + BitVec.ofNat 64 i.len) a := by
  have hevex (es w : Nat) (h : Head) (e : Evex) (o : ModRm) : (evexAccess es w h e o a s).la =
      linAddr s h e.x e.b (evexAccess es w h e o a s).bytes (s.rip + BitVec.ofNat 64 (evexLen h o)) a := by
    unfold evexAccess
    split <;> rfl
  cases i with
  | pandnMm | pandnXmm | vpandn128 | vpandn256 => rfl
  | vpandnd128 | vpandnd256 | vpandnd512 | vpandnq128 | vpandnq256 | vpandnq512 => exact hevex _ _ _ _ _

theorem accessOf_ss (a : Addr) (s : State) (i : Instr) : (accessOf a s i).ss = usesSS (head i) (extB i) a := by
  have hevex (es w : Nat) (h : Head) (e : Evex) (o : ModRm) :
      (evexAccess es w h e o a s).ss = usesSS h e.b a := by
    unfold evexAccess
    split <;> rfl
  cases i with
  | pandnMm | pandnXmm | vpandn128 | vpandn256 => rfl
  | vpandnd128 | vpandnd256 | vpandnd512 | vpandnq128 | vpandnq256 | vpandnq512 => exact hevex _ _ _ _ _

/-- The mask asks for byte `j` of an EVEX operand: its element's mask bit is 1, or some mask bit of a broadcast element (R79). -/
def maskNeeds (i : Instr) (e : Evex) (s : State) (j : Nat) : Prop :=
  if e.bc = true then ∃ j' < width i / elemSize i, (s.readK e.aaa).getLsbD j' = true
  else (s.readK e.aaa).getLsbD (8 * j / elemSize i) = true

theorem accessOf_need_of_not_evex {i : Instr} (he : evex? i = none) (a : Addr) (s : State) (j : Nat) :
    (accessOf a s i).need j = true := by
  cases i with
  | pandnMm | pandnXmm | vpandn128 | vpandn256 => rfl
  | vpandnd128 | vpandnd256 | vpandnd512 | vpandnq128 | vpandnq256 | vpandnq512 => cases he

theorem accessOf_need_of_evex {i : Instr} {e : Evex} (he : evex? i = some e) (a : Addr) (s : State) (j : Nat) :
    (accessOf a s i).need j = if e.bc then needBcast s e (elemSize i) (width i) else needFull s e (elemSize i) j := by
  have hevex (es w : Nat) (h : Head) (e : Evex) (o : ModRm) : (evexAccess es w h e o a s).need j =
      if e.bc then needBcast s e es w else needFull s e es j := by
    unfold evexAccess
    split <;> rfl
  cases i with
  | pandnMm | pandnXmm | vpandn128 | vpandn256 => cases he
  | vpandnd128 | vpandnd256 | vpandnd512 | vpandnq128 | vpandnq256 | vpandnq512 =>
    cases he
    exact hevex _ _ _ _ _

theorem width_div_elemSize_pos (i : Instr) : 0 < width i / elemSize i := by
  cases i <;> simp [width, elemSize]

/-- Which bytes of an EVEX operand must be readable (R79). -/
theorem accessOf_need_evex_iff {i : Instr} {e : Evex} (he : evex? i = some e) (a : Addr) (s : State) (j : Nat) :
    (accessOf a s i).need j = true ↔ s.cfg.faultSuppression = false ∨ e.aaa = 0#3 ∨ maskNeeds i e s j := by
  rw [accessOf_need_of_evex he, maskNeeds]
  cases e.bc with
  | true =>
    have hany : (List.range (width i / elemSize i)).any (maskBit s e) = true ↔
        e.aaa = 0#3 ∨ ∃ j' < width i / elemSize i, (s.readK e.aaa).getLsbD j' = true := by
      simp only [List.any_eq_true, List.mem_range, maskBit_eq_true_iff, and_or_left, exists_or]
      exact or_congr_left ⟨fun ⟨_, _, h⟩ => h, fun h => ⟨0, width_div_elemSize_pos i, h⟩⟩
    simp only [if_true, needBcast, Bool.or_eq_true, Bool.not_eq_true', hany]
  | false => simp [needFull, maskBit_eq_true_iff]

end Sys2Proof.Machine

namespace Sys2Proof.Proofs

open Sys2Proof
open Sys2Proof.Machine
open Sys2Proof.Safety

/-- Settles O22: a little-endian read bit by bit, and the two cases of the oracle's answer. -/
theorem littleEndianOperand : Obligations.LittleEndianOperand := by
  refine ⟨fun s la n k j hk hj => ?_, fun s la => ⟨fun h => dataAt_of_not_mem h, fun b cs ds h hn => dataAt_of_first h hn⟩⟩
  have hlt : 8 * k + j < 8 * n := by omega
  have hdiv : (8 * k + j) / 8 = k := by omega
  have hmod : (8 * k + j) % 8 = j := by omega
  rw [testBit_readLE, decide_eq_true hlt, hdiv, hmod, Bool.true_and]

/-- Settles O23: bit `j` of both reads is the same bit of the same byte. -/
theorem narrowReadIsLowBits : Obligations.NarrowReadIsLowBits := by
  intro s la m n hmn
  refine Nat.eq_of_testBit_eq fun j => ?_
  rw [Nat.testBit_mod_two_pow, testBit_readLE, testBit_readLE]
  by_cases hj : j < 8 * m
  · rw [decide_eq_true hj, decide_eq_true (by omega), Bool.true_and, Bool.true_and]
  · rw [decide_eq_false hj, Bool.false_and, Bool.false_and]

/-- Settles O27: the shifted address is 0 when its top bits are 0 and all ones when they are 1. -/
theorem canonicalMeansEqualTopBits : Obligations.CanonicalMeansEqualTopBits := by
  intro va a h1 h64
  have hexp : 65 - va = 64 - (va - 1) := by omega
  rw [canonical_iff_toNat, hexp, shiftRight_eq_zero_iff_bits, shiftRight_eq_ones_iff_bits (by omega)]
  constructor
  · rintro (h | h) j hlo hhi
    · rw [h j hlo hhi, h 63 (by omega) (by omega)]
    · rw [h j hlo hhi, h 63 (by omega) (by omega)]
  · intro h
    cases htop : a.getLsbD 63 with
    | false => exact .inl fun j hlo hhi => by rw [h j hlo hhi, htop]
    | true => exact .inr fun j hlo hhi => by rw [h j hlo hhi, htop]

/-- Settles O26: the one override that a head can have decides base and segment. -/
theorem segmentOverride : Obligations.SegmentOverride := by
  refine ⟨fun s h b a hw => ⟨fun hfs => ?_, fun hgs => ?_, fun hfs hgs => ?_⟩, fun b => ⟨fun rm d => ?_, fun _ => rfl,
    fun sc ix bs d => ?_, fun _ _ _ => rfl⟩⟩
  · have ho := (segOverride_eq_some hw .fs).2 hfs
    exact ⟨segBase_of_fs ho s, usesSS_of_fs_or_gs (.inl ho) b a⟩
  · have ho := (segOverride_eq_some hw .gs).2 hgs
    exact ⟨segBase_of_gs ho s, usesSS_of_fs_or_gs (.inr ho) b a⟩
  · obtain ⟨hnfs, hngs⟩ := segOverride_ne_fs_gs hw hfs hgs
    exact segment_of_other hnfs hngs s b a
  · exact beq_iff_eq.trans (num4_eq_five b rm)
  · rw [defaultSS, Bool.or_eq_true, beq_iff_eq, beq_iff_eq, num4_eq_four, num4_eq_five, and_or_left]

/-- Settles O24: the cases of the sum, with the scale as a product. -/
theorem effectiveAddressForms : Obligations.EffectiveAddressForms := by
  refine ⟨fun n8 => ⟨rfl, fun _ => rfl, fun _ => rfl⟩, fun s h x b n8 next hno => ?_⟩
  refine ⟨fun rm d => ?_, fun d => ?_, fun sc ix bs d hix => ?_, fun sc ix bs d hix => ?_, fun sc ix d hix => ?_,
    fun sc ix d hix => ?_⟩
  all_goals rw [effAddr_of_not_addr32 hno, addrSum]
  · rw [indexTerm_of_ne_four hix]
  · rw [indexTerm_of_four hix, BitVec.add_zero]
  · rw [indexTerm_of_ne_four hix]
  · rw [indexTerm_of_four hix, BitVec.zero_add]

/-- Settles O28: the low half of a sum is the sum of the low halves. -/
theorem addressSize32 : Obligations.AddressSize32 := by
  intro s h x b n8 next hp
  have hadd (u v : Word) : (u + v).setWidth 32 = u.setWidth 32 + v.setWidth 32 := BitVec.setWidth_add u v (by decide)
  simp only [effAddr_of_addr32 hp, addrSum, hadd, setWidth_indexTerm, setWidth_signExtend_32, implies_true, and_self]

/-- Settles O25: the read of each form, field by field. -/
theorem operandAddressAndSize : Obligations.OperandAddressAndSize := by
  intro i a s
  obtain ⟨halign, hac⟩ := accessOf_checks a s i
  refine ⟨accessOf_bytes a s i, accessOf_la a s i, accessOf_ss a s i, by rw [halign, beq_iff_eq], by rw [hac, beq_iff_eq],
    fun j => ?_⟩
  cases he : evex? i with
  | none => simp [accessOf_need_of_not_evex he]
  | some e =>
    rw [accessOf_need_evex_iff he]
    simp [maskNeeds]

end Sys2Proof.Proofs
end

section
/-! PROOF. The exceptions of an operand and their order (60_exceptions.md R200 to R204), what an exception reports (R202), the
no-fault premise (R212), and the refusals (20_memory.md R60, R71). -/

namespace Sys2Proof.Machine

open Sys2Proof
open Sys2Proof.Safety

/-! ## Steps 1 to 3 -/

theorem exec_ud_of_modeUd {i : Instr} {s : State} (h : modeUd (cls i) s = true) : exec i s = .fault .ud :=
  exec_ud_of_noUd_false (by simp [noUd_iff, h])

theorem preOf_cases {i : Instr} {s : State} {f : Fault} (h : preOf i s = some f) : f = .ud ∨ f = .nm ∨ f = .mf := by
  obtain rfl | rfl | ⟨rfl, -⟩ := preFault_cases h
  · exact .inl rfl
  · exact .inr (.inl rfl)
  · exact .inr (.inr rfl)

/-- An exception that steps 1 to 3 do not raise is one of the operand's. -/
theorem operandFault_of_exec_eq_fault {i : Instr} {s : State} {f : Fault} (h : exec i s = .fault f)
    (hud : f ≠ .ud) (hnm : f ≠ .nm) (hmf : f ≠ .mf) : ∃ q, access i s = some q ∧ f ∈ operandFaults s q := by
  obtain hpre | ⟨-, q, hq, -, hrep⟩ := exec_eq_fault.1 h
  · obtain rfl | rfl | rfl := preOf_cases hpre
    · exact absurd rfl hud
    · exact absurd rfl hnm
    · exact absurd rfl hmf
  · exact ⟨q, hq, reported_mem hrep⟩

/-! ## The exceptions of the operand -/

theorem mem_operandFaults {s : State} {q : Access} {f : Fault} : f ∈ operandFaults s q ↔
    addrFault s q = some f ∨ alignFault q = some f ∨ pageFault s q = some f ∨ acFault s q = some f := by
  simp [operandFaults]

theorem acFault_eq_some_iff {s : State} {q : Access} {f : Fault} : acFault s q = some f ↔
    (q.checkAC = true ∧ s.alignCheck = true ∧ q.la.toNat % 8 ≠ 0) ∧ f = .ac0 := by
  have hcond : (q.checkAC && s.alignCheck && q.la.toNat % 8 != 0) = true ↔
      q.checkAC = true ∧ s.alignCheck = true ∧ q.la.toNat % 8 ≠ 0 := by simp [and_assoc]
  unfold acFault
  split
  next h => exact ⟨fun hf => ⟨hcond.1 h, (Option.some.inj hf).symm⟩, fun ⟨_, hf⟩ => by rw [hf]⟩
  next h => exact ⟨(nomatch ·), fun ⟨hc, _⟩ => absurd (hcond.2 hc) h⟩

theorem alignFault_eq_some_iff {q : Access} {f : Fault} : alignFault q = some f ↔
    (q.align16 = true ∧ q.la.toNat % 16 ≠ 0) ∧ f = .gp0 := by
  have hcond : (q.align16 && q.la.toNat % 16 != 0) = true ↔ q.align16 = true ∧ q.la.toNat % 16 ≠ 0 := by simp
  unfold alignFault
  split
  next h => exact ⟨fun hf => ⟨hcond.1 h, (Option.some.inj hf).symm⟩, fun ⟨_, hf⟩ => by rw [hf]⟩
  next h => exact ⟨(nomatch ·), fun ⟨hc, _⟩ => absurd (hcond.2 hc) h⟩

theorem pageFault_is_pf {s : State} {q : Access} {f : Fault} (h : pageFault s q = some f) : ∃ ec a, f = .pf ec a := by
  obtain ⟨j, -, -, hj⟩ := pageFault_eq_some h
  obtain ⟨ec, rfl⟩ := pageFaultAt_eq_some hj
  exact ⟨ec, _, rfl⟩

/-- Of an operand's exceptions #AC(0) is the alignment check's. -/
theorem acFault_of_mem {s : State} {q : Access} (h : Fault.ac0 ∈ operandFaults s q) : acFault s q = some .ac0 := by
  obtain haddr | halign | hpage | hac := mem_operandFaults.1 h
  · have := addrFault_eq_some haddr
    split at this <;> cases this
  · cases alignFault_eq_some halign
  · obtain ⟨ec, a, hpf⟩ := pageFault_is_pf hpage
    cases hpf
  · exact hac

/-- Of an operand's exceptions #PF is the page fault's. -/
theorem pageFault_of_mem {s : State} {q : Access} {ec : BitVec 6} {a : Word} (h : Fault.pf ec a ∈ operandFaults s q) :
    pageFault s q = some (.pf ec a) := by
  obtain haddr | halign | hpage | hac := mem_operandFaults.1 h
  · have := addrFault_eq_some haddr
    split at this <;> cases this
  · cases alignFault_eq_some halign
  · exact hpage
  · cases acFault_eq_some hac

/-- The error code of a page fault, bit by bit (R202). -/
theorem unreadable_code_bits (u : Unreadable) (user : Bool) :
    (u.code user).getLsbD 0 = u.present ∧ (u.code user).getLsbD 1 = false ∧ (u.code user).getLsbD 2 = user ∧
      (u.code user).getLsbD 3 = u.reserved ∧ (u.code user).getLsbD 4 = false ∧
      (u.code user).getLsbD 5 = u.protectionKey := by
  have hbits : ∀ k r us p : Bool,
      let code : BitVec 6 := BitVec.ofBool k ++ 0#1 ++ BitVec.ofBool r ++ BitVec.ofBool us ++ 0#1 ++ BitVec.ofBool p
      code.getLsbD 0 = p ∧ code.getLsbD 1 = false ∧ code.getLsbD 2 = us ∧ code.getLsbD 3 = r ∧
        code.getLsbD 4 = false ∧ code.getLsbD 5 = k := by decide
  exact hbits u.protectionKey u.reserved user u.present

/-- What a page fault at an address reports (R202). -/
theorem pageFaultAt_eq_pf {s : State} {a cr2 : Word} {ec : BitVec 6} (h : s.pageFaultAt a = some (.pf ec cr2)) :
    cr2 = a ∧ ∃ u ∈ s.plat.now.unreadable, u.covers s.user a.toNat = true ∧ ec = u.code s.user := by
  unfold State.pageFaultAt at h
  split at h
  · cases h
  next u hu =>
    cases h
    exact ⟨rfl, u, List.mem_of_find?_eq_some hu, List.find?_some (p := fun u : Unreadable => u.covers s.user a.toNat) hu, rfl⟩

theorem user_eq_decide (s : State) : s.user = decide (s.ctl.cpl = 3#2) := beq_eq_decide _ _

/-! ## The order of steps 4 to 7 (R204) -/

theorem reported_singleton (p : ExcPriority) (f : Fault) : reported p [f] = some f := by
  cases p with
  | inOrder => rfl
  | anyOf pick => simp [reported, Nat.mod_one]

/-- In order, the exception reported is the first of the operand's that holds. -/
theorem reported_inOrder (s : State) (q : Access) : reported .inOrder (operandFaults s q) =
    (((addrFault s q).or (alignFault q)).or (pageFault s q)).or (acFault s q) := by
  have hhead (o : Option Fault) : o.toList.head? = o := by cases o <;> rfl
  simp only [reported, operandFaults, List.head?_append, hhead]

/-- Some byte that must be readable is not canonical exactly when the operand raises #SS(0) or #GP(0) for it (R200). -/
theorem addrFault_eq_ite (s : State) (q : Access)
    [Decidable (∃ j < q.bytes, q.need j = true ∧ canonical s.cfg.vaBits (q.byteAddr j) = false)] :
    addrFault s q = if ∃ j < q.bytes, q.need j = true ∧ canonical s.cfg.vaBits (q.byteAddr j) = false then
      some (if q.ss then .ss0 else .gp0) else none := by
  have hall : (q.needed.all fun j => canonical s.cfg.vaBits (q.byteAddr j)) = false ↔
      ∃ j < q.bytes, q.need j = true ∧ canonical s.cfg.vaBits (q.byteAddr j) = false := by
    simp [Access.needed]
  unfold addrFault
  split
  next h => rw [if_neg (by rw [← hall, h]; exact Bool.noConfusion)]
  next h => rw [if_pos (hall.1 (by simpa using h))]

/-- Steps 4 to 7 in order: which exception of the operand is the first that holds. -/
theorem reported_inOrder_eq_some {s : State} {q : Access} {f : Fault}
    [Decidable (∃ j < q.bytes, q.need j = true ∧ canonical s.cfg.vaBits (q.byteAddr j) = false)] :
    reported .inOrder (operandFaults s q) = some f ↔
      if ∃ j < q.bytes, q.need j = true ∧ canonical s.cfg.vaBits (q.byteAddr j) = false then
        f = if q.ss = true then .ss0 else .gp0
      else if q.align16 = true ∧ q.la.toNat % 16 ≠ 0 then f = .gp0
      else if (pageFault s q).isSome then pageFault s q = some f
      else q.checkAC = true ∧ s.alignCheck = true ∧ q.la.toNat % 8 ≠ 0 ∧ f = .ac0 := by
  rw [reported_inOrder, addrFault_eq_ite]
  by_cases hcan : ∃ j < q.bytes, q.need j = true ∧ canonical s.cfg.vaBits (q.byteAddr j) = false
  · rw [if_pos hcan, if_pos hcan, Option.some_or, Option.some_or, Option.some_or, Option.some.injEq, eq_comm]
  rw [if_neg hcan, if_neg hcan, Option.none_or]
  by_cases hal : q.align16 = true ∧ q.la.toNat % 16 ≠ 0
  · rw [if_pos hal, alignFault_eq_some_iff.2 ⟨hal, rfl⟩, Option.some_or, Option.some_or, Option.some.injEq, eq_comm]
  have hnone : alignFault q = none := alignFault_eq_none.2 fun h => by
    by_contra hne
    exact hal ⟨h, hne⟩
  rw [if_neg hal, hnone, Option.none_or]
  cases hpf : pageFault s q with
  | some g => rw [Option.some_or, Option.isSome_some, if_pos rfl]
  | none => rw [Option.none_or, Option.isSome_none, if_neg Bool.false_ne_true, acFault_eq_some_iff, and_assoc, and_assoc]

/-- An exception is raised exactly when one holds of steps 1 to 3 or, in 64-bit mode, of the operand. -/
theorem exists_fault_iff {i : Instr} {s : State} : (∃ f, exec i s = .fault f) ↔
    preOf i s ≠ none ∨ (preOf i s = none ∧ ∃ q, access i s = some q ∧ s.mode = .m64 ∧ operandFaults s q ≠ []) := by
  simp only [exec_eq_fault, exists_or, Option.ne_none_iff_exists', exists_and_left]
  refine or_congr_right (and_congr_right fun _ => ?_)
  rw [exists_comm]
  refine exists_congr fun q => ?_
  simp only [exists_and_left, ← Option.ne_none_iff_exists', ne_eq, reported_eq_none]

/-! ## Device regions (20_memory.md R60) -/

theorem touchesDevice_iff {s : State} {q : Access} : touchesDevice s q = true ↔
    ∃ j < q.bytes, ∃ d ∈ s.plat.device, d.base ≤ (q.byteAddr j).toNat ∧ (q.byteAddr j).toNat < d.base + d.size := by
  simp [touchesDevice]

end Sys2Proof.Machine

namespace Sys2Proof.Proofs

open Sys2Proof
open Sys2Proof.Machine
open Sys2Proof.Safety

/-- Settles O33: the mode is a cause of #UD for the VEX and EVEX forms, and a register operand asks for no mode. -/
theorem vexNeedsProtectedMode : Obligations.VexNeedsProtectedMode := by
  refine ⟨fun i s hc hm => exec_ud_of_modeUd ?_, fun i s rm _ hrm hno => exists_next_of_runs (runs_iff.2 ?_)⟩
  · obtain hc | hc := hc <;> obtain hm | hm := hm <;> simp [hc, hm, modeUd]
  · refine ⟨(noExc_iff.1 hno).1, fun q hq => ?_⟩
    rw [access_of_reg hrm] at hq
    cases hq

/-- Settles O36: #AC(0) is none of steps 1 to 3's and the last of the operand's. -/
theorem alignmentCheckIsAc : Obligations.AlignmentCheckIsAc := by
  refine ⟨fun i s hx => ?_, fun h reg a s hm hpre haddr hpage ham hac hcpl hla => ?_⟩
  · obtain ⟨q, hq, hmem⟩ := operandFault_of_exec_eq_fault hx Fault.noConfusion Fault.noConfusion Fault.noConfusion
    obtain ⟨⟨hcheck, halign, hla⟩, -⟩ := acFault_eq_some_iff.1 (acFault_of_mem hmem)
    simp only [State.alignCheck, Bool.and_eq_true] at halign
    obtain ⟨⟨ham, hac⟩, huser⟩ := halign
    rw [(access_checks hq).2] at hcheck
    exact ⟨beq_iff_eq.1 hcheck, ham, hac, beq_iff_eq.1 huser, q, hq, hla⟩
  · let q := accessOf a s (.pandnMm h ⟨reg, .mem a⟩)
    have hcheck : s.alignCheck = true := by
      simp only [State.alignCheck, State.cr0AM, State.flagAC, user_eq_decide, ham, hac, hcpl, decide_true, Bool.and_true]
    have hfaults : operandFaults s q = [.ac0] := by
      have hac0 : acFault s q = some .ac0 := acFault_eq_some_iff.2 ⟨⟨rfl, hcheck, hla⟩, rfl⟩
      have halign : alignFault q = none := rfl
      rw [operandFaults, haddr, halign, hpage, hac0]
      rfl
    exact exec_eq_fault.2 (.inr ⟨hpre, q, rfl, hm, by rw [hfaults, reported_singleton]⟩)

/-- Settles O37: a page fault is that of a needed byte, with the code of the cause found for it. -/
theorem pageFaultReport : Obligations.PageFaultReport := by
  intro i s ec cr2 hx
  obtain ⟨q, hq, hmem⟩ := operandFault_of_exec_eq_fault hx Fault.noConfusion Fault.noConfusion Fault.noConfusion
  obtain ⟨j, hj, hneed, hat⟩ := pageFault_eq_some (pageFault_of_mem hmem)
  obtain ⟨rfl, u, hu, hcovers, rfl⟩ := pageFaultAt_eq_pf hat
  obtain ⟨hp, hw, hus, hrsvd, hid, hpk⟩ := unreadable_code_bits u s.user
  exact ⟨hw, hid, hus.trans (user_eq_decide s), q, j, hq, hj, hneed, rfl, u, hu, hcovers, hp, hrsvd, hpk⟩

/-- The order of R204 for an instruction with a memory operand. -/
theorem exec_eq_fault_inOrder {i : Instr} {s : State} {q : Access} (hq : access i s = some q) (hm : s.mode = .m64)
    (hp : s.cfg.excPriority = .inOrder) (f : Fault) : exec i s = .fault f ↔
      if noUd i s = false then f = .ud
      else if s.cr0TS = true then f = .nm
      else if cls i = .mmx ∧ s.fswES = true then f = .mf
      else if ∃ j < q.bytes, q.need j = true ∧ canonical s.cfg.vaBits (q.la + BitVec.ofNat 64 j) = false then
        f = if q.ss = true then .ss0 else .gp0
      else if cls i = .sse ∧ q.la.toNat % 16 ≠ 0 then f = .gp0
      else if (pageFault s q).isSome then pageFault s q = some f
      else cls i = .mmx ∧ s.alignCheck = true ∧ q.la.toNat % 8 ≠ 0 ∧ f = .ac0 := by
  obtain ⟨halign, hac⟩ := access_checks hq
  have hmf : (cls i == .mmx && s.fswES) = true ↔ cls i = .mmx ∧ s.fswES = true := by simp
  have hoperand := reported_inOrder_eq_some (s := s) (q := q) (f := f)
  rw [← hp] at hoperand
  simp only [halign, hac, beq_iff_eq] at hoperand
  simp only [exec_eq_fault, hq, hm, Option.some.injEq, exists_eq_left', true_and, preOf_eq, hmf, hoperand]
  have hfirst (g : Fault) (P : Prop) : some g = some f ∨ (some g = none ∧ P) ↔ f = g := by
    rw [Option.some.injEq, eq_comm]
    simp
  by_cases hud : noUd i s = false
  · rw [if_pos hud, if_pos hud, hfirst]
  by_cases hts : s.cr0TS = true
  · rw [if_neg hud, if_pos hts, if_neg hud, if_pos hts, hfirst]
  by_cases hx : cls i = .mmx ∧ s.fswES = true
  · rw [if_neg hud, if_neg hts, if_pos hx, if_neg hud, if_neg hts, if_pos hx, hfirst]
  rw [if_neg hud, if_neg hts, if_neg hx, if_neg hud, if_neg hts, if_neg hx]
  simp only [reduceCtorEq, false_or, true_and]
  rfl

/-- Settles O38: steps 1 to 3 in `preOf`'s order, then the first of the operand's exceptions. -/
theorem exceptionPriority : Obligations.ExceptionPriority :=
  ⟨fun _ _ _ f hq hm hp => exec_eq_fault_inOrder hq hm hp f, ⟨rfl, rfl⟩, ⟨rfl, rfl⟩, ⟨rfl, rfl⟩, ⟨rfl, rfl⟩,
    fun _ _ => ⟨rfl, rfl⟩, ⟨rfl, rfl⟩, ⟨rfl, rfl⟩⟩

/-- The state with another `EXC_PRIORITY`. -/
def withPriority (s : State) (p : ExcPriority) : State := { s with cfg := { s.cfg with excPriority := p } }

theorem preOf_withPriority (i : Instr) (s : State) (p : ExcPriority) : preOf i (withPriority s p) = preOf i s := by
  cases i <;> rfl

theorem access_withPriority (i : Instr) (s : State) (p : ExcPriority) : access i (withPriority s p) = access i s := by
  cases i <;> rfl

/-- Settles O39: `EXC_PRIORITY` picks one of the operand's exceptions, and does not enter what they are. -/
theorem anyPriorityReportsOneThatHolds : Obligations.AnyPriorityReportsOneThatHolds := by
  intro i s p f hx
  have hpre := preOf_withPriority i s p
  have haccess := access_withPriority i s p
  obtain hf | ⟨hnone, q, hq, hm, hrep⟩ := exec_eq_fault.1 hx
  · have hx' : exec i s = .fault f := exec_of_preOf (hpre.symm.trans hf)
    exact ⟨⟨f, hx'⟩, .inl ⟨preOf_cases hf, hx'⟩⟩
  · have hmem : f ∈ operandFaults s q := reported_mem hrep
    have hq' : access i s = some q := haccess.symm.trans hq
    refine ⟨exists_fault_iff.2 (.inr ⟨hpre.symm.trans hnone, q, hq', hm, List.ne_nil_of_mem hmem⟩), .inr ⟨q, hq', hmem⟩⟩

/-- Settles O40: the premise says that neither steps 1 to 3 nor the operand raise anything. -/
theorem noExceptionIff : Obligations.NoExceptionIff := by
  intro i s hm
  rw [← not_exists, exists_fault_iff, noExc_iff]
  by_cases hpre : preOf i s = none <;> simp [hpre, hm]

/-- Settles O41: a refusal is the operand's, after `preOf` and, in 64-bit mode, after the operand's exceptions. -/
theorem refusalsOfAnInstruction : Obligations.RefusalsOfAnInstruction := by
  intro i s r
  rw [exec_eq_refused, preOf_eq_none, srcOf_eq_refused, and_assoc, and_assoc]
  refine and_congr_right fun _ => and_congr_right fun _ => and_congr_right fun _ => exists_congr fun q =>
    and_congr_right fun hq => or_congr_right (and_congr_right fun _ => ?_)
  rw [operandOk_iff hq, touchesDevice_iff, and_comm (a := _ = Refusal.deviceOperand)]
  rfl

end Sys2Proof.Proofs
end

section
/-! PROOF. What an outcome depends on: the inputs of the form (10_state.md R43), CPL through a memory operand only
(60_exceptions.md R215), and the mask bits under fault suppression (20_memory.md R79). -/

namespace Sys2Proof.Machine

open Sys2Proof
open Sys2Proof.Safety

/-! ## Two states that read alike -/

/-- What a memory read uses of a state, beside the address, is the same (20_memory.md R58, R69, R72). -/
structure SameReads (s t : State) : Prop where
  mode : t.mode = s.mode
  vaBits : t.cfg.vaBits = s.cfg.vaBits
  excPriority : t.cfg.excPriority = s.cfg.excPriority
  user : t.user = s.user
  alignCheck : t.alignCheck = s.alignCheck
  plat : t.plat = s.plat
  mem : ∀ a, t.mem.read a = s.mem.read a

section SameReads

variable {s t : State} (h : SameReads s t)

include h

theorem dataAt_of_sameReads (la : Word) : t.dataAt la = s.dataAt la := by
  simp only [State.dataAt, State.byteAt, h.plat, h.mem]

theorem touchesDevice_of_sameReads (q : Access) : touchesDevice t q = touchesDevice s q := by
  simp only [touchesDevice, h.plat]

theorem operandFaults_of_sameReads (q : Access) : operandFaults t q = operandFaults s q := by
  have haddr : addrFault t q = addrFault s q := by simp only [addrFault, h.vaBits]
  have hpage : pageFault t q = pageFault s q := by
    simp only [pageFault, pageFaults, State.pageFaultAt, h.plat, h.user]
  have hac : acFault t q = acFault s q := by simp only [acFault, h.alignCheck]
  rw [operandFaults, haddr, hpage, hac, operandFaults]

end SameReads

/-- Which bytes past the operand's last would have to be readable does not matter to its exceptions. -/
theorem operandFaults_need_congr {q : Access} {p : Nat → Bool} (hp : ∀ j < q.bytes, p j = q.need j) (s : State) :
    operandFaults s { q with need := p } = operandFaults s q := by
  unfold operandFaults addrFault pageFault pageFaults
  rw [needed_congr hp]
  rfl

/-- An operand of which fewer bytes must be readable raises nothing when it raised nothing before. -/
theorem operandFaults_eq_nil_of_need_imp {s : State} {q : Access} {p : Nat → Bool}
    (hp : ∀ j, p j = true → q.need j = true) (hq : operandFaults s q = []) :
    operandFaults s { q with need := p } = [] := by
  have hsub : ∀ j ∈ ({ q with need := p } : Access).needed, j ∈ q.needed := by
    intro j hj
    obtain ⟨hlt, hneed⟩ := List.mem_filter.1 hj
    exact List.mem_filter.2 ⟨hlt, hp j hneed⟩
  rw [operandFaults_eq_nil, addrFault_eq_none, pageFault_eq_none] at hq ⊢
  obtain ⟨haddr, halign, hpage, hac⟩ := hq
  exact ⟨fun j hj => haddr j (hsub j hj), halign, fun j hj => hpage j (hsub j hj), hac⟩

/-! ## The operand in two states -/

/-- The read of a form differs between two states in the address and the needed bytes alone. -/
theorem accessOf_eq_with_need {i : Instr} {a : Addr} {s t : State} (hla : (accessOf a t i).la = (accessOf a s i).la) :
    accessOf a t i = { accessOf a s i with need := (accessOf a t i).need } := by
  obtain ⟨halign, hac⟩ := accessOf_checks a s i
  obtain ⟨halign', hac'⟩ := accessOf_checks a t i
  have hext (q q' : Access) (h1 : q'.la = q.la) (h2 : q'.bytes = q.bytes) (h3 : q'.ss = q.ss)
      (h4 : q'.align16 = q.align16) (h5 : q'.checkAC = q.checkAC) : q' = { q with need := q'.need } := by
    cases q
    cases q'
    simp_all
  exact hext _ _ hla (by rw [accessOf_bytes, accessOf_bytes]) (by rw [accessOf_ss, accessOf_ss])
    (halign'.trans halign.symm) (hac'.trans hac.symm)

/-- An address is formed from the general registers, `rip`, and the bases of FS and GS (20_memory.md R65 to R69). -/
theorem accessOf_la_congr {s t : State} (hgpr : t.gpr = s.gpr) (hrip : t.rip = s.rip)
    (hfs : t.seg.fs.base = s.seg.fs.base) (hgs : t.seg.gs.base = s.seg.gs.base) (a : Addr) (i : Instr) :
    (accessOf a t i).la = (accessOf a s i).la := by
  have hread (n : BitVec 4) : t.readGpr n = s.readGpr n := by rw [State.readGpr, hgpr, State.readGpr]
  have hindex (x : Bool) (sc : BitVec 2) (ix : BitVec 3) : indexTerm t x sc ix = indexTerm s x sc ix := by
    simp only [indexTerm, hread]
  have hsum (x b : Bool) (n8 : Nat) (next : Word) : addrSum t x b n8 next a = addrSum s x b n8 next a := by
    cases a <;> simp only [addrSum, hread, hindex]
  have hbase (h : Head) : segBase t h = segBase s h := by simp only [segBase, hfs, hgs]
  simp only [accessOf_la, accessOf_bytes, effAddr, hsum, hbase, hrip]

/-- Bit `j` of a memory operand as the second source: of the whole operand, or of the broadcast element. -/
theorem srcBit_of_mem {i : Instr} {a : Addr} (hrm : (operands i).rm = .mem a) (s : State) (j : Nat) :
    srcBit i s j = if bcast i = true then
      (s.dataAt ((accessOf a s i).byteAddr (j % elemSize i / 8))).getLsbD (j % 8)
      else (s.dataAt ((accessOf a s i).byteAddr (j / 8))).getLsbD (j % 8) := by
  by_cases hc : cls i = .mmx
  · rw [eq_pandnMm_of_cls hc, srcBit, mmxSrcBit, hrm]
    rfl
  · rw [srcBit_of_ne_mmx hc, src2Bit, hrm]

theorem srcBit_mem_congr {i : Instr} {a : Addr} (hrm : (operands i).rm = .mem a) {s t : State}
    (hla : (accessOf a t i).la = (accessOf a s i).la) (hdata : ∀ la, t.dataAt la = s.dataAt la) (j : Nat) :
    srcBit i t j = srcBit i s j := by
  simp only [srcBit_of_mem hrm, Access.byteAddr, hla, hdata]

theorem srcBit_reg_congr {i : Instr} {rm : BitVec 3} (hrm : (operands i).rm = .reg rm) {s t : State}
    (hmm : t.mm = s.mm) (hzmm : t.zmm = s.zmm) (j : Nat) : srcBit i t j = srcBit i s j := by
  by_cases hc : cls i = .mmx
  · rw [eq_pandnMm_of_cls hc, srcBit, srcBit, mmxSrcBit, mmxSrcBit, hrm]
    simp only [State.readMm, hmm]
  · rw [srcBit_of_ne_mmx hc, srcBit_of_ne_mmx hc, src2Bit_of_reg hrm, src2Bit_of_reg hrm, State.readZmm, hzmm,
      State.readZmm]

/-- A register operand is the same second source in states that show the same bits of it. -/
theorem srcOf_reg_congr {i : Instr} {rm : BitVec 3} (hrm : (operands i).rm = .reg rm) {s t : State}
    (hbits : ∀ j < width i, srcBit i t j = srcBit i s j) : srcOf i t = srcOf i s := by
  obtain ⟨b, hb, hsb⟩ := exists_srcOf_eq_value (i := i) (s := s) fun q hq => by
    rw [access_of_reg hrm] at hq
    cases hq
  rw [hb, srcOf_reg_eq_value hrm]
  exact fun j hj => (hsb j hj).trans (hbits j hj).symm

/-- The second source raises what its memory operand does. -/
theorem srcOf_eq_fault {i : Instr} {s : State} {f : Fault} : srcOf i s = .fault f ↔
    ∃ q, access i s = some q ∧ s.mode = .m64 ∧ reported s.cfg.excPriority (operandFaults s q) = some f := by
  rw [access_raises_iff (w := width i)]
  cases i with
  | pandnMm h o => exact mmxSrc_eq_fault
  | pandnXmm h o => exact sseSrc_eq_fault
  | vpandn128 h v o | vpandn256 h v o => exact vexSrc2_eq_fault
  | vpandnd128 h e o | vpandnd256 h e o | vpandnd512 h e o | vpandnq128 h e o | vpandnq256 h e o | vpandnq512 h e o =>
    exact evexSrc2_eq_fault

/-- A memory operand is the same second source in states that read alike, where its address and the bytes that must be readable
are the same. -/
theorem srcOf_mem_congr {i : Instr} {a : Addr} (hrm : (operands i).rm = .mem a) {s t : State} (h : SameReads s t)
    (hla : (accessOf a t i).la = (accessOf a s i).la)
    (hneed : ∀ j < (accessOf a s i).bytes, (accessOf a t i).need j = (accessOf a s i).need j) : srcOf i t = srcOf i s := by
  have hbits := srcBit_mem_congr hrm hla (dataAt_of_sameReads h)
  have haccess := accessOf_eq_with_need hla
  have hfaults : operandFaults t (accessOf a t i) = operandFaults s (accessOf a s i) := by
    rw [haccess, operandFaults_need_congr hneed, operandFaults_of_sameReads h]
  have hdevice : touchesDevice t (accessOf a t i) = touchesDevice s (accessOf a s i) := by
    rw [haccess]
    exact touchesDevice_of_sameReads h _
  have hreadable : Readable t (accessOf a t i) ↔ Readable s (accessOf a s i) := by
    simp only [Readable, h.mode, hfaults, hdevice]
  cases hs : srcOf i s with
  | value b =>
    obtain ⟨hq, hb⟩ := (srcOf_mem_eq_value hrm).1 hs
    exact (srcOf_mem_eq_value hrm).2 ⟨hreadable.2 hq, fun j hj => (hb j hj).trans (hbits j).symm⟩
  | fault f =>
    obtain ⟨q, hq, hm, hrep⟩ := srcOf_eq_fault.1 hs
    obtain rfl : accessOf a s i = q := Option.some.inj ((access_of_mem hrm s).symm.trans hq)
    exact srcOf_eq_fault.2 ⟨_, access_of_mem hrm t, h.mode.trans hm, by rw [h.excPriority, hfaults, hrep]⟩
  | refused r =>
    obtain ⟨q, hq, hr⟩ := srcOf_eq_refused.1 hs
    obtain rfl : accessOf a s i = q := Option.some.inj ((access_of_mem hrm s).symm.trans hq)
    exact srcOf_eq_refused.2 ⟨_, access_of_mem hrm t, by rwa [h.mode, hfaults, hdevice]⟩

/-! ## The inputs of a form (10_state.md R43) -/

theorem preOf_of_sameControl {s t : State} (h : SameControl s t) (i : Instr) : preOf i t = preOf i s := by
  obtain ⟨hcfg, hmode, hem, hts, -, hfx, hxs, havx, havx512, hes, -⟩ := h
  have hctlUd : ctlUd (cls i) t = ctlUd (cls i) s := by
    cases cls i <;> simp only [ctlUd, hem, hfx, hxs, havx, havx512]
  have hmodeUd : modeUd (cls i) t = modeUd (cls i) s := by
    cases cls i <;> simp only [modeUd, hmode]
  rw [preOf, preFault, hctlUd, hmodeUd, hcfg, hts, hes, preOf, preFault]

theorem sameReads_of_sameControl {s t : State} (h : SameControl s t) (hmem : ∀ a, t.mem.read a = s.mem.read a) :
    SameReads s t := by
  obtain ⟨hcfg, hmode, -, -, ham, -, -, -, -, -, hac, huser, -, -, -, -, hplat⟩ := h
  exact ⟨hmode, by rw [hcfg], by rw [hcfg], huser, by rw [State.alignCheck, ham, hac, huser, State.alignCheck], hplat,
    hmem⟩

theorem accessOf_la_of_sameControl {s t : State} (h : SameControl s t) (a : Addr) (i : Instr) :
    (accessOf a t i).la = (accessOf a s i).la := by
  obtain ⟨-, -, -, -, -, -, -, -, -, -, -, -, hgpr, hrip, hfs, hgs, -⟩ := h
  exact accessOf_la_congr hgpr hrip hfs hgs a i

/-- The mask bits below `KL` are the same in both states, where a writemask is named. -/
def SameMask (i : Instr) (s t : State) : Prop :=
  ∀ e, evex? i = some e → e.aaa ≠ 0#3 → ∀ j < width i / elemSize i, (t.readK e.aaa).getLsbD j = (s.readK e.aaa).getLsbD j

theorem maskBit_of_sameMask {i : Instr} {s t : State} (h : SameMask i s t) {e : Evex} (he : evex? i = some e) {j : Nat}
    (hj : j < width i / elemSize i) : maskBit t e j = maskBit s e j := by
  by_cases ha : e.aaa = 0#3
  · simp [maskBit, ha]
  · rw [maskBit_of_aaa_ne_zero ha, maskBit_of_aaa_ne_zero ha, h e he ha j hj]

theorem selects_of_sameMask {i : Instr} {s t : State} (h : SameMask i s t) {j : Nat} (hj : j < width i) :
    selects i t j = selects i s j := by
  unfold selects
  cases he : evex? i with
  | none => rfl
  | some e => exact maskBit_of_sameMask h he (div_elemSize_lt hj)

/-- The bytes of an operand that must be readable are the same under the same mask (20_memory.md R79). -/
theorem need_of_sameMask {i : Instr} {s t : State} (h : SameMask i s t)
    (hfs : t.cfg.faultSuppression = s.cfg.faultSuppression) (a : Addr) {j : Nat} (hj : j < (accessOf a s i).bytes) :
    (accessOf a t i).need j = (accessOf a s i).need j := by
  cases he : evex? i with
  | none => rw [accessOf_need_of_not_evex he, accessOf_need_of_not_evex he]
  | some e =>
    rw [accessOf_bytes, bcast, he] at hj
    rw [accessOf_need_of_evex he, accessOf_need_of_evex he]
    cases hbc : e.bc with
    | true =>
      have hany : (List.range (width i / elemSize i)).any (maskBit t e) =
          (List.range (width i / elemSize i)).any (maskBit s e) :=
        Bool.eq_iff_iff.2 <| by
          simp only [List.any_eq_true, List.mem_range]
          exact exists_congr fun j => and_congr_right fun hj => by rw [maskBit_of_sameMask h he hj]
      rw [if_pos rfl, if_pos rfl, needBcast, needBcast, hfs, hany]
    | false =>
      have hlt : j < width i / 8 := by simpa [hbc] using hj
      have hkl : 8 * j / elemSize i < width i / elemSize i :=
        Nat.div_lt_div_of_lt_of_dvd (elemSize_dvd_width i) (by omega)
      rw [if_neg Bool.false_ne_true, if_neg Bool.false_ne_true, needFull, needFull, hfs, maskBit_of_sameMask h he hkl]

/-- An element that is neither computed nor zeroed is one whose old value the form reads (10_state.md R23). -/
theorem readsOld_of_not_selects {i : Instr} {s : State} {j : Nat} (hsel : selects i s j = false)
    (hz : zeroes i = false) : readsOld i = true := by
  have hevex (e : Evex) (hsel : maskBit s e (j / elemSize i) = false) (hz : e.z = false) :
      (!e.z && e.aaa != 0#3) = true := by
    simp only [maskBit, Bool.or_eq_false_iff, beq_eq_false_iff_ne] at hsel
    simp [hz, hsel]
  cases i with
  | pandnMm | pandnXmm | vpandn128 | vpandn256 => exact Bool.noConfusion hsel
  | vpandnd128 | vpandnd256 | vpandnd512 | vpandnq128 | vpandnq256 | vpandnq512 => exact hevex _ hsel hz

section SameInputs

variable {i : Instr} {s t : State} (h : SameInputs i s t)

include h

theorem srcOf_of_sameInputs : srcOf i t = srcOf i s := by
  obtain ⟨hctl, hmem, hmmx, hvec, hmask⟩ := h
  cases hrm : (operands i).rm with
  | reg rm =>
    refine srcOf_reg_congr hrm fun j hj => ?_
    by_cases hc : cls i = .mmx
    · have hread := (hmmx hc).2 rm hrm
      rw [eq_pandnMm_of_cls hc, srcBit, srcBit, mmxSrcBit, mmxSrcBit, hrm]
      simp only [hread]
    · have hread := (hvec hc).2.2 rm hrm
      rw [srcBit_of_ne_mmx hc, srcBit_of_ne_mmx hc, src2Bit_of_reg hrm, src2Bit_of_reg hrm, ← getLsbD_vec_of_lt t _ hj,
        hread, getLsbD_vec_of_lt s _ hj]
  | mem a =>
    exact srcOf_mem_congr hrm (sameReads_of_sameControl hctl hmem) (accessOf_la_of_sameControl hctl a i)
      fun j hj => need_of_sameMask hmask (by rw [hctl.1]) a hj

theorem src1Bit_of_sameInputs {j : Nat} (hj : j < width i) : src1Bit i t j = src1Bit i s j := by
  obtain ⟨-, -, hmmx, hvec, -⟩ := h
  by_cases hc : cls i = .mmx
  · have hread := (hmmx hc).1
    rw [eq_pandnMm_of_cls hc, src1Bit, src1Bit, hread]
  · have hread := (hvec hc).1
    rw [src1Bit_of_ne_mmx hc, src1Bit_of_ne_mmx hc, ← getLsbD_vec_of_lt t _ hj, hread, getLsbD_vec_of_lt s _ hj]

/-- Where the old destination is an input its bits are the same. -/
theorem resultBit_of_sameInputs (hold : readsOld i = true) {j : Nat} (hj : j < width i) :
    resultBit i t j = resultBit i s j := by
  obtain ⟨-, -, -, hvec, -⟩ := h
  have hc : cls i ≠ .mmx := by
    intro hc
    rw [eq_pandnMm_of_cls hc] at hold
    cases hold
  have hread := (hvec hc).2.1 hold
  rw [resultBit_of_ne_mmx hc, resultBit_of_ne_mmx hc, ← getLsbD_vec_of_lt t _ hj, hread, getLsbD_vec_of_lt s _ hj]

/-- The same second source gives the same computed bits. -/
theorem resultBit_effectOf_of_sameInputs (b : BitVec (width i)) {j : Nat} (hj : j < width i) :
    resultBit i (effectOf i t b) j = resultBit i (effectOf i s b) j := by
  have hmask : SameMask i s t := h.2.2.2.2
  rw [resultBit_effectOf i t b hj, resultBit_effectOf i s b hj, selects_of_sameMask hmask hj, src1Bit_of_sameInputs h hj]
  cases hsel : selects i s j with
  | true => rfl
  | false =>
    cases hz : zeroes i with
    | true => rfl
    | false => exact resultBit_of_sameInputs h (readsOld_of_not_selects hsel hz) hj

end SameInputs

/-! ## CPL -/

/-- The state at another CPL. -/
def State.withCpl (s : State) (c : BitVec 2) : State := { s with ctl := { s.ctl with cpl := c } }

theorem preOf_withCpl (i : Instr) (s : State) (c : BitVec 2) : preOf i (s.withCpl c) = preOf i s := by
  cases i <;> rfl

theorem effectOf_withCpl (i : Instr) (s : State) (c : BitVec 2) :
    effectOf i (s.withCpl c) = fun b => (effectOf i s b).withCpl c := by
  cases i <;> rfl

theorem sameReads_withCpl {s : State} {c : BitVec 2} (hc : c = 3#2 ↔ s.ctl.cpl = 3#2) : SameReads s (s.withCpl c) := by
  have huser : (s.withCpl c).user = s.user := by
    rw [user_eq_decide, user_eq_decide]
    exact decide_eq_decide.2 hc
  have halign : (s.withCpl c).alignCheck = s.alignCheck := by
    rw [State.alignCheck, huser]
    rfl
  exact ⟨rfl, rfl, rfl, huser, halign, rfl, fun _ => rfl⟩

/-- CPL reaches the second source through a memory operand only, and there as CPL = 3 or not (60_exceptions.md R215). -/
theorem srcOf_withCpl {i : Instr} {s : State} {c : BitVec 2}
    (hc : access i s = none ∨ (c = 3#2 ↔ s.ctl.cpl = 3#2)) : srcOf i (s.withCpl c) = srcOf i s := by
  cases hrm : (operands i).rm with
  | reg rm => exact srcOf_reg_congr hrm fun j _ => srcBit_reg_congr hrm rfl rfl j
  | mem a =>
    have hc := hc.resolve_left (by rw [access_of_mem hrm]; exact Option.some_ne_none _)
    have haccess : accessOf a (s.withCpl c) i = accessOf a s i := by cases i <;> rfl
    exact srcOf_mem_congr hrm (sameReads_withCpl hc) (by rw [haccess]) fun j _ => by rw [haccess]

/-! ## Fault suppression -/

/-- The state with another `FAULT_SUPPRESSION`. -/
def State.withSuppression (s : State) (b : Bool) : State := { s with cfg := { s.cfg with faultSuppression := b } }

theorem preOf_withSuppression (i : Instr) (s : State) (b : Bool) : preOf i (s.withSuppression b) = preOf i s := by
  cases i <;> rfl

theorem effectOf_withSuppression (i : Instr) (s : State) (b : Bool) :
    effectOf i (s.withSuppression b) = fun v => (effectOf i s v).withSuppression b := by
  cases i <;> rfl

theorem accessOf_la_withSuppression (i : Instr) (s : State) (b : Bool) (a : Addr) :
    (accessOf a (s.withSuppression b) i).la = (accessOf a s i).la :=
  accessOf_la_congr (s := s) (t := s.withSuppression b) rfl rfl rfl rfl a i

theorem srcBit_withSuppression (i : Instr) (s : State) (b : Bool) (j : Nat) :
    srcBit i (s.withSuppression b) j = srcBit i s j := by
  cases hrm : (operands i).rm with
  | reg rm => exact srcBit_reg_congr (s := s) (t := s.withSuppression b) hrm rfl rfl j
  | mem a => exact srcBit_mem_congr hrm (accessOf_la_withSuppression i s b a) (fun _ => rfl) j

theorem need_of_not_suppressed {s : State} (hs : s.cfg.faultSuppression = false) (i : Instr) (a : Addr) (j : Nat) :
    (accessOf a s i).need j = true := by
  cases he : evex? i with
  | none => exact accessOf_need_of_not_evex he a s j
  | some e => exact (accessOf_need_evex_iff he a s j).2 (.inl hs)

/-- An operand that is readable without fault suppression is readable with it. -/
theorem readable_withSuppression {i : Instr} {s : State} {a : Addr}
    (h : Readable (s.withSuppression false) (accessOf a (s.withSuppression false) i)) :
    Readable (s.withSuppression true) (accessOf a (s.withSuppression true) i) := by
  obtain ⟨hm, hfaults, hdevice⟩ := h
  have haccess : accessOf a (s.withSuppression true) i = { accessOf a (s.withSuppression false) i with
      need := (accessOf a (s.withSuppression true) i).need } :=
    accessOf_eq_with_need (by rw [accessOf_la_withSuppression, accessOf_la_withSuppression])
  rw [haccess]
  exact ⟨hm, operandFaults_eq_nil_of_need_imp (fun j _ => need_of_not_suppressed rfl i a j) hfaults, hdevice⟩

/-- An instruction completes exactly when nothing is raised before its operand and the operand is readable. -/
theorem exists_next_iff {i : Instr} {s : State} : (∃ t, exec i s = .next t) ↔
    preOf i s = none ∧ ∀ q, access i s = some q → Readable s q := by
  constructor
  · rintro ⟨t, hx⟩
    obtain ⟨hpre, b, hb, -⟩ := exec_eq_next.1 hx
    exact ⟨hpre, (srcOf_eq_value.1 hb).1⟩
  · exact fun h => exists_next_of_runs (runs_iff.2 h)

/-- The operand of an EVEX form is readable when each byte that must be is canonical and answered with a byte. -/
theorem operandFaults_evex_eq_nil {i : Instr} {e : Evex} {s : State} {q : Access} (he : evex? i = some e)
    (hq : access i s = some q) : operandFaults s q = [] ↔ ∀ j < q.bytes, q.need j = true →
      canonical s.cfg.vaBits (q.byteAddr j) = true ∧ s.pageFaultAt (q.byteAddr j) = none := by
  have hc : cls i = .evex := by
    cases i with
    | pandnMm | pandnXmm | vpandn128 | vpandn256 => cases he
    | vpandnd128 | vpandnd256 | vpandnd512 | vpandnq128 | vpandnq256 | vpandnq512 => rfl
  obtain ⟨halign, hac⟩ := access_checks hq
  rw [operandFaults_eq_nil, addrFault_eq_none, alignFault_eq_none, pageFault_eq_none, acFault_eq_none, halign, hac, hc]
  simp only [Access.needed, List.mem_filter, List.mem_range, reduceCtorEq, beq_iff_eq, false_imp_iff, true_and, and_true,
    and_imp]
  exact ⟨fun h j hj hn => ⟨h.1 j hj hn, h.2 j hj hn⟩, fun h => ⟨fun j hj hn => (h j hj hn).1, fun j hj hn => (h j hj hn).2⟩⟩

end Sys2Proof.Machine

namespace Sys2Proof.Proofs

open Sys2Proof
open Sys2Proof.Machine
open Sys2Proof.Safety

/-- Settles O16: steps 1 to 3, the second source, and the bits computed from it are the same in both states. -/
theorem outcomeDependsOnlyOnInputs : Obligations.OutcomeDependsOnlyOnInputs := by
  intro i s t h
  have hctl : SameControl s t := h.1
  have hrip : t.rip = s.rip := by
    obtain ⟨-, -, -, -, -, -, -, -, -, -, -, -, -, hrip, -⟩ := hctl
    exact hrip
  rw [exec_eq_complete i s, exec_eq_complete i t, preOf_of_sameControl hctl, srcOf_of_sameInputs h]
  cases preOf i s with
  | some f => rfl
  | none =>
    cases srcOf i s with
    | value b =>
      exact ⟨_, rfl, by rw [effectOf_rip, effectOf_rip, hrip], fun j hj => resultBit_effectOf_of_sameInputs h b hj⟩
    | fault f => rfl
    | refused r => rfl

/-- Settles O42: neither steps 1 to 3 nor the update use CPL, and the second source uses it as said. -/
theorem privilegeOnlyThroughMemory : Obligations.PrivilegeOnlyThroughMemory := by
  intro i s c hc
  calc exec i (s.withCpl c)
      = complete (preOf i s) (srcOf i s) (fun b => (effectOf i s b).withCpl c) := by
        rw [exec_eq_complete, preOf_withCpl, srcOf_withCpl hc, effectOf_withCpl]
    _ = mapNext (·.withCpl c) (exec i s) :=
        (complete_comp _ _ (effectOf i s) (·.withCpl c)).trans (by rw [← exec_eq_complete])

/-- Settles O43: with fault suppression fewer bytes must be readable, those that the mask asks for; nothing else changes. -/
theorem faultSuppression : Obligations.FaultSuppression := by
  refine ⟨fun i s t hx => ?_, fun i e s he hs hm hud hts ha hdevice => ?_⟩
  · obtain ⟨hpre, b, hb, rfl⟩ := (exec_eq_next (i := i) (s := s.withSuppression false)).1 hx
    obtain ⟨hq, hbits⟩ := srcOf_eq_value.1 hb
    refine (exec_eq_next (s := s.withSuppression true)).2 ⟨?_, b, srcOf_eq_value.2 ⟨fun q hqt => ?_, fun j hj => ?_⟩, ?_⟩
    · rw [preOf_withSuppression] at hpre ⊢
      exact hpre
    · cases hrm : (operands i).rm with
      | reg rm =>
        rw [access_of_reg hrm] at hqt
        cases hqt
      | mem a =>
        rw [access_of_mem hrm] at hqt
        cases hqt
        exact readable_withSuppression (hq _ (access_of_mem hrm _))
    · rw [hbits j hj, srcBit_withSuppression, srcBit_withSuppression]
    · rw [effectOf_withSuppression, effectOf_withSuppression]
      rfl
  · have hpre : preOf i s = none :=
      preOf_eq_none.2 ⟨hud, hts, fun hc => absurd hc (cls_ne_mmx_of_evex he)⟩
    rw [exists_next_iff, and_iff_right hpre]
    refine forall₂_congr fun q hq => ?_
    have hneed (j : Nat) : q.need j = true ↔ maskNeeds i e s j := by
      cases hrm : (operands i).rm with
      | reg rm =>
        rw [access_of_reg hrm] at hq
        cases hq
      | mem a =>
        rw [access_of_mem hrm] at hq
        cases hq
        rw [accessOf_need_evex_iff he]
        simp [hs, ha]
    rw [Readable, operandFaults_evex_eq_nil he hq, and_iff_right hm, and_iff_left (hdevice q hq)]
    simp only [hneed]
    rfl

end Sys2Proof.Proofs
end

section
/-! PROOF. Steps and runs: what a step does with the bytes at `rip` (00_scope.md R16), what it leaves unchanged (10_state.md
R43), the invariant of the containers, and the run of a program (R19). -/

namespace Sys2Proof.Machine

open Sys2Proof
open Sys2Proof.Safety

/-! ## The step by what the decoder answers -/

theorem step_of_m64 {s : State} (hm : s.mode = .m64) : step s = runDecoded (decode s.fetch) s := if_pos hm

theorem runDecoded_of_placed {i : Instr} {s : State} (hp : s.placed i.len = true) (rest : List Byte) :
    runDecoded (.instr i rest) s = mapNext State.nextAnswer (exec i s) := if_pos hp

/-- A step completes exactly when the instruction that it decodes, placed canonically, does. -/
theorem step_eq_next {s t : State} : step s = .next t ↔ s.mode = .m64 ∧ ∃ i rest, decode s.fetch = .instr i rest ∧
    s.placed i.len = true ∧ ∃ u, exec i s = .next u ∧ t = u.nextAnswer := by
  constructor
  · intro h
    by_cases hm : s.mode = .m64
    · rw [step_of_m64 hm] at h
      cases hd : decode s.fetch with
      | instr i rest =>
        rw [hd] at h
        by_cases hp : s.placed i.len = true
        · rw [runDecoded_of_placed hp] at h
          exact ⟨hm, i, rest, rfl, hp, mapNext_eq_next.1 h⟩
        · rw [runDecoded, if_neg hp] at h
          cases h
      | ud n =>
        rw [hd, runDecoded] at h
        split at h <;> cases h
      | refuse r =>
        rw [hd] at h
        cases h
    · rw [step, if_neg hm] at h
      cases h
  · rintro ⟨hm, i, rest, hd, hp, hu⟩
    rw [step_of_m64 hm, hd, runDecoded_of_placed hp]
    exact mapNext_eq_next.2 hu

/-- An encoding is not placed when it reaches past 2^64 or one of its bytes, or the address after it, is not canonical. -/
theorem placed_eq_false {s : State} {n : Nat} (h : 2 ^ 64 ≤ s.rip.toNat + n ∨
    ∃ j ≤ n, canonical s.cfg.vaBits (s.rip + BitVec.ofNat 64 j) = false) : s.placed n = false := by
  rw [State.placed, Bool.and_eq_false_iff]
  rcases h with h | ⟨j, hj, hc⟩
  · exact .inl (decide_eq_false (Nat.not_lt.2 h))
  · exact .inr (List.all_eq_false.2 ⟨j, List.mem_range.2 (Nat.lt_succ_of_le hj), by rw [hc]; exact Bool.false_ne_true⟩)

/-! ## What an execution leaves unchanged -/

theorem exec_keeps_plat {i : Instr} {s t : State} (h : exec i s = .next t) : t.plat = s.plat := by
  rw [exec_eq_next_frame h]

theorem exec_keeps_cfg {i : Instr} {s t : State} (h : exec i s = .next t) : t.cfg = s.cfg := by
  rw [exec_eq_next_frame h]

theorem exec_keeps_k {i : Instr} {s t : State} (h : exec i s = .next t) : t.k = s.k := by
  rw [exec_eq_next_frame h]

theorem exec_keeps_mode {i : Instr} {s t : State} (h : exec i s = .next t) : t.mode = s.mode := by
  rw [exec_eq_next_frame h]
  rfl

theorem nextAnswer_byteAt (s : State) (la : Word) : s.nextAnswer.byteAt la = s.byteAt la := rfl

/-- A vector register that changes is the destination of a vector form. -/
theorem eq_dst_of_readZmm_ne {i : Instr} {s t : State} (h : exec i s = .next t) {n : BitVec 5}
    (hn : t.readZmm n ≠ s.readZmm n) : cls i ≠ .mmx ∧ n = dst i := by
  by_cases hc : cls i = .mmx
  · rw [eq_pandnMm_of_cls hc] at h
    rw [exec_pandnMm_eq_next h] at hn
    exact absurd rfl hn
  · exact ⟨hc, by_contra fun hd => hn (exec_keeps_readZmm hc h hd)⟩

/-- An MMX register that changes is the destination of the MMX form. -/
theorem eq_reg_of_readMm_ne {i : Instr} {s t : State} (h : exec i s = .next t) {n : BitVec 3}
    (hn : t.readMm n ≠ s.readMm n) : cls i = .mmx ∧ n = (operands i).reg := by
  by_cases hc : cls i = .mmx
  · rw [eq_pandnMm_of_cls hc] at h
    exact ⟨hc, by_contra fun hd => hn (exec_pandnMm_keeps_readMm h hd)⟩
  · rw [exec_vector_eq_next hc h] at hn
    exact absurd rfl hn

/-! ## The invariant -/

theorem maxvl_ge_128 (c : Config) : 128 ≤ maxvl c := by
  unfold maxvl
  split
  · decide
  · split <;> decide

/-- A form that completes is no wider than `MAXVL` (10_state.md R22). -/
theorem width_le_maxvl {i : Instr} {s t : State} (h : exec i s = .next t) : width i ≤ maxvl s.cfg := by
  obtain ⟨hpre, -⟩ := exec_eq_next.1 h
  obtain ⟨hud, -⟩ := preOf_eq_none.1 hpre
  simp only [noUd, Bool.and_eq_true, decide_eq_true_eq] at hud
  obtain ⟨⟨-, hwidth⟩, -⟩ := hud
  exact hwidth

/-- Bits at `MAXVL` and above of the destination: the XMM form keeps them, the VEX and EVEX forms zero them. -/
theorem exec_dst_upper {i : Instr} {s t : State} (hc : cls i ≠ .mmx) (h : exec i s = .next t) {j : Nat}
    (hj : maxvl s.cfg ≤ j) (hold : (s.readZmm (dst i)).getLsbD j = false) : (t.readZmm (dst i)).getLsbD j = false := by
  have hwidth := (width_le_maxvl h).trans hj
  cases i with
  | pandnMm => exact absurd rfl hc
  | pandnXmm => exact (execPandnXmm_upper_kept h ((maxvl_ge_128 _).trans hj)).trans hold
  | vpandn128 | vpandn256 => exact exec_vex_upper_zero rfl h hwidth
  | vpandnd128 | vpandnd256 | vpandnd512 | vpandnq128 | vpandnq256 | vpandnq512 =>
    exact exec_evex_upper_zero rfl h hwidth

theorem exec_keeps_inv {i : Instr} {s t : State} (hs : Inv s) (h : exec i s = .next t) : Inv t := by
  obtain ⟨hmem, hzmm, hkw, hk⟩ := hs
  rw [Safety.Inv, exec_keeps_mem h, exec_keeps_cfg h, exec_keeps_k h]
  refine ⟨hmem, fun n j hj => ?_, hkw, hk⟩
  by_cases hn : t.readZmm n = s.readZmm n
  · rw [hn]
    exact hzmm n j hj
  · obtain ⟨hc, rfl⟩ := eq_dst_of_readZmm_ne h hn
    exact exec_dst_upper hc h hj (hzmm _ j hj)

theorem nextAnswer_inv {s : State} : Inv s.nextAnswer ↔ Inv s := Iff.rfl

/-! ## Bytes in memory -/

/-- Memory holds the bytes at `rip`, they and the address after them canonical and below 2^64, in 64-bit mode. -/
structure BytesAt (bs : List Byte) (s : State) : Prop where
  m64 : s.mode = .m64
  below : s.rip.toNat + bs.length < 2 ^ 64
  canonical : ∀ j ≤ bs.length, canonical s.cfg.vaBits (s.rip + BitVec.ofNat 64 j) = true
  bytes : ∀ j < bs.length, some (s.byteAt (s.rip + BitVec.ofNat 64 j)) = bs[j]?

/-- Where memory holds an encoding of at most 15 bytes at `rip`, it is what the fetch begins with. -/
theorem fetch_eq_append {s : State} {bs : List Byte} (hlen : bs.length ≤ 15)
    (hbytes : ∀ j < bs.length, some (s.byteAt (s.rip + BitVec.ofNat 64 j)) = bs[j]?) :
    s.fetch = bs ++ s.fetch.drop bs.length := by
  have htake : s.fetch.take bs.length = bs := by
    refine List.ext_getElem? fun j => ?_
    by_cases hj : j < bs.length
    · rw [List.getElem?_take_of_lt hj, ← hbytes j hj, State.fetch, List.getElem?_map,
        List.getElem?_range (by omega), Option.map_some]
    · rw [List.getElem?_take_eq_none (by omega), List.getElem?_eq_none (by omega)]
  conv_lhs => rw [← List.take_append_drop bs.length s.fetch, htake]

theorem len_le_fifteen {i : Instr} (hwf : i.wf = true) : i.len ≤ 15 := by
  obtain ⟨hlen, -⟩ := Bool.and_eq_true_iff.1 hwf
  exact of_decide_eq_true hlen

/-- Where memory holds the encoding of a well-formed instruction at `rip`, that is the instruction decoded there. -/
theorem exists_decode_fetch {s : State} {i : Instr} (hwf : i.wf = true)
    (hbytes : ∀ j < i.len, some (s.byteAt (s.rip + BitVec.ofNat 64 j)) = (encode i)[j]?) :
    ∃ rest, decode s.fetch = .instr i rest := by
  rw [← encode_length] at hbytes
  have hfetch := fetch_eq_append (by rw [encode_length]; exact len_le_fifteen hwf) hbytes
  exact ⟨_, (congrArg decode hfetch).trans (Proofs.decodeOfEncode i _ hwf)⟩

theorem step_of_bytes {s : State} {i : Instr} (hwf : i.wf = true) (hm : s.mode = .m64) (hp : s.placed i.len = true)
    (hbytes : ∀ j < i.len, some (s.byteAt (s.rip + BitVec.ofNat 64 j)) = (encode i)[j]?) :
    step s = mapNext State.nextAnswer (exec i s) := by
  obtain ⟨rest, hd⟩ := exists_decode_fetch hwf hbytes
  rw [step_of_m64 hm, hd, runDecoded_of_placed hp]

/-! ## A program -/

theorem len_pos (i : Instr) : 0 < i.len := by
  have hmodrm (o : ModRm) : 0 < o.len := by
    obtain ⟨reg, rm⟩ := o
    cases rm with
    | reg rm => exact Nat.one_pos
    | mem a => exact Nat.add_pos_left Nat.one_pos _
  cases i with
  | pandnMm h o | pandnXmm h o => exact Nat.add_pos_right _ (hmodrm o)
  | vpandn128 h v o | vpandn256 h v o => exact Nat.add_pos_right _ (hmodrm o)
  | vpandnd128 h e o | vpandnd256 h e o | vpandnd512 h e o | vpandnq128 h e o | vpandnq256 h e o | vpandnq512 h e o =>
    exact Nat.add_pos_right _ (hmodrm o)

/-- The first instruction of a program in memory is the one the step runs. -/
theorem step_of_bytesAt {i : Instr} {cs : List Byte} {s : State} (hwf : i.wf = true) (h : BytesAt (encode i ++ cs) s) :
    step s = mapNext State.nextAnswer (exec i s) := by
  obtain ⟨hm, hbelow, hcanonical, hbytes⟩ := h
  rw [List.length_append, encode_length] at hbelow hcanonical hbytes
  have hplaced : s.placed i.len = true := by
    rw [State.placed, Bool.and_eq_true, decide_eq_true_eq, List.all_eq_true]
    exact ⟨by omega, fun j hj => hcanonical j (by have := List.mem_range.1 hj; omega)⟩
  refine step_of_bytes hwf hm hplaced fun j hj => ?_
  rw [hbytes j (by omega), List.getElem?_append_left (by rwa [encode_length])]

/-- After the first instruction memory holds the rest of the program at the new `rip`. -/
theorem bytesAt_tail {i : Instr} {cs : List Byte} {s t : State} (h : BytesAt (encode i ++ cs) s)
    (hx : exec i s = .next t) : BytesAt cs t.nextAnswer := by
  obtain ⟨hm, hbelow, hcanonical, hbytes⟩ := h
  have hlen : (encode i ++ cs).length = i.len + cs.length := by rw [List.length_append, encode_length]
  rw [hlen] at hbelow hcanonical hbytes
  have hrip : t.nextAnswer.rip = s.rip + BitVec.ofNat 64 i.len := exec_next_rip (t := t) hx
  have haddr (j : Nat) : t.nextAnswer.rip + BitVec.ofNat 64 j = s.rip + BitVec.ofNat 64 (i.len + j) := by
    rw [hrip, BitVec.add_assoc, BitVec.ofNat_add]
  have hmem (la : Word) : t.nextAnswer.byteAt la = s.byteAt la := by
    rw [nextAnswer_byteAt, State.byteAt, exec_keeps_mem hx, State.byteAt]
  refine ⟨(exec_keeps_mode hx).trans hm, ?_, fun j hj => ?_, fun j hj => ?_⟩
  · have hnowrap : (s.rip + BitVec.ofNat 64 i.len).toNat = s.rip.toNat + i.len := by
      rw [BitVec.toNat_add, BitVec.toNat_ofNat]
      omega
    rw [hrip, hnowrap]
    omega
  · rw [haddr, nextAnswer_cfg, exec_keeps_cfg hx]
    exact hcanonical _ (by omega)
  · rw [haddr, hmem, hbytes _ (by omega), List.getElem?_append_right (by rw [encode_length]; omega), encode_length,
      Nat.add_sub_cancel_left]

/-- The end of a nonempty program that does not wrap is not its start. -/
theorem rip_ne_end {s : State} {n : Nat} (hpos : 0 < n) (hbelow : s.rip.toNat + n < 2 ^ 64) :
    s.rip ≠ s.rip + BitVec.ofNat 64 n := by
  intro h
  have hnat := congrArg BitVec.toNat h
  rw [BitVec.toNat_add, BitVec.toNat_ofNat] at hnat
  omega

/-- A run of the program in memory is the run of its instructions, one step for each. -/
theorem run_eq_runList {prog : List Instr} {s : State} {n : Nat} (hwf : ∀ i ∈ prog, i.wf = true)
    (h : BytesAt (bytesOf prog) s) (hn : prog.length ≤ n) :
    run (s.rip + BitVec.ofNat 64 (bytesOf prog).length) n s = runList prog s := by
  induction prog generalizing s n with
  | nil =>
    have hstop : s.rip = s.rip + BitVec.ofNat 64 (bytesOf []).length := (BitVec.add_zero s.rip).symm
    cases n <;> exact if_pos hstop
  | cons i is ih =>
    obtain ⟨n, rfl⟩ : ∃ m, n = m + 1 := Nat.exists_eq_succ_of_ne_zero (Nat.ne_zero_of_lt hn)
    have hcons : bytesOf (i :: is) = encode i ++ bytesOf is := List.flatMap_cons
    have hlen : (bytesOf (i :: is)).length = i.len + (bytesOf is).length := by
      rw [hcons, List.length_append, encode_length]
    have hne : s.rip ≠ s.rip + BitVec.ofNat 64 (bytesOf (i :: is)).length :=
      rip_ne_end (by have := len_pos i; omega) h.below
    rw [hcons] at h
    rw [run, if_neg hne, step_of_bytesAt (hwf i List.mem_cons_self) h, runList]
    cases hx : exec i s with
    | next t =>
      have hstop : t.nextAnswer.rip + BitVec.ofNat 64 (bytesOf is).length =
          s.rip + BitVec.ofNat 64 (bytesOf (i :: is)).length := by
        rw [nextAnswer_rip, exec_next_rip hx, BitVec.add_assoc, ← BitVec.ofNat_add, hlen]
      rw [← hstop]
      exact ih (fun j hj => hwf j (List.mem_cons_of_mem i hj)) (bytesAt_tail h hx) (Nat.le_of_succ_le_succ hn)
    | fault f => rfl
    | refused r => rfl

end Sys2Proof.Machine

namespace Sys2Proof.Proofs

open Sys2Proof
open Sys2Proof.Machine
open Sys2Proof.Safety

/-- Settles O55: a step that completes is an execution, which keeps the invariant, and the oracle's advance. -/
theorem invariantKept : Obligations.InvariantKept := by
  intro s t hs h
  obtain ⟨-, i, rest, -, -, u, hu, rfl⟩ := step_eq_next.1 h
  exact nextAnswer_inv.2 (exec_keeps_inv hs hu)

/-- Settles O10: the execution's frame, with the oracle's advance. -/
theorem stepWritesOnlyItsRow : Obligations.StepWritesOnlyItsRow := by
  intro s t h
  obtain ⟨-, i, rest, hd, -, u, hu, rfl⟩ := step_eq_next.1 h
  have hframe := exec_eq_next_frame hu
  refine ⟨i, rest, hd, exec_next_rip (t := u) hu, by rw [hframe]; rfl, by rw [hframe]; rfl, by rw [hframe]; rfl, by rw [hframe]; rfl,
    by rw [hframe]; rfl, by rw [hframe]; rfl, ?_, exec_keeps_cfg (t := u) hu, fun a => ?_, fun n => eq_reg_of_readMm_ne hu,
    fun hx => ?_, fun n => eq_dst_of_readZmm_ne hu⟩
  · rw [nextAnswer_plat, exec_keeps_plat hu]
  · rw [nextAnswer_mem, exec_keeps_mem hu]
  · exact by_contra fun hc => hx (exec_vector_x87 (t := u) hc hu)

/-- Settles O52: the bytes at `rip` decode to the instruction that they encode. -/
theorem stepRunsInstructionInMemory : Obligations.StepRunsInstructionInMemory :=
  fun _ _ => step_of_bytes

/-- Settles O54, by induction on the program. -/
theorem programRunsInOrder : Obligations.ProgramRunsInOrder :=
  fun _ _ _ hwf hm hbelow hn hcanonical hbytes => run_eq_runList hwf ⟨hm, hbelow, hcanonical, hbytes⟩ hn

/-- Settles O51. -/
theorem stepRunsDecoded : Obligations.StepRunsDecoded := by
  intro s i rest hd hm hp
  rw [step_of_m64 hm, hd, runDecoded_of_placed hp]
  rfl

/-- Settles O53: a misplaced encoding is refused whether it is an instruction's or the reserved length's. -/
theorem stepRefusals : Obligations.StepRefusals := by
  refine ⟨fun s hm => if_neg hm, fun s r hm hd => ?_, fun s n hm hd hbad => ?_⟩
  · rw [step_of_m64 hm, hd, runDecoded]
  · have hplaced := placed_eq_false hbad
    rw [step_of_m64 hm]
    rcases hd with ⟨i, rest, hd, rfl⟩ | hd
    · rw [hd, runDecoded, hplaced, if_neg Bool.false_ne_true]
    · rw [hd, runDecoded, hplaced, if_neg Bool.false_ne_true]

end Sys2Proof.Proofs
end

section
/-! PROOF. Ignored bits of an encoding (30_encoding.md R88, R89, R98), the states after RESET and INIT (10_state.md R45), and the
launch state (70_reset_and_hazards.md R232). -/

namespace Sys2Proof.Machine

open Sys2Proof
open Sys2Proof.Safety

/-! ## Ignored bits -/

/-- PANDN mm reads of a REX byte X and B, and those only where they form an address. -/
theorem execPandnMm_rex_congr {ps : List Pfx} {x y : Rex} {o : ModRm} (s : State)
    (h : (∃ rm, o.rm = .reg rm) ∨ (x.x = y.x ∧ x.b = y.b)) :
    execPandnMm ⟨ps, some x⟩ o s = execPandnMm ⟨ps, some y⟩ o s := by
  obtain ⟨reg, rm⟩ := o
  rcases h with ⟨rm, rfl⟩ | ⟨hx, hb⟩
  · rfl
  · have hsrc : mmxSrc ⟨ps, some x⟩ ⟨reg, rm⟩ s = mmxSrc ⟨ps, some y⟩ ⟨reg, rm⟩ s := by
      simp only [mmxSrc, mmxAccess, linAddr, effAddr, usesSS, rexX, rexB, hx, hb]
      rfl
    rw [execPandnMm, hsrc]
    rfl

/-- PANDN xmm reads of a REX byte R and B, and X only where it forms an address. -/
theorem execPandnXmm_rex_congr {ps : List Pfx} {x y : Rex} {o : ModRm} (s : State) (hr : x.r = y.r) (hb : x.b = y.b)
    (h : (∃ rm, o.rm = .reg rm) ∨ x.x = y.x) : execPandnXmm ⟨ps, some x⟩ o s = execPandnXmm ⟨ps, some y⟩ o s := by
  obtain ⟨reg, rm⟩ := o
  have hdst : sseDst ⟨ps, some x⟩ ⟨reg, rm⟩ = sseDst ⟨ps, some y⟩ ⟨reg, rm⟩ := by
    simp only [sseDst, rexR, hr]
  have hsrc : sseSrc ⟨ps, some x⟩ ⟨reg, rm⟩ s = sseSrc ⟨ps, some y⟩ ⟨reg, rm⟩ s := by
    rcases h with ⟨rm, rfl⟩ | hx
    · simp only [sseSrc, rexB, hb]
    · simp only [sseSrc, sseAccess, linAddr, effAddr, usesSS, rexX, rexB, hx, hb]
      rfl
  rw [execPandnXmm, hsrc, hdst]
  rfl

/-! ## RESET and INIT -/

/-- The general registers but RDX after RESET and INIT, whatever RDX holds. -/
theorem getElem_resetGpr (v : Word) {n : BitVec 4} (hn : n ≠ 2#4) :
    ((Vector.replicate 16 0#64).set 2 v)[n.toNat] = 0#64 := by
  have hne : 2 ≠ n.toNat := fun h => hn (BitVec.eq_of_toNat_eq h.symm)
  rw [Vector.getElem_set_ne (h := hne), Vector.getElem_replicate]

@[simp] theorem readZmm_reset (n : BitVec 5) : State.reset.readZmm n = 0#512 := Vector.getElem_replicate _

@[simp] theorem readMm_reset (n : BitVec 3) : State.reset.readMm n = 0#64 := Vector.getElem_replicate _

theorem getElem_k_reset (n : Nat) (hn : n < 8) : State.reset.k[n] = 0 := Vector.getElem_replicate _

@[simp] theorem readK_reset (n : BitVec 3) : State.reset.readK n = 0 := by
  rw [State.readK, getElem_k_reset]
  rfl

/-- The five segments but CS after RESET, INIT taking them from there. -/
theorem eq_resetSegment_of_mem {g : Segment} (h : g ∈ [State.reset.seg.ds, State.reset.seg.es, State.reset.seg.fs,
    State.reset.seg.gs, State.reset.seg.ss]) : g = resetSegment 0#16 0#64 :=
  List.eq_of_mem_replicate (n := 5) h

/-- CR0 after INIT: bits 30 and 29 are kept, the others are those of RESET (assumption log 25). -/
theorem getLsbD_cr0_afterInit (s : State) (j : Nat) : s.afterInit.ctl.cr0.getLsbD j =
    if j = 30 ∨ j = 29 then s.ctl.cr0.getLsbD j else (0x60000010#64).getLsbD j := by
  have hset : ∀ j : Fin 64, (0x10#64).getLsbD j =
      if j.val = 30 ∨ j.val = 29 then false else (0x60000010#64).getLsbD j := by decide
  have hkept : ∀ j : Fin 64, (0x60000000#64).getLsbD j = decide (j.val = 30 ∨ j.val = 29) := by decide
  have hcr0 : s.afterInit.ctl.cr0 = 0x10#64 ||| (s.ctl.cr0 &&& 0x60000000#64) := rfl
  rw [hcr0, BitVec.getLsbD_or, BitVec.getLsbD_and]
  by_cases hj : j < 64
  · rw [hset ⟨j, hj⟩, hkept ⟨j, hj⟩]
    by_cases h : j = 30 ∨ j = 29 <;> simp [h]
  · have hge (v : Word) : v.getLsbD j = false := BitVec.getLsbD_of_ge v j (Nat.le_of_not_lt hj)
    simp only [hge, Bool.false_or, Bool.false_and, ite_self]

/-- After RESET neither CR4.OSFXSR nor CR4.OSXSAVE is set, which every form but the MMX form needs. -/
theorem ctlUd_reset {c : Cls} (hc : c ≠ .mmx) : ctlUd c State.reset = true := by
  cases c with
  | mmx => exact absurd rfl hc
  | sse | vex | evex => rfl

/-- After RESET the MMX form without LOCK raises nothing before its operand. -/
theorem preOf_pandnMm_reset {h : Head} (hlock : Pfx.lock ∉ h.pfx) (o : ModRm) :
    preOf (.pandnMm h o) State.reset = none := by
  have hlegal : legal (.pandnMm h o) = true := by
    simpa [legal, cls, head, evex?] using hlock
  have hud : noUd (.pandnMm h o) State.reset = true := by
    rw [noUd, hlegal]
    rfl
  exact preOf_eq_none.2 ⟨hud, rfl, fun _ => rfl⟩

/-! ## The launch state -/

theorem getLsbD_cr0_launch (s : State) (j : Nat) : s.launch.ctl.cr0.getLsbD j =
    (s.ctl.cr0.getLsbD j && (~~~0xC#64).getLsbD j || (0x80000001#64).getLsbD j) := by
  rw [← BitVec.getLsbD_and, ← BitVec.getLsbD_or]
  rfl

theorem getLsbD_cr4_launch (s : State) (j : Nat) :
    s.launch.ctl.cr4.getLsbD j = (s.ctl.cr4.getLsbD j || (0x40200#64).getLsbD j) := BitVec.getLsbD_or

theorem getLsbD_xcr0_launch (s : State) (j : Nat) :
    s.launch.ctl.xcr0.getLsbD j = (s.ctl.xcr0.getLsbD j || (0xE7#64).getLsbD j) := BitVec.getLsbD_or

theorem getLsbD_efer_launch (s : State) (j : Nat) :
    s.launch.ctl.efer.getLsbD j = (s.ctl.efer.getLsbD j || (0x500#64).getLsbD j) := BitVec.getLsbD_or

@[simp] theorem cr0EM_launch (s : State) : s.launch.cr0EM = false := by
  rw [State.cr0EM, getLsbD_cr0_launch]
  simp

@[simp] theorem cr0TS_launch (s : State) : s.launch.cr0TS = false := by
  rw [State.cr0TS, getLsbD_cr0_launch]
  simp

@[simp] theorem osfxsr_launch (s : State) : s.launch.osfxsr = true := by
  rw [State.osfxsr, getLsbD_cr4_launch]
  exact Bool.or_true _

@[simp] theorem osxsave_launch (s : State) : s.launch.osxsave = true := by
  rw [State.osxsave, getLsbD_cr4_launch]
  exact Bool.or_true _

@[simp] theorem xcr0Avx_launch (s : State) : s.launch.xcr0Avx = true := by
  have hones : ∀ v : BitVec 2, v ||| 3#2 = 3#2 := by decide
  have hxcr0 : s.launch.ctl.xcr0 = s.ctl.xcr0 ||| 0xE7#64 := rfl
  rw [State.xcr0Avx, hxcr0, BitVec.extractLsb'_or, beq_iff_eq]
  exact hones _

@[simp] theorem xcr0Avx512_launch (s : State) : s.launch.xcr0Avx512 = true := by
  have hones : ∀ v : BitVec 3, v ||| 7#3 = 7#3 := by decide
  have hxcr0 : s.launch.ctl.xcr0 = s.ctl.xcr0 ||| 0xE7#64 := rfl
  rw [State.xcr0Avx512, hxcr0, BitVec.extractLsb'_or, beq_iff_eq]
  exact hones _

@[simp] theorem fswES_launch (s : State) : s.launch.fswES = false :=
  BitVec.getLsbD_and.trans (Bool.and_false _)

@[simp] theorem flagVM_launch (s : State) : s.launch.flagVM = false :=
  BitVec.getLsbD_and.trans (Bool.and_false _)

@[simp] theorem mode_launch (s : State) : s.launch.mode = .m64 := by
  have hlma : s.launch.lma = true := (getLsbD_efer_launch s 10).trans (Bool.or_true _)
  rw [State.mode, if_pos hlma]
  rfl

/-- The launch enables every form (60_exceptions.md R193, R197). -/
theorem enabled_launch (i : Instr) (s : State) : enabled i s.launch = true := by
  unfold enabled
  cases cls i with
  | mmx | sse | vex | evex => simp

/-- After the launch a legal instruction whose features are present raises nothing before its operand. -/
theorem preOf_launch {i : Instr} {s : State} (hl : legal i = true) (hf : featuresPresent s.cfg i = true)
    (hw : width i ≤ maxvl s.cfg) : preOf i s.launch = none := by
  have hud : noUd i s.launch = true := by
    rw [noUd, hl, enabled_launch, Bool.true_and, Bool.and_true, Bool.and_eq_true, decide_eq_true_eq]
    exact ⟨hf, hw⟩
  exact preOf_eq_none.2 ⟨hud, cr0TS_launch s, fun _ => fswES_launch s⟩

/-- An instruction with a register operand completes when nothing is raised before its operand. -/
theorem exists_next_of_reg {i : Instr} {s : State} {rm : BitVec 3} (hrm : (operands i).rm = .reg rm)
    (hpre : preOf i s = none) : ∃ t, exec i s = .next t := by
  refine exists_next_iff.2 ⟨hpre, fun q hq => ?_⟩
  rw [access_of_reg hrm] at hq
  cases hq

end Sys2Proof.Machine

namespace Sys2Proof.Proofs

open Sys2Proof
open Sys2Proof.Machine
open Sys2Proof.Safety

/-- Settles O50: the bits in question reach neither a register number that the form uses nor its address, nor its length. -/
theorem ignoredBits : Obligations.IgnoredBits :=
  ⟨fun _ _ _ _ s h => execPandnMm_rex_congr s h, fun _ _ _ _ s hr hb h => execPandnXmm_rex_congr s hr hb h,
    fun _ _ _ _ _ _ _ _ _ => ⟨rfl, rfl⟩⟩

/-- Settles O56: nothing is listed in memory, and every register of the reset state holds 0. -/
theorem invariantAtReset : Obligations.InvariantAtReset := by
  refine ⟨⟨List.Pairwise.nil, fun c hc => nomatch hc⟩, fun n j _ => ?_, by decide, fun n => ?_⟩
  · rw [readZmm_reset, BitVec.getLsbD_zero]
  · have hk : State.reset.k[n] = 0 := getElem_k_reset n n.isLt
    rw [hk]
    exact Nat.two_pow_pos _

/-- Settles O57: the reset state's fields, and its register files read at any number. -/
theorem resetValues : Obligations.ResetValues := by
  refine ⟨readZmm_reset, readK_reset, readMm_reset, rfl, rfl, rfl, rfl, rfl, fun n hn => getElem_resetGpr _ hn, rfl, rfl, rfl,
    rfl, rfl, rfl, rfl, rfl, rfl, rfl, fun g hg => ?_, rfl⟩
  rw [eq_resetSegment_of_mem hg]
  exact ⟨rfl, rfl, rfl⟩

/-- Settles O58: INIT keeps or resets each field as a whole, but CR0, of which it keeps two bits. -/
theorem initValues : Obligations.InitValues := by
  intro s
  refine ⟨rfl, rfl, rfl, rfl, rfl, rfl, getLsbD_cr0_afterInit s, rfl, rfl, rfl, rfl, rfl, rfl, rfl, rfl, rfl, rfl,
    fun g hg => ?_, fun n hn => getElem_resetGpr _ hn⟩
  rw [eq_resetSegment_of_mem hg]
  exact ⟨rfl, rfl, rfl⟩

/-- Settles O59: the control state of RESET enables the MMX form alone. -/
theorem onlyMmxRunsAtReset : Obligations.OnlyMmxRunsAtReset :=
  ⟨fun _ hc => exec_ud_of_ctlUd (ctlUd_reset hc),
    fun _ _ _ hlock => exists_next_of_reg rfl (preOf_pandnMm_reset hlock _)⟩

/-- Settles O60: the launch sets what enables every form, and a register operand raises nothing more. -/
theorem launchedStateRuns : Obligations.LaunchedStateRuns := by
  refine ⟨fun i s rm hl hf hw hrm => ⟨mode_launch s, exists_next_of_reg hrm (preOf_launch hl hf hw)⟩, fun s => ?_⟩
  simp only [List.forall_mem_cons, List.not_mem_nil, false_imp_iff, implies_true, and_true, getLsbD_cr0_launch,
    getLsbD_cr4_launch, getLsbD_xcr0_launch, getLsbD_efer_launch]
  refine ⟨?_, ?_, ?_, ?_, ?_, rfl, flagVM_launch s, fswES_launch s⟩ <;> simp

end Sys2Proof.Proofs
end
